-- ==== Sys2Proof/Word.lean ====
section
/-! DEFINITION. The word types of CORE (00_scope.md R9) and bit strings (R12): unsigned integers and bit strings are all CORE
computes with (R16), so every reading of a word as a number in this model is `toNat`. -/

namespace Sys2Proof

/-- A byte of IN, OUT or a PackedStream (R15). -/
abbrev Byte := BitVec 8

/-- A symbol: one byte, SYM_W = 8 (R9). -/
abbrev Sym := BitVec 8

/-- A host bus word, BUS_W = 32 (R9); also a FREQ entry, a register and a command word. -/
abbrev Word := BitVec 32

/-- The weight of a tree node, WEIGHT_W = 40 (R9, R177). -/
abbrev Weight := BitVec 40

/-- A CODE_BITS entry, CODE_BITS_W = 256 (R9, R57). -/
abbrev CodeEntry := BitVec 256

/-- A bit string; the head is c_0, the first bit written and the first bit read (R12). -/
abbrev Bits := List Bool

end Sys2Proof
end

