-- ==== Sys2Proof/Config.lean ====
section
/-! DEFINITION. What is fixed for one CORE: the open parameters of 00_scope.md R10, the fixed ones of R9, and the
free values the spec leaves open (log 2). -/

namespace Sys2Proof

/-- The open parameters of R10. A model takes each as an argument; a state carries them and no step changes them (log 1). -/
structure Config where
  /-- IN_CAP, the capacity of the IN buffer in bytes. -/
  inCap  : Nat
  /-- OUT_CAP, the capacity of the OUT buffer in bytes. -/
  outCap : Nat
  /-- BASE, the host address of offset 0. -/
  base   : Nat
  deriving DecidableEq, Repr

/-- DESIGN CHOICE (log 1): the parameters `State.reset` takes, IN_CAP = OUT_CAP = 64 as in 95_test_vectors.md, BASE = 0. -/
def Config.vectors : Config := { inCap := 64, outCap := 64, base := 0 }

/-- A TREE node record (10_state.md R60); `left` and `right` are sequence numbers. -/
inductive Node where
  | leaf (sym : Sym) (weight : Weight)
  | internal (weight : Weight) (left right : Nat)
  deriving DecidableEq, Repr

/-- The k-th arbitrary byte: reads of never-written buffer bytes (20_memory.md R94) and havoc (60_exceptions.md R321). -/
opaque Config.freeByte : Nat → Byte

/-- The k-th arbitrary word: host reads of state a running command writes (20_memory.md R89), and CUR_CMD while idle
(93_implementation_defined.md I-U5). -/
opaque Config.freeWord : Nat → Word

/-- The k-th arbitrary TREE contents: TREE while TREE_VALID = 0 (10_state.md R61, 93_implementation_defined.md I-U6). -/
opaque Config.freeTree : Nat → List Node

/-- WINDOW: bytes of CORE's host address window (R9). -/
def Config.window : Nat := 0x03000000

/-- The alignment of BASE (R10). -/
def Config.baseAlign : Nat := 0x04000000

/-- The largest legal capacity (R10). -/
def Config.maxCap : Nat := 2 ^ 24

/-- The ID constant, ASCII "HUF1" (10_state.md R41). -/
def Config.idWord : Word := 0x48554631#32

end Sys2Proof
end

