-- ==== Sys2Proof/Syntax.lean ====
section
/-! DEFINITION. The commands of CORE: one constructor for each row of spec/opcode_table.json (30_encoding.md R121).
No command has an operand field (R122). -/

namespace Sys2Proof

inductive Instr where
  /-- COUNT, the Frequency Counter (40_frequency_counter.md R150). -/
  | count
  /-- BUILD_TREE, the Tree Builder (41_tree_builder.md R170). -/
  | buildTree
  /-- GEN_CODES, the Code Table Generator (42_code_table.md R200). -/
  | genCodes
  /-- BUILD_CODEC, the three in turn (45_build_codec.md R290). -/
  | buildCodec
  /-- ENCODE, the bitstream encoder (43_encoder.md R230). -/
  | encode
  /-- DECODE, the bitstream decoder (44_decoder.md R260). -/
  | decode
  deriving DecidableEq, Repr

end Sys2Proof
end

