-- ==== Sys2Proof/WellFormed.lean ====
section
/-! DEFINITION. Well-formedness: the legal parameters of 00_scope.md R10 and the legal command words of
30_encoding.md R120. No command has an operand (R122), so every `Instr` is well-formed as it stands. -/

namespace Sys2Proof

/-- R10's legal ranges: 1 ≤ IN_CAP ≤ 2^24, 1 ≤ OUT_CAP ≤ 2^24, BASE aligned to 0x0400_0000. -/
def Config.wf (c : Config) : Bool :=
  decide (1 ≤ c.inCap) && decide (c.inCap ≤ Config.maxCap) &&
  decide (1 ≤ c.outCap) && decide (c.outCap ≤ Config.maxCap) &&
  decide (c.base % Config.baseAlign = 0)

/-- R120: bits [31:8] are zero and bits [7:0] are one of 0x01 to 0x06. -/
def CommandWord.legal (v : Word) : Bool :=
  v.extractLsb' 8 24 == 0#24 && decide (1 ≤ (v.extractLsb' 0 8).toNat) && decide ((v.extractLsb' 0 8).toNat ≤ 6)

/-- An instruction is well-formed: it has no field that could be ill-formed (R122, R123). -/
def Instr.wf : Instr → Bool
  | .count => true
  | .buildTree => true
  | .genCodes => true
  | .buildCodec => true
  | .encode => true
  | .decode => true

end Sys2Proof
end

