-- ==== Sys2Proof/Decode.lean ====
section
/-! DEFINITION. The command decoder and encoder (30_encoding.md R120, R121, R124). A command word is one 32-bit word
written to CMD, so no byte order enters (R125). -/

namespace Sys2Proof

/-- Why a command word is illegal (R124). Either way it completes with ILLEGAL_COMMAND (45_build_codec.md R295). -/
inductive Reject where
  /-- A bit of [31:8] is 1. -/
  | reservedBitsSet
  /-- OPC is 0x00 or 0x07 to 0xFF. -/
  | opcodeUnassigned
  deriving DecidableEq, Repr

/-- The OPC field, bits [7:0] (R120). -/
def opcField (v : Word) : BitVec 8 := v.extractLsb' 0 8

/-- The MBZ field, bits [31:8] (R120). -/
def mbzField (v : Word) : BitVec 24 := v.extractLsb' 8 24

/-- R121's opcode map, from the OPC field. -/
def decodeOpc (opc : BitVec 8) : Except Reject Instr :=
  if opc = 0x01#8 then .ok .count
  else if opc = 0x02#8 then .ok .buildTree
  else if opc = 0x03#8 then .ok .genCodes
  else if opc = 0x04#8 then .ok .buildCodec
  else if opc = 0x05#8 then .ok .encode
  else if opc = 0x06#8 then .ok .decode
  else .error .opcodeUnassigned

/-- R120: the instruction a command word stands for, or why it is illegal. -/
def decode (v : Word) : Except Reject Instr :=
  if mbzField v = 0#24 then decodeOpc (opcField v) else .error .reservedBitsSet

/-- R121's opcode of each command. -/
def opcode : Instr → BitVec 8
  | .count => 0x01#8
  | .buildTree => 0x02#8
  | .genCodes => 0x03#8
  | .buildCodec => 0x04#8
  | .encode => 0x05#8
  | .decode => 0x06#8

/-- R120: the command word of an instruction, MBZ in bits [31:8] and OPC in bits [7:0]. -/
def encode (i : Instr) : Word := (0#24 ++ opcode i : BitVec 32)

/-- The word `w`'s low `nbits` bits as a command word; a value that needs more than 32 bits is none. -/
def tableWord (nbits w : Nat) : Option Word :=
  if w % 2 ^ nbits < 2 ^ 32 then some (BitVec.ofNat 32 (w % 2 ^ nbits)) else none

/-- The instruction the decoder reads from a row of spec/opcode_table.json whose bits are `w`. -/
def decodeTableWord (nbits w : Nat) : Option Instr :=
  match tableWord nbits w with
  | none => none
  | some v =>
    match decode v with
    | .ok i => some i
    | .error _ => none

end Sys2Proof
end

