-- ==== Sys2Proof/Machine/Bits.lean ====
section
/-! DEFINITION. Bit strings, bytes and bus lanes (00_scope.md R12, R13, R15; 20_memory.md R97). -/

namespace Sys2Proof.Machine

/-- R13: `val(c) = Σ c_i · 2^(L-1-i)`, most significant bit first. -/
def val : Bits → Nat
  | [] => 0
  | b :: c => b.toNat * 2 ^ c.length + val c

/-- R13: `bits_L(v)`, the bit string of length `L` whose value is `v`, for `v < 2^L`. -/
def bitsOf (L v : Nat) : Bits := (List.range L).map fun i => v.testBit (L - 1 - i)

/-- R15: a byte as eight bits, most significant bit first. -/
def byteToBits (b : Byte) : Bits := bitsOf 8 b.toNat

/-- R15: bit `8k + j` is `b[k][7-j]`. -/
def bytesToBits (bs : List Byte) : Bits := bs.flatMap byteToBits

/-- 43_encoder.md R234: byte `k` of a bit string, `val(take(8, drop(8k, P)))`. -/
def byteAt (P : Bits) (k : Nat) : Byte := BitVec.ofNat 8 (val ((P.drop (8 * k)).take 8))

/-- R15: `bits_to_bytes(P)` for a bit string of length `8N`. -/
def bitsToBytes (N : Nat) (P : Bits) : List Byte := (List.range N).map (byteAt P)

/-- Byte lane `j` of a bus word, bits `[8j+7 : 8j]` (R97). -/
def lane (v : Word) (j : Nat) : Byte := v.extractLsb' (8 * j) 8

/-- A bus word from its four lanes, lane 0 first (R97). -/
def wordOfLanes (b0 b1 b2 b3 : Byte) : Word := (b3 ++ b2 ++ b1 ++ b0 : BitVec 32)

/-- A register's zero-extended value on the bus (00_scope.md R11). -/
def zext32 {w : Nat} (v : BitVec w) : Word := v.setWidth 32

end Sys2Proof.Machine
end

