-- ==== Sys2Proof/Machine/State.lean ====
section
/-! DEFINITION. The state of CORE (10_state.md R67), the agents' moves, the reasons a step can stop, and the state
after reset (70_reset_and_hazards.md R350). -/

namespace Sys2Proof.Machine

/-- A table of 256 entries of `w` bits, one for each symbol (10_state.md R55 to R57). -/
abbrev Table (w : Nat) := Vector (BitVec w) 256

/-- A byte buffer (IN or OUT): the bytes written so far, by rising index. An unlisted index was never written and
reads as no value of its own (20_memory.md R94, log 5). -/
abbrev Memory := List Host.Cell

/-- One move of an agent (00_scope.md R8); host addresses are natural numbers, BASE + off (20_memory.md R81). -/
inductive Move where
  /-- The host reads the word at a host address (R84). -/
  | read (addr : Nat)
  /-- The host writes a word at a host address (R85). -/
  | write (addr : Nat) (v : Word)
  /-- The reset input is asserted (70_reset_and_hazards.md R350). -/
  | reset
  /-- The command engine's turn: the completion step, if BUSY = 1 (60_exceptions.md R319). -/
  | engine
  deriving DecidableEq, Repr

/-- The errors a command can end with (60_exceptions.md R310). -/
inductive Err where
  | emptyInput
  | unknownSymbol
  | malformedStream
  | illegalCommand
  | outputOverflow
  | lengthRange
  | noTree
  deriving DecidableEq, Repr

/-- Why the machine stops. No command stops: CORE has no traps (60_exceptions.md). -/
inductive Fault where
  /-- Raised by `step` for a host transaction at a host address outside CORE's window: what the platform places there
  is outside the spec (20_memory.md R81). Safe (log 9). -/
  | outsideWindow (addr : Nat)
  deriving DecidableEq, Repr

/-- No meaning for an instruction. -/
inductive Refusal where
  /-- Raised by an arm of `exec` whose instruction has no meaning yet; no arm does. Safe. -/
  | notModelled (mnemonic : String)
  deriving DecidableEq, Repr

/-- The state of CORE (R67), then the parameters it carries (log 1) and the model's own fields (log 2, 7, 15). -/
structure State where
  /-- A command is running (R32, R44). -/
  busy        : Bool
  /-- The command word being executed; meaningful only while BUSY = 1 (R32). -/
  curCmd      : Word
  /-- STATUS.DONE (R44). -/
  done        : Bool
  /-- CTRL.IRQ_EN (R42). -/
  irqEn       : Bool
  /-- ERR_CODE[7:0] (R45). -/
  errCode     : BitVec 8
  /-- STATUS.TREE_VALID (R44, R61). -/
  treeValid   : Bool
  /-- STATUS.CODES_VALID (R44). -/
  codesValid  : Bool
  /-- IN_LEN (R46). -/
  inLen       : Word
  /-- OUT_LEN (R47). -/
  outLen      : Word
  /-- NSYM (R48). -/
  nsym        : Word
  /-- MAX_LEN (R49). -/
  maxLen      : Word
  /-- PAYLOAD_BITS (R50). -/
  payloadBits : Word
  /-- PAD[2:0] (R51). -/
  pad         : BitVec 3
  /-- FREQ (R55). -/
  freq        : Table 32
  /-- CODE_LEN (R56). -/
  codeLen     : Table 8
  /-- CODE_BITS (R57). -/
  codeBits    : Table 256
  /-- TREE: record k at index k (R60). -/
  tree        : List Node
  /-- The IN buffer (R63). -/
  inBuf       : Memory
  /-- The OUT buffer (R64). -/
  outBuf      : Memory
  /-- The parameters IN_CAP, OUT_CAP and BASE (R66); no step changes them. -/
  cfg         : Config
  /-- The model's own: how many free values were drawn so far (log 2). -/
  free        : Nat
  /-- The model's own: the moves still to come, the next one first (log 7). -/
  moves       : List Move
  /-- The model's own: the word the last host read returned (log 15). -/
  lastRead    : Option Word
  deriving DecidableEq, Repr

/-- The state after reset for any parameters (R67, 70_reset_and_hazards.md R350). CUR_CMD and TREE, which the spec leaves
unspecified, take 0 and the empty list (DESIGN CHOICE, log 3, log 4). -/
def State.resetOf (c : Config) : State where
  busy := false
  curCmd := 0#32
  done := false
  irqEn := false
  errCode := 0#8
  treeValid := false
  codesValid := false
  inLen := 0#32
  outLen := 0#32
  nsym := 0#32
  maxLen := 0#32
  payloadBits := 0#32
  pad := 0#3
  freq := Vector.replicate 256 0#32
  codeLen := Vector.replicate 256 0#8
  codeBits := Vector.replicate 256 0#256
  tree := []
  inBuf := []
  outBuf := []
  cfg := c
  free := 0
  moves := []
  lastRead := none

/-- The machine right after reset, with the parameters of log 1. -/
def State.reset : State := State.resetOf Config.vectors

end Sys2Proof.Machine
end

