-- ==== Sys2Proof/Machine/Ops.lean ====
section
/-! DEFINITION. The named operations over buffers, tables and the command lifecycle: reads and writes of bytes
(20_memory.md R93 to R95), table entries, issue and completion (60_exceptions.md R318 to R320), havoc (R321). -/

namespace Sys2Proof.Machine

/-! ### Byte buffers -/

/-- The canonical form: indices strictly rising. An unlisted index reads as no value, so no entry can equal it (log 5). -/
abbrev Memory.wf (m : Memory) : Prop := (m.map Prod.fst).Pairwise (· < ·)

/-- Every listed index lies below a capacity. -/
abbrev Memory.below (m : Memory) (cap : Nat) : Prop := ∀ c ∈ m, c.1 < cap

/-- The byte last written at an index, or none if nothing has written it (R94). -/
def Memory.read? : Memory → Nat → Option Byte
  | [], _ => none
  | (b, v) :: m, a => if a = b then some v else Memory.read? m a

/-- R95: `T[a] <- v`. -/
def Memory.write : Memory → Nat → Byte → Memory
  | [], a, v => [(a, v)]
  | (b, w) :: m, a, v =>
    if a < b then (a, v) :: (b, w) :: m
    else if a = b then (a, v) :: m
    else (b, w) :: Memory.write m a v

/-- Bytes written at `a`, `a + 1`, and so on, in order. -/
def Memory.writeList : Memory → Nat → List Byte → Memory
  | m, _, [] => m
  | m, a, v :: vs => Memory.writeList (m.write a v) (a + 1) vs

/-- R94: a read of one byte and the counter after it; a byte nothing has written draws a free value. -/
def Memory.readByte (m : Memory) (a free : Nat) : Byte × Nat :=
  match m.read? a with
  | some b => (b, free)
  | none => (Config.freeByte free, free + 1)

/-- R93: reads of `n` bytes in ascending order from index `a`, and the counter after them. -/
def Memory.readList (m : Memory) : (n a free : Nat) → List Byte × Nat
  | 0, _, free => ([], free)
  | n + 1, a, free =>
    let r := m.readByte a free
    let rs := m.readList n (a + 1) r.2
    (r.1 :: rs.1, rs.2)

/-- R86, R87: one bus lane of a buffer: 0 at or past the capacity, else the byte. -/
def Memory.readLane (m : Memory) (cap a free : Nat) : Byte × Nat :=
  if a < cap then m.readByte a free else (0#8, free)

/-- R86, R87: the word `k` of a buffer window, lanes read in ascending order, and the counter after it. -/
def Memory.readWord (m : Memory) (cap k free : Nat) : Word × Nat :=
  let r0 := m.readLane cap (4 * k) free
  let r1 := m.readLane cap (4 * k + 1) r0.2
  let r2 := m.readLane cap (4 * k + 2) r1.2
  let r3 := m.readLane cap (4 * k + 3) r2.2
  (wordOfLanes r0.1 r1.1 r2.1 r3.1, r3.2)

/-- R86: a write of one lane; a lane at or past the capacity is ignored. -/
def Memory.writeLane (m : Memory) (cap a : Nat) (v : Byte) : Memory :=
  if a < cap then m.write a v else m

/-- R86: a write of the word `k` of a buffer window. -/
def Memory.writeWord (m : Memory) (cap k : Nat) (v : Word) : Memory :=
  (((m.writeLane cap (4 * k) (lane v 0)).writeLane cap (4 * k + 1) (lane v 1)).writeLane cap
    (4 * k + 2) (lane v 2)).writeLane cap (4 * k + 3) (lane v 3)

/-- 60_exceptions.md R321: every byte below the capacity takes a free value, which then reads stably. -/
def Memory.havoc (cap free : Nat) : Memory :=
  (List.range cap).map fun i => (i, Config.freeByte (free + i))

/-! ### Tables -/

/-- Every symbol, in ascending order. -/
def symbols : List Sym := (List.range 256).map (BitVec.ofNat 8)

/-- Entry `x` of a table. -/
def Table.get {w : Nat} (t : Table w) (x : Sym) : BitVec w := t[x.toNat]'x.isLt

/-- A table with entry `x` replaced. -/
def Table.put {w : Nat} (t : Table w) (x : Sym) (v : BitVec w) : Table w := Vector.set t x.toNat v x.isLt

/-- A table whose every entry is 0. -/
def Table.zero (w : Nat) : Table w := Vector.replicate 256 0#w

/-! ### The command lifecycle -/

/-- 60_exceptions.md R310: the code of an error. -/
def Err.code : Err → BitVec 8
  | .emptyInput => 1#8
  | .unknownSymbol => 2#8
  | .malformedStream => 3#8
  | .illegalCommand => 4#8
  | .outputOverflow => 5#8
  | .lengthRange => 6#8
  | .noTree => 7#8

/-- R310, R319: the result code of a command, 0 when it raised nothing. -/
def resultCode : Option Err → BitVec 8
  | none => 0#8
  | some e => e.code

/-- How a command's pseudocode ends: the state it leaves and the error it raised, if any (R320). -/
structure Ended where
  state : State
  error : Option Err
  deriving DecidableEq, Repr

/-- R320: `raise E` ends the pseudocode; writes made before it stand. -/
def raiseErr (e : Err) (s : State) : Ended := { state := s, error := some e }

/-- The pseudocode ran to its end. -/
def finished (s : State) : Ended := { state := s, error := none }

/-- 45_build_codec.md R290: the next body runs only if the one before raised nothing. -/
def Ended.andThen (r : Ended) (body : State → Ended) : Ended :=
  match r.error with
  | none => body r.state
  | some _ => r

/-- R318, the issue step: BUSY <- 1, DONE <- 0, ERR_CODE <- 0, CUR_CMD <- v, and nothing else. -/
def State.issue (s : State) (v : Word) : State :=
  { s with busy := true, done := false, errCode := 0#8, curCmd := v }

/-- R319, the completion bookkeeping: ERR_CODE, BUSY <- 0, DONE <- 1. CUR_CMD is unspecified while idle, so it takes
a free value (93_implementation_defined.md I-U5, log 11). -/
def State.complete (s : State) (e : Option Err) : State :=
  { s with errCode := resultCode e, busy := false, done := true,
           curCmd := Config.freeWord s.free, free := s.free + 1 }

/-- R319: the completion step of a command whose pseudocode ended so. Taking an error (R320) and ending well are this
one operation. -/
def Ended.complete (r : Ended) : State := r.state.complete r.error

/-- 41_tree_builder.md R171, `invalidate()`. TREE is unspecified while TREE_VALID = 0, so it takes a free value
(93_implementation_defined.md I-U6, log 11). -/
def State.invalidate (s : State) : State :=
  { s with treeValid := false, codesValid := false, nsym := 0#32, maxLen := 0#32,
           codeLen := Table.zero 8, codeBits := Table.zero 256,
           tree := Config.freeTree s.free, free := s.free + 1 }

/-- 43_encoder.md R236, 44_decoder.md R266: the result registers of ENCODE and DECODE. -/
def State.withResults (s : State) (outLen payloadBits : Nat) (pad : BitVec 3) : State :=
  { s with outLen := BitVec.ofNat 32 outLen, payloadBits := BitVec.ofNat 32 payloadBits, pad := pad }

/-- 60_exceptions.md R321: `havoc(OUT)`, drawing one free value for each byte of OUT. -/
def State.havocOut (s : State) : State :=
  { s with outBuf := Memory.havoc s.cfg.outCap s.free, free := s.free + s.cfg.outCap }

/-- 43_encoder.md R237, 44_decoder.md R267: an error of ENCODE or DECODE zeroes the result registers and havocs OUT. -/
def codecError (e : Err) (s : State) : Ended := raiseErr e ((s.withResults 0 0 0#3).havocOut)

/-- R95: `OUT[0 .. n-1] <- bs`, and the rest of OUT unchanged. -/
def State.writeOut (s : State) (bs : List Byte) : State := { s with outBuf := s.outBuf.writeList 0 bs }

/-- 70_reset_and_hazards.md R350, R351: the reset input. The parameters, the host's own fields and the draw counter
are not CORE's state and stay (log 2, log 15). -/
def State.resetInput (s : State) : State :=
  { State.resetOf s.cfg with free := s.free, moves := s.moves, lastRead := s.lastRead }

end Sys2Proof.Machine
end

