-- ==== Sys2Proof/Machine/Flags.lean ====
section
/-! DEFINITION. STATUS, ERR and IRQ (10_state.md R44, R65; 60_exceptions.md R325). No command has another flag result. -/

namespace Sys2Proof.Machine

/-- R44: ERR reads as 1 exactly when ERR_CODE is not 0. -/
def State.err (s : State) : Bool := s.errCode != 0#8

/-- R44: the STATUS word from its bits; bits [31:5] read as 0. -/
def statusWord (busy done err treeValid codesValid : Bool) : Word :=
  (0#27 ++ BitVec.ofBool codesValid ++ BitVec.ofBool treeValid ++ BitVec.ofBool err ++ BitVec.ofBool done ++
    BitVec.ofBool busy : BitVec 32)

/-- R44: the STATUS register. -/
def State.status (s : State) : Word := statusWord s.busy s.done s.err s.treeValid s.codesValid

/-- R42: the CTRL register; bits [31:1] read as 0. -/
def State.ctrl (s : State) : Word := zext32 (BitVec.ofBool s.irqEn)

/-- R65, R325: the IRQ output, a level. -/
def State.irq (s : State) : Bool := s.done && s.irqEn

/-- R44: a STATUS write clears DONE when bit 1 of the value is 1, and does nothing else. -/
def State.writeStatus (s : State) (v : Word) : State :=
  if v.getLsbD 1 then { s with done := false } else s

/-- R42: a CTRL write stores bit 0 into IRQ_EN and does nothing else. -/
def State.writeCtrl (s : State) (v : Word) : State := { s with irqEn := v.getLsbD 0 }

end Sys2Proof.Machine
end

