-- ==== Sys2Proof/Machine/Bus.lean ====
section
/-! DEFINITION. The host bus: the window map, reads and writes (20_memory.md R80 to R99; 10_state.md R40 to R54). -/

namespace Sys2Proof.Machine

/-- The registers of 10_state.md R40. -/
inductive Reg where
  | id | ctrl | cmd | status | errCode | inLen | outLen | nsym | maxLen | payloadBits | pad | inCap | outCap
  deriving DecidableEq, Repr

/-- What lies at a window offset (R82). -/
inductive Loc where
  /-- A register (10_state.md R40). -/
  | reg (r : Reg)
  /-- FREQ[x]. -/
  | freq (x : Sym)
  /-- CODE_LEN[x]. -/
  | codeLen (x : Sym)
  /-- Word j of CODE_BITS[x]. -/
  | codeBits (x : Sym) (j : Nat)
  /-- Word k of the IN window. -/
  | inWord (k : Nat)
  /-- Word k of the OUT window. -/
  | outWord (k : Nat)
  /-- Reserved or unmapped: reads as 0, ignores writes (10_state.md R54). -/
  | reserved
  deriving DecidableEq, Repr

/-- 10_state.md R40: the register of word number `n`, at offset `4n`. -/
def regAt : Nat → Option Reg
  | 0 => some .id
  | 1 => some .ctrl
  | 2 => some .cmd
  | 3 => some .status
  | 4 => some .errCode
  | 5 => some .inLen
  | 6 => some .outLen
  | 7 => some .nsym
  | 8 => some .maxLen
  | 9 => some .payloadBits
  | 10 => some .pad
  | 11 => some .inCap
  | 12 => some .outCap
  | _ => none

/-- R82, R83: what lies at a window offset; bits [1:0] of the offset are ignored. -/
def locate (off : Nat) : Loc :=
  let n := off / 4
  if n < 0x100 then
    match regAt n with
    | some r => .reg r
    | none => .reserved
  else if n < 0x200 then .freq (BitVec.ofNat 8 (n - 0x100))
  else if n < 0x300 then .codeLen (BitVec.ofNat 8 (n - 0x200))
  else if n < 0x800 then .reserved
  else if n < 0x1000 then .codeBits (BitVec.ofNat 8 ((n - 0x800) / 8)) ((n - 0x800) % 8)
  else if n < 0x400000 then .reserved
  else if n < 0x800000 then .inWord (n - 0x400000)
  else if n < 0xC00000 then .outWord (n - 0x800000)
  else .reserved

/-- R81: the window offset of a host address, if the address is CORE's. -/
def windowOffset (c : Config) (addr : Nat) : Option Nat :=
  if c.base ≤ addr ∧ addr < c.base + Config.window then some (addr - c.base) else none

/-- 10_state.md R41 to R53: a register's value on the bus. CMD reads as 0. -/
def regValue (s : State) : Reg → Word
  | .id => Config.idWord
  | .ctrl => s.ctrl
  | .cmd => 0#32
  | .status => s.status
  | .errCode => zext32 s.errCode
  | .inLen => s.inLen
  | .outLen => s.outLen
  | .nsym => s.nsym
  | .maxLen => s.maxLen
  | .payloadBits => s.payloadBits
  | .pad => zext32 s.pad
  | .inCap => BitVec.ofNat 32 s.cfg.inCap
  | .outCap => BitVec.ofNat 32 s.cfg.outCap

/-- R84, R86, R87, R90, R91: the word at a location, and the draw counter after the read. -/
def locValue (s : State) : Loc → Word × Nat
  | .reg r => (regValue s r, s.free)
  | .freq x => (s.freq.get x, s.free)
  | .codeLen x => (zext32 (s.codeLen.get x), s.free)
  | .codeBits x j => ((s.codeBits.get x).extractLsb' (32 * j) 32, s.free)
  | .inWord k => s.inBuf.readWord s.cfg.inCap k s.free
  | .outWord k => s.outBuf.readWord s.cfg.outCap k s.free
  | .reserved => (0#32, s.free)

/-- R89: locations COUNT writes. -/
def countWrites : Loc → Bool
  | .freq _ => true
  | _ => false

/-- R89: locations BUILD_TREE writes, STATUS apart. -/
def treeWrites : Loc → Bool
  | .codeLen _ | .codeBits _ _ | .reg .nsym | .reg .maxLen => true
  | _ => false

/-- R89: locations GEN_CODES writes, STATUS apart. -/
def codesWrites : Loc → Bool
  | .codeLen _ | .codeBits _ _ | .reg .maxLen => true
  | _ => false

/-- R89: locations ENCODE and DECODE write; a word of the OUT window is state when it holds a byte below OUT_CAP (log 10). -/
def codecWrites (outCap : Nat) : Loc → Bool
  | .outWord k => decide (4 * k < outCap)
  | .reg .outLen | .reg .payloadBits | .reg .pad => true
  | _ => false

/-- R89's table: the locations whose reads are arbitrary while command `i` runs. -/
def instrWrites (outCap : Nat) : Instr → Loc → Bool
  | .count, l => countWrites l
  | .buildTree, l => treeWrites l
  | .genCodes, l => codesWrites l
  | .buildCodec, l => countWrites l || treeWrites l || codesWrites l
  | .encode, l => codecWrites outCap l
  | .decode, l => codecWrites outCap l

/-- R89: STATUS.TREE_VALID reads as arbitrary while command `i` runs. -/
def writesTreeValid : Instr → Bool
  | .count => false
  | .buildTree => true
  | .genCodes => false
  | .buildCodec => true
  | .encode => false
  | .decode => false

/-- R89: STATUS.CODES_VALID reads as arbitrary while command `i` runs. -/
def writesCodesValid : Instr → Bool
  | .count => false
  | .buildTree => true
  | .genCodes => true
  | .buildCodec => true
  | .encode => false
  | .decode => false

/-- R89: the STATUS word while command `i` runs; the bits it writes are bits 3 and 4 of the drawn word `r`. -/
def busyStatus (s : State) (i : Instr) (r : Word) : Word :=
  statusWord s.busy s.done s.err
    (if writesTreeValid i then r.getLsbD 3 else s.treeValid)
    (if writesCodesValid i then r.getLsbD 4 else s.codesValid)

/-- R89: a read while command `i` runs. What the command writes reads as a free value, and the rest per R84. -/
def busyValue (s : State) (i : Instr) (l : Loc) : Word × Nat :=
  if l = .reg .status ∧ (writesTreeValid i || writesCodesValid i) then
    (busyStatus s i (Config.freeWord s.free), s.free + 1)
  else if instrWrites s.cfg.outCap i l then (Config.freeWord s.free, s.free + 1)
  else locValue s l

/-- R84, R89: `BusRead(off)`, and the draw counter after it. An illegal command writes nothing, so its reads are exact. -/
def busRead (s : State) (off : Nat) : Word × Nat :=
  if s.busy then
    match decode s.curCmd with
    | .ok i => busyValue s i (locate off)
    | .error _ => locValue s (locate off)
  else locValue s (locate off)

/-- R85, R86, R90: a write at a location while BUSY = 0. -/
def idleWrite (s : State) (v : Word) : Loc → State
  | .reg .ctrl => s.writeCtrl v
  | .reg .cmd => s.issue v
  | .reg .status => s.writeStatus v
  | .reg .inLen => { s with inLen := v }
  | .freq x => { s with freq := s.freq.put x v }
  | .inWord k => { s with inBuf := s.inBuf.writeWord s.cfg.inCap k v }
  | _ => s

/-- R88: a write at a location while BUSY = 1: only CTRL and STATUS. -/
def busyWrite (s : State) (v : Word) : Loc → State
  | .reg .ctrl => s.writeCtrl v
  | .reg .status => s.writeStatus v
  | _ => s

/-- R85, R88: `BusWrite(off, v)`. -/
def busWrite (s : State) (off : Nat) (v : Word) : State :=
  if s.busy then busyWrite s v (locate off) else idleWrite s v (locate off)

/-- R99: a read changes no state of CORE; the word goes to the host (log 15) and the draw counter moves. -/
def hostRead (s : State) (off : Nat) : State :=
  { s with lastRead := some (busRead s off).1, free := (busRead s off).2 }

end Sys2Proof.Machine
end

