-- ==== Sys2Proof/Machine/CodeTable.lean ====
section
/-! DEFINITION. GEN_CODES, the Code Table Generator (42_code_table.md). -/

namespace Sys2Proof.Machine

/-- R200, R201: `walk(k, path)`: the leaves at or below node k, each with its symbol and its path from the root. The
first argument bounds the depth. A missing record, which no run reaches, has no leaves (log 13). -/
def walk (nodes : List Node) : (depth k : Nat) → (path : Bits) → List (Sym × Bits)
  | 0, _, _ => []
  | d + 1, k, path =>
    match nodes[k]? with
    | none => []
    | some (.leaf x _) => [(x, path)]
    | some (.internal _ l r) => walk nodes d l (path ++ [false]) ++ walk nodes d r (path ++ [true])

/-- R60: the index of the root, 2·NSYM − 2. -/
def rootIndex (nsym : Nat) : Nat := 2 * nsym - 2

/-- R201, R202: each symbol of the tree with its codeword; a single leaf gets "0". -/
def treeCodes (nodes : List Node) (nsym : Nat) : List (Sym × Bits) :=
  match nodes[rootIndex nsym]? with
  | some (.leaf x _) => [(x, [false])]
  | _ => walk nodes nodes.length (rootIndex nsym) []

/-- R200: `len`, 0 for a symbol without a leaf. -/
def lenTable (codes : List (Sym × Bits)) : Table 8 :=
  codes.foldl (fun t e => t.put e.1 (BitVec.ofNat 8 e.2.length)) (Table.zero 8)

/-- R200: `bits`, the right-aligned `val(path)`, 0 for a symbol without a leaf. -/
def bitsTable (codes : List (Sym × Bits)) : Table 256 :=
  codes.foldl (fun t e => t.put e.1 (BitVec.ofNat 256 (val e.2))) (Table.zero 256)

/-- R204: the greatest CODE_LEN. -/
def maxLenOf (len : Table 8) : Nat := (symbols.map fun x => (len.get x).toNat).foldl max 0

/-- R200: the tables, MAX_LEN and CODES_VALID on success. -/
def State.withCodes (s : State) (codes : List (Sym × Bits)) : State :=
  { s with codeLen := lenTable codes, codeBits := bitsTable codes,
           maxLen := BitVec.ofNat 32 (maxLenOf (lenTable codes)), codesValid := true }

/-- R200, R206: the body of GEN_CODES. -/
def genCodesBody (s : State) : Ended :=
  if s.treeValid then finished (s.withCodes (treeCodes s.tree s.nsym.toNat))
  else raiseErr .noTree s

/-- GEN_CODES's completion step (R200; 60_exceptions.md R319). -/
def execGenCodes (s : State) : Host.Outcome State Fault Refusal := .next (genCodesBody s).complete

end Sys2Proof.Machine
end

