-- ==== Sys2Proof/Machine/Operands.lean ====
section
/-! DEFINITION. The commands' implicit operands (30_encoding.md R122): the IN bytes, the codebook and its reverse. -/

namespace Sys2Proof.Machine

/-- 60_exceptions.md R311: IN_LEN > IN_CAP, IN_LEN as an unsigned integer (00_scope.md R16). -/
def State.lengthOutOfRange (s : State) : Bool := decide (s.cfg.inCap < s.inLen.toNat)

/-- 20_memory.md R93, R94: the bytes IN[0 .. IN_LEN-1] as the engine reads them, and the counter after the reads. -/
def State.readInput (s : State) : List Byte × Nat := s.inBuf.readList s.inLen.toNat 0 s.free

/-- The bytes a command reads from IN. -/
def State.input (s : State) : List Byte := s.readInput.1

/-- The state after a command has read IN: only the draw counter moves. -/
def State.afterInput (s : State) : State := { s with free := s.readInput.2 }

/-- 10_state.md R58: `code(x)`, the empty string when x has no codeword. -/
def codeOf (len : Table 8) (bits : Table 256) (x : Sym) : Bits :=
  bitsOf (len.get x).toNat ((bits.get x).toNat % 2 ^ (len.get x).toNat)

/-- R58: the codebook, as the list of its symbols and codewords in ascending symbol order. -/
def codebook (len : Table 8) (bits : Table 256) : List (Sym × Bits) :=
  (symbols.filter fun x => len.get x != 0#8).map fun x => (x, codeOf len bits x)

/-- R59: `rcb(c)`; where two symbols shared a codeword, which no run reaches, the lower one (log 12). -/
def rcb (book : List (Sym × Bits)) (c : Bits) : Option Sym :=
  (book.find? fun e => e.2 == c).map Prod.fst

/-- The codeword of x in a state's tables. -/
def State.code (s : State) (x : Sym) : Bits := codeOf s.codeLen s.codeBits x

/-- The codebook in a state's tables. -/
def State.book (s : State) : List (Sym × Bits) := codebook s.codeLen s.codeBits

end Sys2Proof.Machine
end

