-- ==== Sys2Proof/Machine/Count.lean ====
section
/-! DEFINITION. COUNT, the Frequency Counter (40_frequency_counter.md). -/

namespace Sys2Proof.Machine

/-- R150: `cnt[b] <- cnt[b] + 1`. -/
def bump (cnt : Table 32) (b : Sym) : Table 32 := cnt.put b (cnt.get b + 1#32)

/-- R150, R151: 256 counters from 0, one increment for each byte. -/
def countBytes (bs : List Byte) : Table 32 := bs.foldl bump (Table.zero 32)

/-- R150: the body of COUNT. -/
def countBody (s : State) : Ended :=
  if s.lengthOutOfRange then raiseErr .lengthRange s
  else finished { s.afterInput with freq := countBytes s.input }

/-- COUNT's completion step (R150; 60_exceptions.md R319). -/
def execCount (s : State) : Host.Outcome State Fault Refusal := .next (countBody s).complete

end Sys2Proof.Machine
end

