-- ==== Sys2Proof/Machine/TreeBuilder.lean ====
section
/-! DEFINITION. BUILD_TREE, the Tree Builder (41_tree_builder.md). -/

namespace Sys2Proof.Machine

/-- R172: the symbols with FREQ[s] ≠ 0, in ascending order. -/
def present (freq : Table 32) : List Sym := symbols.filter fun x => freq.get x != 0#32

/-- R172: leaf k holds the k-th present symbol, its FREQ zero-extended to 40 bits. -/
def leaves (freq : Table 32) : List Node :=
  (present freq).map fun x => .leaf x ((freq.get x).setWidth 40)

/-- The weight of a node record (10_state.md R60). -/
def nodeWeight : Node → Weight
  | .leaf _ w => w
  | .internal w _ _ => w

/-- An entry of the priority queue: a node's weight and sequence number (R173). -/
structure QEntry where
  weight : Weight
  seq    : Nat
  deriving DecidableEq, Repr

/-- R173: x precedes y in the lexicographic order on (weight, seq), weights as unsigned integers (00_scope.md R16). -/
def QEntry.precedes (x y : QEntry) : Bool :=
  decide (x.weight.toNat < y.weight.toNat) || (x.weight == y.weight && decide (x.seq < y.seq))

/-- R173: `extract_min` of the queue whose entries are `x` and `q`: its least entry, and the rest. -/
def extractMin (x : QEntry) : List QEntry → QEntry × List QEntry
  | [] => (x, [])
  | y :: q =>
    if x.precedes y then
      let r := extractMin x q
      (r.1, y :: r.2)
    else
      let r := extractMin y q
      (r.1, x :: r.2)

/-- R170, R174: merges while the queue has two entries; the new node's sequence number is `nodes.length`. The first
argument bounds the merges. -/
def mergeLoop : Nat → List Node → List QEntry → List Node
  | 0, nodes, _ => nodes
  | _ + 1, nodes, [] => nodes
  | fuel + 1, nodes, x :: q =>
    let first := extractMin x q
    match first.2 with
    | [] => nodes
    | y :: q' =>
      let second := extractMin y q'
      let w := first.1.weight + second.1.weight
      mergeLoop fuel (nodes ++ [.internal w first.1.seq second.1.seq]) (second.2 ++ [⟨w, nodes.length⟩])

/-- R170: the queue of the leaves, seq = index. -/
def leafQueue (nodes : List Node) : List QEntry := nodes.zipIdx.map fun e => ⟨nodeWeight e.1, e.2⟩

/-- R170: the node records BUILD_TREE makes from FREQ: the leaves, then the internal nodes in order of creation. -/
def buildNodes (freq : Table 32) : List Node :=
  mergeLoop (leaves freq).length (leaves freq) (leafQueue (leaves freq))

/-- R170: TREE, NSYM and TREE_VALID on success. -/
def State.withTree (s : State) (n : Nat) (nodes : List Node) : State :=
  { s with tree := nodes, nsym := BitVec.ofNat 32 n, treeValid := true }

/-- R170, R171, R176: the body of BUILD_TREE. -/
def buildTreeBody (s : State) : Ended :=
  let s' := s.invalidate
  if (present s.freq).isEmpty then raiseErr .emptyInput s'
  else finished (s'.withTree (present s.freq).length (buildNodes s.freq))

/-- BUILD_TREE's completion step (R170; 60_exceptions.md R319). -/
def execBuildTree (s : State) : Host.Outcome State Fault Refusal := .next (buildTreeBody s).complete

end Sys2Proof.Machine
end

