-- ==== Sys2Proof/Machine/BuildCodec.lean ====
section
/-! DEFINITION. BUILD_CODEC and the illegal command (45_build_codec.md). -/

namespace Sys2Proof.Machine

/-- R290, R291: the three bodies in turn; the first error ends it. -/
def buildCodecBody (s : State) : Ended := ((countBody s).andThen buildTreeBody).andThen genCodesBody

/-- BUILD_CODEC's completion step (R290; 60_exceptions.md R319). -/
def execBuildCodec (s : State) : Host.Outcome State Fault Refusal := .next (buildCodecBody s).complete

/-- R295: an illegal command word raises ILLEGAL_COMMAND and writes nothing else. -/
def illegalBody (s : State) : Ended := raiseErr .illegalCommand s

/-- The completion step of an illegal command word (R295; 60_exceptions.md R319). -/
def execIllegal (s : State) : Host.Outcome State Fault Refusal := .next (illegalBody s).complete

end Sys2Proof.Machine
end

