-- ==== Sys2Proof/Machine/Decoder.lean ====
section
/-! DEFINITION. DECODE, the bitstream decoder (44_decoder.md). -/

namespace Sys2Proof.Machine

/-- R263: greedy matching from the candidate `cand`: the symbols emitted, and the candidate left at the end. -/
def greedy (book : List (Sym × Bits)) : Bits → (cand : Bits) → List Sym × Bits
  | [], cand => ([], cand)
  | c :: cs, cand =>
    match rcb book (cand ++ [c]) with
    | some x =>
      let r := greedy book cs []
      (x :: r.1, r.2)
    | none => greedy book cs (cand ++ [c])

/-- R261, R262: the padding length and the payload of a stream, or none when a header check fails. -/
def unpackStream : List Byte → Option (Nat × Bits)
  | [] => none
  | h :: body =>
    let p := h.toNat
    let bits := bytesToBits body
    if 7 < p then none
    else if bits.length < p then none
    else some (p, bits.take (bits.length - p))

/-- R266: the results of a successful DECODE. -/
def State.withSymbols (s : State) (out : List Sym) (payloadLen p : Nat) : State :=
  (s.writeOut out).withResults out.length payloadLen (BitVec.ofNat 3 p)

/-- R260, R264, R265: the body of DECODE once IN is read as the stream `ys`. -/
def decodeStream (s : State) (ys : List Byte) : Ended :=
  match unpackStream ys with
  | none => codecError .malformedStream s
  | some (p, payload) =>
    let r := greedy s.book payload []
    if !r.2.isEmpty then codecError .malformedStream s
    else if s.cfg.outCap < r.1.length then codecError .outputOverflow s
    else finished (s.withSymbols r.1 payload.length p)

/-- R260, R267: the body of DECODE. -/
def decodeBody (s : State) : Ended :=
  if s.lengthOutOfRange then codecError .lengthRange s
  else if s.inLen = 0#32 then codecError .malformedStream s
  else decodeStream s.afterInput s.input

/-- DECODE's completion step (R260; 60_exceptions.md R319). -/
def execDecode (s : State) : Host.Outcome State Fault Refusal := .next (decodeBody s).complete

end Sys2Proof.Machine
end

