-- ==== Sys2Proof/Machine/Encoder.lean ====
section
/-! DEFINITION. ENCODE, the bitstream encoder (43_encoder.md). -/

namespace Sys2Proof.Machine

/-- R231: some input byte has no codeword. -/
def hasUnknown (len : Table 8) (xs : List Sym) : Bool := xs.any fun x => len.get x == 0#8

/-- R232: the codewords of the input, concatenated in input order. -/
def payloadOf (len : Table 8) (bits : Table 256) (xs : List Sym) : Bits := xs.flatMap (codeOf len bits)

/-- R233: `p = (8 − L mod 8) mod 8`. -/
def padLen (L : Nat) : Nat := (8 - L % 8) % 8

/-- R230: `N = (L + p) / 8`. -/
def payloadBytes (L : Nat) : Nat := (L + padLen L) / 8

/-- R230: the padded payload. -/
def padded (payload : Bits) : Bits := payload ++ List.replicate (padLen payload.length) false

/-- R234, 30_encoding.md R130: the PackedStream of a payload: the header byte p, then the padded payload's bytes. -/
def packedStream (payload : Bits) : List Byte :=
  BitVec.ofNat 8 (padLen payload.length) :: bitsToBytes (payloadBytes payload.length) (padded payload)

/-- R234, R236: the results of a successful ENCODE. -/
def State.withStream (s : State) (payload : Bits) : State :=
  (s.writeOut (packedStream payload)).withResults (1 + payloadBytes payload.length) payload.length
    (BitVec.ofNat 3 (padLen payload.length))

/-- R230, R237: the body of ENCODE. -/
def encodeBody (s : State) : Ended :=
  if s.lengthOutOfRange then codecError .lengthRange s
  else if hasUnknown s.codeLen s.input then codecError .unknownSymbol s.afterInput
  else
    let payload := payloadOf s.codeLen s.codeBits s.input
    if s.cfg.outCap < 1 + payloadBytes payload.length then codecError .outputOverflow s.afterInput
    else finished (s.afterInput.withStream payload)

/-- ENCODE's completion step (R230; 60_exceptions.md R319). -/
def execEncode (s : State) : Host.Outcome State Fault Refusal := .next (encodeBody s).complete

end Sys2Proof.Machine
end

