-- ==== Sys2Proof/Machine/Engine.lean ====
section
/-! DEFINITION. The moves of the two agents (00_scope.md R8): the engine's completion step (60_exceptions.md R319), the
host's transactions (20_memory.md R84, R85) and the reset input (70_reset_and_hazards.md R350), and the setting up of a
command for the next step. -/

namespace Sys2Proof.Machine

/-- R319: the completion step of the word in CUR_CMD; an illegal word completes with ILLEGAL_COMMAND (R295). -/
def engineStep (s : State) : Host.Outcome State Fault Refusal :=
  match decode s.curCmd with
  | .ok i => exec i s
  | .error _ => execIllegal s

/-- The engine's turn: the completion step is enabled exactly while BUSY = 1 (R319); else nothing happens (R335). -/
def engineTurn (s : State) : Host.Outcome State Fault Refusal :=
  if s.busy then engineStep s else .next s

/-- One move of an agent. A host address outside the window is not CORE's (20_memory.md R81, log 9). -/
def takeMove (s : State) : Move → Host.Outcome State Fault Refusal
  | .read addr =>
    match windowOffset s.cfg addr with
    | some off => .next (hostRead s off)
    | none => .fault (.outsideWindow addr)
  | .write addr v =>
    match windowOffset s.cfg addr with
    | some off => .next (busWrite s off v)
    | none => .fault (.outsideWindow addr)
  | .reset => .next s.resetInput
  | .engine => engineTurn s

/-- The moves that make the engine's turn the very next one: none are pending, or the engine's comes first. -/
def engineFirst : List Move → List Move
  | [] => []
  | m :: ms => .engine :: m :: ms

/-- The command word `v` issued (R318) and the engine next to move (log 8). -/
def State.withCommand (s : State) (v : Word) : State :=
  { s.issue v with moves := engineFirst s.moves }

end Sys2Proof.Machine
end

