-- ==== Sys2Proof/Machine/Step.lean ====
section
/-! DEFINITION. One step of CORE (20_memory.md R102): the first pending move, or the engine's turn when none is pending. -/

namespace Sys2Proof.Machine

/-- One step. With no move pending the engine moves: a running command completes (60_exceptions.md R319) and an idle
CORE stays as it is (R335). -/
def step (s : State) : Host.Outcome State Fault Refusal :=
  match s.moves with
  | [] => engineTurn s
  | m :: ms => takeMove { s with moves := ms } m

/-- `s` with the command word whose low `nbits` bits are `w` issued and the engine next to move, so that the very next
step is its completion step (log 8). -/
def State.withFetchWord (s : State) (nbits w : Nat) : State := s.withCommand (BitVec.ofNat 32 (w % 2 ^ nbits))

end Sys2Proof.Machine
end

