-- ==== Sys2Proof/Safety.lean ====
section
/-! DEFINITION. What a reachable state of CORE looks like: the shape of TREE (10_state.md R60), the codebook's two cases
(R58), and the invariant every step keeps. -/

namespace Sys2Proof.Machine

/-! ### The tree -/

/-- The weight of node record k, 0 where there is none. -/
def weightAt (t : List Node) (k : Nat) : Nat :=
  match t[k]? with
  | some x => (nodeWeight x).toNat
  | none => 0

/-- Record p is an internal node with child k. -/
def childOf (t : List Node) (k p : Nat) : Prop :=
  ∃ w l r, t[p]? = some (Node.internal w l r) ∧ (k = l ∨ k = r)

/-- R60: `t` is a tree over n leaves: records 0 to n−1 are leaves, in ascending symbol order (41_tree_builder.md R172);
records n to 2n−2 are internal, each with two different earlier records as children and the sum of their weights; each
record but the root, record 2n−2, has exactly one parent. -/
structure TreeOk (n : Nat) (t : List Node) : Prop where
  pos      : 1 ≤ n
  atMost   : n ≤ 256
  length   : t.length = 2 * n - 1
  leaf     : ∀ k, k < n → ∃ x w, t[k]? = some (Node.leaf x w)
  ordered  : ∀ (i j : Nat) x y v w, i < j → t[i]? = some (Node.leaf x v) → t[j]? = some (Node.leaf y w) → x.toNat < y.toNat
  internal : ∀ k : Nat, n ≤ k → k < 2 * n - 1 → ∃ w l r, t[k]? = some (Node.internal w l r) ∧ l < k ∧ r < k ∧ l ≠ r ∧
               w.toNat = weightAt t l + weightAt t r
  parent   : ∀ k, k < 2 * n - 2 → ∃ p, childOf t k p ∧ ∀ q, childOf t k q → q = p

/-- The node a bit string leads to from record k: left at 0, right at 1 (42_code_table.md R201). -/
def follow (t : List Node) : (k : Nat) → Bits → Option Node
  | k, [] => t[k]?
  | k, b :: bs =>
    match t[k]? with
    | some (.internal _ l r) => follow t (if b then r else l) bs
    | _ => none

/-- Node a precedes node b in the order of 41_tree_builder.md R173: by weight, then by sequence number. -/
def precedesAt (t : List Node) (a b : Nat) : Prop :=
  weightAt t a < weightAt t b ∨ (weightAt t a = weightAt t b ∧ a < b)

/-- R174: node k is in the priority queue when node j is about to be created: it exists and no merge has taken it. -/
def queuedAt (t : List Node) (j k : Nat) : Prop := k < j ∧ ∀ p, p < j → ¬ childOf t k p

/-- R174: node j is the merge of a, the least node of the queue, and b, the least node of what remains. -/
def mergesLeast (t : List Node) (j a b : Nat) : Prop :=
  queuedAt t j a ∧ (∀ k, queuedAt t j k → k ≠ a → precedesAt t a k) ∧
  queuedAt t j b ∧ b ≠ a ∧ (∀ k, queuedAt t j k → k ≠ a → k ≠ b → precedesAt t b k)

/-- A binary tree with a symbol at each leaf, to compare TREE with (41_tree_builder.md R180). -/
inductive BinTree where
  | leaf (x : Sym)
  | node (l r : BinTree)
  deriving DecidableEq, Repr

/-- The leaves of a binary tree, left to right. -/
def BinTree.syms : BinTree → List Sym
  | .leaf x => [x]
  | .node l r => l.syms ++ r.syms

/-- The weighted path length Σ freq(leaf) · depth(leaf), the root of the tree standing at depth d (R180). -/
def BinTree.cost (freq : Table 32) : (d : Nat) → BinTree → Nat
  | d, .leaf x => (freq.get x).toNat * d
  | d, .node l r => l.cost freq (d + 1) + r.cost freq (d + 1)

/-- Σ over all symbols. -/
def sumOver (f : Sym → Nat) : Nat := (symbols.map f).sum

/-- Σ_s FREQ[s] · CODE_LEN[s] (42_code_table.md R208). -/
def weightedLength (freq : Table 32) (len : Table 8) : Nat :=
  sumOver fun x => (freq.get x).toNat * (len.get x).toNat

/-! ### The codebook -/

/-- R12: `a` is a prefix of `b`. -/
abbrev isPrefix (a b : Bits) : Prop := a <+: b

/-- Symbol x has a codeword (10_state.md R56). -/
def State.coded (s : State) (x : Sym) : Prop := s.codeLen.get x ≠ 0#8

/-- R58, case (a): the tables are empty and CODES_VALID = 0. -/
def State.codebookEmpty (s : State) : Prop :=
  (∀ x, s.codeLen.get x = 0#8) ∧ (∀ x, s.codeBits.get x = 0#256) ∧ s.codesValid = false

/-- R58: no codeword is a prefix of another symbol's. -/
def State.prefixFree (s : State) : Prop :=
  ∀ x y, s.coded x → s.coded y → x ≠ y → ¬ isPrefix (s.code x) (s.code y)

/-- R58, case (b): at least one codeword, codewords distinct and prefix-free, CODE_BITS 0 where there is no codeword and
above the codeword's bits (R57), and CODES_VALID = 1. -/
def State.codebookBuilt (s : State) : Prop :=
  (∃ x, s.coded x) ∧ s.codesValid = true ∧
  (∀ x y, s.coded x → s.coded y → x ≠ y → s.code x ≠ s.code y) ∧ s.prefixFree ∧
  (∀ x, (s.codeBits.get x).toNat < 2 ^ (s.codeLen.get x).toNat)

/-! ### What a command leaves unchanged -/

/-- No command writes IN, IN_LEN or CTRL, the parameters, or the host's side (10_state.md R46, R63). -/
def sameHostSide (s t : State) : Prop :=
  (∀ a, t.inBuf.read? a = s.inBuf.read? a) ∧ t.inLen = s.inLen ∧ t.irqEn = s.irqEn ∧ t.cfg = s.cfg ∧
  t.moves = s.moves ∧ t.lastRead = s.lastRead

/-- FREQ is unchanged. -/
def sameFreq (s t : State) : Prop := t.freq = s.freq

/-- TREE, TREE_VALID and NSYM are unchanged. -/
def sameTree (s t : State) : Prop := t.tree = s.tree ∧ t.treeValid = s.treeValid ∧ t.nsym = s.nsym

/-- The codebook tables, MAX_LEN and CODES_VALID are unchanged. -/
def sameCodes (s t : State) : Prop :=
  t.codeLen = s.codeLen ∧ t.codeBits = s.codeBits ∧ t.maxLen = s.maxLen ∧ t.codesValid = s.codesValid

/-- OUT_LEN, PAYLOAD_BITS, PAD and every byte of OUT are unchanged. -/
def sameOutput (s t : State) : Prop :=
  t.outLen = s.outLen ∧ t.payloadBits = s.payloadBits ∧ t.pad = s.pad ∧
  ∀ a, t.outBuf.read? a = s.outBuf.read? a

/-- ENCODE and DECODE touch nothing but OUT and their result registers (43_encoder.md R240, 44_decoder.md R273). -/
def sameButOutput (s t : State) : Prop := sameHostSide s t ∧ sameFreq s t ∧ sameTree s t ∧ sameCodes s t

/-- The completion bookkeeping of 60_exceptions.md R319: BUSY = 0, DONE = 1 and ERR_CODE the result code. -/
def completedWith (code : BitVec 8) (t : State) : Prop := t.busy = false ∧ t.done = true ∧ t.errCode = code

/-- 43_encoder.md R237, 44_decoder.md R267: the effects of an ENCODE or DECODE error with this code. Every byte of OUT
holds a value, which no claim may name (60_exceptions.md R321). -/
def codecFailed (code : BitVec 8) (s t : State) : Prop :=
  completedWith code t ∧ t.outLen = 0#32 ∧ t.payloadBits = 0#32 ∧ t.pad = 0#3 ∧
  (∀ a, a < s.cfg.outCap → (t.outBuf.read? a).isSome = true) ∧ sameButOutput s t

/-- 41_tree_builder.md R171: what `invalidate()` leaves. -/
def invalidated (t : State) : Prop :=
  t.treeValid = false ∧ t.codesValid = false ∧ t.nsym = 0#32 ∧ t.maxLen = 0#32 ∧
  (∀ x, t.codeLen.get x = 0#8) ∧ (∀ x, t.codeBits.get x = 0#256)

/-- 70_reset_and_hazards.md R350: the reset values the spec gives, with no byte of IN or OUT written. TREE and CUR_CMD are
unspecified and not named. -/
def resetValues (t : State) : Prop :=
  t.busy = false ∧ t.done = false ∧ t.irqEn = false ∧ t.errCode = 0#8 ∧ t.treeValid = false ∧ t.codesValid = false ∧
  t.inLen = 0#32 ∧ t.outLen = 0#32 ∧ t.nsym = 0#32 ∧ t.maxLen = 0#32 ∧ t.payloadBits = 0#32 ∧ t.pad = 0#3 ∧
  (∀ x, t.freq.get x = 0#32) ∧ (∀ x, t.codeLen.get x = 0#8) ∧ (∀ x, t.codeBits.get x = 0#256) ∧
  (∀ a, t.inBuf.read? a = none) ∧ (∀ a, t.outBuf.read? a = none)

/-- The input bytes a command reads were all written by the host (70_reset_and_hazards.md R355). -/
def State.inputWritten (s : State) : Prop := ∀ a, a < s.inLen.toNat → (s.inBuf.read? a).isSome = true

/-- IN_LEN ≤ IN_CAP (60_exceptions.md R311). -/
def State.lengthOk (s : State) : Prop := s.inLen.toNat ≤ s.cfg.inCap

/-- Some FREQ entry is not 0 (41_tree_builder.md R176). -/
def State.hasLeaf (s : State) : Prop := ∃ x, s.freq.get x ≠ 0#32

/-! ### The invariant -/

/-- TREE_VALID = 1 exactly with a tree of NSYM leaves (R60, R61); without one NSYM is 0 and there is no codebook. -/
def State.treeInv (s : State) : Prop :=
  (s.treeValid = true → TreeOk s.nsym.toNat s.tree) ∧
  (s.treeValid = false → s.nsym = 0#32 ∧ s.codesValid = false)

/-- The tables and MAX_LEN are those of TREE when CODES_VALID = 1 (42_code_table.md R200), and zero otherwise (R58). -/
def State.codesInv (s : State) : Prop :=
  let codes := if s.codesValid then treeCodes s.tree s.nsym.toNat else []
  s.codeLen = lenTable codes ∧ s.codeBits = bitsTable codes ∧
    s.maxLen = BitVec.ofNat 32 (maxLenOf (lenTable codes))

/-- The buffers are in canonical form and hold no byte at or past their capacities (R63, R64). -/
def State.buffersInv (s : State) : Prop :=
  s.inBuf.wf ∧ s.inBuf.below s.cfg.inCap ∧ s.outBuf.wf ∧ s.outBuf.below s.cfg.outCap

/-- OUT_LEN bytes of OUT are within the capacity and written (R47), and PAYLOAD_BITS and PAD together fill whole bytes
(R50, R51, 30_encoding.md R133). -/
def State.resultsInv (s : State) : Prop :=
  s.outLen.toNat ≤ s.cfg.outCap ∧ (∀ a, a < s.outLen.toNat → (s.outBuf.read? a).isSome = true) ∧
  (s.payloadBits.toNat + s.pad.toNat) % 8 = 0

/-- While a command runs DONE = 0 and ERR_CODE = 0 (60_exceptions.md R318); ERR_CODE is at most 7 (R310). -/
def State.lifecycleInv (s : State) : Prop :=
  (s.busy = true → s.done = false ∧ s.errCode = 0#8) ∧ s.errCode.toNat ≤ 7

/-- The invariant: the parameters are legal (00_scope.md R10) and each part of the state is as its rules say. -/
structure State.Inv (s : State) : Prop where
  params    : s.cfg.wf = true
  buffers   : s.buffersInv
  lifecycle : s.lifecycleInv
  results   : s.resultsInv
  tree      : s.treeInv
  codes     : s.codesInv

end Sys2Proof.Machine
end

