-- ==== Sys2Proof/Certificates/Slice0/Obligations.lean ====
section
/-! DEFINITION. The statements about CORE, from the numbered rules of spec/. A statement about a next state names the
fields the rule writes and, as its frame, the ones it leaves; CUR_CMD and the draw counter are left open, since CUR_CMD
is unspecified while idle (10_state.md R32) and the counter is the model's own (log 2, log 11). -/

open Sys2Proof Sys2Proof.Machine

/-! ### Command words -/

/-- 30_encoding.md R121: the opcode map; each row matches its full 32-bit word and nothing else. -/
def Obligations.OpcodeMapWordsDecode : Prop :=
  ∀ v : Word,
    (Sys2Proof.decode v = .ok .count ↔ v = 0x00000001#32) ∧ (Sys2Proof.decode v = .ok .buildTree ↔ v = 0x00000002#32) ∧
    (Sys2Proof.decode v = .ok .genCodes ↔ v = 0x00000003#32) ∧ (Sys2Proof.decode v = .ok .buildCodec ↔ v = 0x00000004#32) ∧
    (Sys2Proof.decode v = .ok .encode ↔ v = 0x00000005#32) ∧ (Sys2Proof.decode v = .ok .decode ↔ v = 0x00000006#32)

/-- 30_encoding.md R120: a word is legal exactly when bits [31:8] are 0 and bits [7:0] are 1 to 6, and exactly the legal
words decode. -/
def Obligations.ExactlyLegalWordsDecode : Prop :=
  ∀ v : Word, (∃ i, Sys2Proof.decode v = .ok i) ↔
    (v.extractLsb' 8 24 = 0#24 ∧ v.extractLsb' 0 8 ∈ [0x01#8, 0x02#8, 0x03#8, 0x04#8, 0x05#8, 0x06#8])

/-- 30_encoding.md section 1: decoding and encoding agree both ways, over every word and every command. -/
def Obligations.DecodeAnswersExactlyTheEncodedCommand : Prop :=
  ∀ (v : Word) (i : Instr), Sys2Proof.decode v = .ok i ↔ v = Sys2Proof.encode i

/-! ### Reset -/

/-- 70_reset_and_hazards.md R350: what reset leaves, before anything has run, for any parameters, and whenever the reset
input is asserted. TREE and CUR_CMD are not named: unspecified. -/
def Obligations.ResetLeavesTheSpecifiedValues : Prop :=
  (∀ c : Config, resetValues (State.resetOf c)) ∧ resetValues State.reset ∧
  (∀ (s : State) (ms : List Move), s.moves = .reset :: ms →
    ∃ t, step s = .next t ∧ resetValues t ∧ t.cfg = s.cfg ∧ t.moves = ms)

/-- 70_reset_and_hazards.md R351: a reset asserted while BUSY = 1 leaves the reset values; no completion step of the
abandoned command follows, at the engine's next turn or any later one, so DONE stays 0. -/
def Obligations.ResetInputAbandonsTheCommand : Prop :=
  ∀ (s : State) (ms : List Move), s.busy = true → s.moves = .reset :: ms →
    ∃ t, step s = .next t ∧ resetValues t ∧ t.moves = ms ∧
      (ms = [] → step t = .next t) ∧
      (∀ ns, ms = .engine :: ns → ∃ u, step t = .next u ∧ resetValues u ∧ u.moves = ns)

/-- The invariant holds after reset, for any legal parameters; with `StepKeepsTheInvariant` it holds of every run. -/
def Obligations.ResetMeetsTheInvariant : Prop :=
  (∀ c : Config, c.wf = true → (State.resetOf c).Inv) ∧ State.reset.Inv

/-! ### The host bus -/

/-- 60_exceptions.md R318: the issue step, at each of the four byte offsets of CMD (20_memory.md R83), IRQ falling to 0;
and a CMD write while BUSY = 1 is ignored. -/
def Obligations.CmdWriteIssuesTheCommand : Prop :=
  ∀ (s : State) (ms : List Move) (v : Word) (j : Nat), j < 4 →
    s.moves = .write (s.cfg.base + (0x008 + j)) v :: ms →
    (s.busy = false → ∃ t, step s = .next t ∧
      t = { s with moves := ms, busy := true, done := false, errCode := 0#8, curCmd := v } ∧ t.irq = false) ∧
    (s.busy = true → step s = .next { s with moves := ms })

/-- 20_memory.md R88: while BUSY = 1 a write anywhere in the window but to CTRL and STATUS leaves no trace, and those two
have their effect. -/
def Obligations.WritesWhileBusy : Prop :=
  ∀ (s : State) (ms : List Move) (off : Nat) (v : Word), off < 0x03000000 →
    s.moves = .write (s.cfg.base + off) v :: ms → s.busy = true →
    (off / 4 = 1 → step s = .next { s with moves := ms, irqEn := v.getLsbD 0 }) ∧
    (off / 4 = 3 → step s = .next { s with moves := ms, done := if v.getLsbD 1 then false else s.done }) ∧
    (off / 4 ≠ 1 → off / 4 ≠ 3 → step s = .next { s with moves := ms })

/-- 10_state.md R42, R44, R46: idle writes to CTRL, STATUS and IN_LEN; IN_LEN stores any value. -/
def Obligations.RegisterWritesWhileIdle : Prop :=
  ∀ (s : State) (ms : List Move) (v : Word) (j : Nat), j < 4 → s.busy = false →
    (s.moves = .write (s.cfg.base + (0x004 + j)) v :: ms →
      step s = .next { s with moves := ms, irqEn := v.getLsbD 0 }) ∧
    (s.moves = .write (s.cfg.base + (0x00C + j)) v :: ms →
      step s = .next { s with moves := ms, done := if v.getLsbD 1 then false else s.done }) ∧
    (s.moves = .write (s.cfg.base + (0x014 + j)) v :: ms → step s = .next { s with moves := ms, inLen := v })

/-- 20_memory.md R90: reads and writes of FREQ entries, BUSY = 0. Any value is legal. -/
def Obligations.FreqEntriesReadAndWrite : Prop :=
  ∀ (s : State) (ms : List Move) (x : Sym) (v : Word) (j : Nat), j < 4 → s.busy = false →
    (s.moves = .read (s.cfg.base + (0x400 + 4 * x.toNat + j)) :: ms →
      step s = .next { s with moves := ms, lastRead := some (s.freq.get x) }) ∧
    (s.moves = .write (s.cfg.base + (0x400 + 4 * x.toNat + j)) v :: ms →
      ∃ t, step s = .next t ∧ t = { s with moves := ms, freq := t.freq } ∧ t.freq.get x = v ∧
        ∀ y, y ≠ x → t.freq.get y = s.freq.get y)

/-- 20_memory.md R91: reads of CODE_LEN and CODE_BITS, BUSY = 0; writes to both are ignored, busy or idle. -/
def Obligations.CodebookEntriesAreReadOnly : Prop :=
  ∀ (s : State) (ms : List Move) (x : Sym) (w j : Nat) (v : Word), w < 8 → j < 4 →
    (s.busy = false → s.moves = .read (s.cfg.base + (0x800 + 4 * x.toNat + j)) :: ms →
      step s = .next { s with moves := ms, lastRead := some ((s.codeLen.get x).setWidth 32) }) ∧
    (s.busy = false → s.moves = .read (s.cfg.base + (0x2000 + 32 * x.toNat + 4 * w + j)) :: ms →
      step s = .next { s with moves := ms, lastRead := some ((s.codeBits.get x).extractLsb' (32 * w) 32) }) ∧
    (s.moves = .write (s.cfg.base + (0x800 + 4 * x.toNat + j)) v :: ms → step s = .next { s with moves := ms }) ∧
    (s.moves = .write (s.cfg.base + (0x2000 + 32 * x.toNat + 4 * w + j)) v :: ms →
      step s = .next { s with moves := ms })

/-- 20_memory.md R86: an IN window write sets the little-endian lanes below IN_CAP and nothing else, IN_LEN included; a
read, busy or idle, returns the byte last written in each lane, 0 at or past IN_CAP, and the next free value, which no
claim can name, in each lane that nothing has written (R94; the order of the draws is log 2's). -/
def Obligations.InWindowReadsAndWrites : Prop :=
  ∀ (s : State) (ms : List Move) (v : Word) (k j : Nat), j < 4 → k < 0x400000 →
    (s.busy = false → s.moves = .write (s.cfg.base + (0x01000000 + 4 * k + j)) v :: ms →
      ∃ t, step s = .next t ∧ t = { s with moves := ms, inBuf := t.inBuf } ∧
        (∀ l, l < 4 → 4 * k + l < s.cfg.inCap → t.inBuf.read? (4 * k + l) = some (v.extractLsb' (8 * l) 8)) ∧
        (∀ a, (a < 4 * k ∨ 4 * k + 4 ≤ a ∨ s.cfg.inCap ≤ a) → t.inBuf.read? a = s.inBuf.read? a)) ∧
    (s.moves = .read (s.cfg.base + (0x01000000 + 4 * k + j)) :: ms →
      ∃ t r, step s = .next t ∧ t.lastRead = some r ∧ ∀ l, l < 4 →
        (s.cfg.inCap ≤ 4 * k + l → r.extractLsb' (8 * l) 8 = 0#8) ∧
        (4 * k + l < s.cfg.inCap → ∀ b, s.inBuf.read? (4 * k + l) = some b → r.extractLsb' (8 * l) 8 = b) ∧
        (4 * k + l < s.cfg.inCap → s.inBuf.read? (4 * k + l) = none → r.extractLsb' (8 * l) 8 =
          Config.freeByte (s.free + (List.range l).countP fun i =>
            decide (4 * k + i < s.cfg.inCap) && (s.inBuf.read? (4 * k + i)).isNone)))

/-- 20_memory.md R87: an OUT window read, idle or while a command that does not write the word runs (R89), returns the byte
last written in each lane, 0 at or past OUT_CAP, and the next free value in each lane that nothing has written (R94; the
order of the draws is log 2's); writes are ignored, busy or idle. That a word with no byte below OUT_CAP is none that
ENCODE and DECODE write, so that it reads 0 while they run too, is log 10's deduction, the model's. -/
def Obligations.OutWindowReadsAndIgnoresWrites : Prop :=
  ∀ (s : State) (ms : List Move) (v : Word) (k j : Nat), j < 4 → k < 0x400000 →
    (s.moves = .write (s.cfg.base + (0x02000000 + 4 * k + j)) v :: ms → step s = .next { s with moves := ms }) ∧
    ((s.busy = false ∨ s.curCmd.toNat ∉ [5, 6] ∨ s.cfg.outCap ≤ 4 * k) → s.moves = .read (s.cfg.base + (0x02000000 + 4 * k + j)) :: ms →
      ∃ t r, step s = .next t ∧ t.lastRead = some r ∧ ∀ l, l < 4 →
        (s.cfg.outCap ≤ 4 * k + l → r.extractLsb' (8 * l) 8 = 0#8) ∧
        (4 * k + l < s.cfg.outCap → ∀ b, s.outBuf.read? (4 * k + l) = some b → r.extractLsb' (8 * l) 8 = b) ∧
        (4 * k + l < s.cfg.outCap → s.outBuf.read? (4 * k + l) = none → r.extractLsb' (8 * l) 8 =
          Config.freeByte (s.free + (List.range l).countP fun i =>
            decide (4 * k + i < s.cfg.outCap) && (s.outBuf.read? (4 * k + i)).isNone)))

/-- 10_state.md R54: reserved and unmapped offsets read as 0 and ignore writes, busy or idle. -/
def Obligations.ReservedOffsetsReadZero : Prop :=
  ∀ (s : State) (ms : List Move) (off : Nat) (v : Word),
    ((0x34 ≤ off ∧ off < 0x400) ∨ (0xC00 ≤ off ∧ off < 0x2000) ∨ (0x4000 ≤ off ∧ off < 0x01000000)) →
    (s.moves = .read (s.cfg.base + off) :: ms → step s = .next { s with moves := ms, lastRead := some 0#32 }) ∧
    (s.moves = .write (s.cfg.base + off) v :: ms → step s = .next { s with moves := ms })

/-- 20_memory.md R85: a write to any other offset is ignored: every read-only register, CODE_LEN, CODE_BITS, the OUT
window and the reserved ranges. -/
def Obligations.OtherWritesAreIgnored : Prop :=
  ∀ (s : State) (ms : List Move) (off : Nat) (v : Word), off < 0x03000000 →
    s.moves = .write (s.cfg.base + off) v :: ms →
    off / 4 ≠ 1 → off / 4 ≠ 2 → off / 4 ≠ 3 → off / 4 ≠ 5 →
    ¬ (0x400 ≤ off ∧ off < 0x800) → ¬ (0x01000000 ≤ off ∧ off < 0x02000000) →
    step s = .next { s with moves := ms }

/-- 10_state.md R41 to R53: what each register reads as, BUSY = 0, at each of its four byte offsets. -/
def Obligations.RegisterReads : Prop :=
  ∀ (s : State) (ms : List Move) (off j : Nat) (v : Word), j < 4 → s.busy = false →
    s.moves = .read (s.cfg.base + (off + j)) :: ms →
    (off, v) ∈ [(0x000, 0x48554631#32), (0x004, if s.irqEn then 1#32 else 0#32), (0x008, 0#32),
      (0x00C, BitVec.ofNat 32 (2 * s.done.toNat + 4 * (if s.errCode = 0#8 then 0 else 1) +
        8 * s.treeValid.toNat + 16 * s.codesValid.toNat)),
      (0x010, s.errCode.setWidth 32), (0x014, s.inLen), (0x018, s.outLen), (0x01C, s.nsym), (0x020, s.maxLen),
      (0x024, s.payloadBits), (0x028, s.pad.setWidth 32), (0x02C, BitVec.ofNat 32 s.cfg.inCap),
      (0x030, BitVec.ofNat 32 s.cfg.outCap)] →
    step s = .next { s with moves := ms, lastRead := some v }

/-- 20_memory.md R99: a host read in the window changes nothing of CORE; the word goes to the host (log 15). -/
def Obligations.HostReadsChangeNothing : Prop :=
  ∀ (s : State) (ms : List Move) (off : Nat), off < 0x03000000 → s.moves = .read (s.cfg.base + off) :: ms →
    ∃ t r, step s = .next t ∧ t = { s with moves := ms, lastRead := some r, free := t.free } ∧ s.free ≤ t.free

/-- 20_memory.md R89: while a word is being executed, legal or not, a read of state that it does not write returns the value
of R84: ID, CTRL, CMD, IN_LEN, IN_CAP and OUT_CAP always, and NSYM, MAX_LEN, OUT_LEN, PAYLOAD_BITS, PAD, FREQ, CODE_LEN
and CODE_BITS unless the command writes them. (The IN and OUT windows have their own statements.) In every state of the
invariant STATUS reads BUSY = 1, DONE = 0 and ERR = 0, with TREE_VALID and CODES_VALID exact unless the command writes
them, and ERR_CODE reads 0. -/
def Obligations.BusyReadsOfUnwrittenRegisters : Prop :=
  ∀ (s : State) (ms : List Move) (j : Nat), s.busy = true → j < 4 →
    (∀ (off : Nat) (v : Word), s.moves = .read (s.cfg.base + (off + j)) :: ms →
      ((off, v) ∈ [(0x000, 0x48554631#32), (0x004, if s.irqEn then 1#32 else 0#32), (0x008, 0#32), (0x014, s.inLen),
          (0x02C, BitVec.ofNat 32 s.cfg.inCap), (0x030, BitVec.ofNat 32 s.cfg.outCap)] ∨
        (s.curCmd.toNat ∉ [2, 4] ∧ (off, v) = (0x01C, s.nsym)) ∨
        (s.curCmd.toNat ∉ [2, 3, 4] ∧ (off, v) = (0x020, s.maxLen)) ∨
        (s.curCmd.toNat ∉ [5, 6] ∧
          (off, v) ∈ [(0x018, s.outLen), (0x024, s.payloadBits), (0x028, s.pad.setWidth 32)]) ∨
        (s.curCmd.toNat ∉ [1, 4] ∧ ∃ x : Sym, (off, v) = (0x400 + 4 * x.toNat, s.freq.get x)) ∨
        (s.curCmd.toNat ∉ [2, 3, 4] ∧ ∃ x : Sym,
          (off, v) = (0x800 + 4 * x.toNat, (s.codeLen.get x).setWidth 32) ∨
          ∃ w, w < 8 ∧ (off, v) = (0x2000 + 32 * x.toNat + 4 * w, (s.codeBits.get x).extractLsb' (32 * w) 32))) →
      step s = .next { s with moves := ms, lastRead := some v }) ∧
    (s.Inv →
      (s.moves = .read (s.cfg.base + (0x010 + j)) :: ms →
        step s = .next { s with moves := ms, lastRead := some 0#32 }) ∧
      (s.moves = .read (s.cfg.base + (0x00C + j)) :: ms →
        ∃ t r, step s = .next t ∧ t.lastRead = some r ∧
          r.getLsbD 0 = true ∧ r.getLsbD 1 = false ∧ r.getLsbD 2 = false ∧ (∀ b, 5 ≤ b → r.getLsbD b = false) ∧
          (s.curCmd.toNat ∉ [2, 4] → r.getLsbD 3 = s.treeValid) ∧
          (s.curCmd.toNat ∉ [2, 3, 4] → r.getLsbD 4 = s.codesValid)))

/-- 20_memory.md R89: while a command runs, a read of a table or register it writes returns the next free value, which no
claim can name, and STATUS reads bit 4 (BUILD_TREE, GEN_CODES, BUILD_CODEC) and bit 3 (BUILD_TREE, BUILD_CODEC) of the
next free value in its CODES_VALID and TREE_VALID bits; each such read draws its own (the drawn counter is log 2's). That
an OUT word with any byte below OUT_CAP is free as a whole, and that the two STATUS bits come from one draw, is log 10's
deduction. -/
def Obligations.BusyReadsOfWrittenStateAreFree : Prop :=
  ∀ (s : State) (ms : List Move) (off : Nat), s.busy = true → s.moves = .read (s.cfg.base + off) :: ms →
    (((s.curCmd.toNat ∈ [1, 4] ∧ 0x400 ≤ off ∧ off < 0x800) ∨
      (s.curCmd.toNat ∈ [2, 3, 4] ∧ ((0x800 ≤ off ∧ off < 0xC00) ∨ (0x2000 ≤ off ∧ off < 0x4000) ∨ off / 4 = 8)) ∨
      (s.curCmd.toNat ∈ [2, 4] ∧ off / 4 = 7) ∨
      (s.curCmd.toNat ∈ [5, 6] ∧ (off / 4 ∈ [6, 9, 10] ∨
        (0x02000000 ≤ off ∧ off < 0x03000000 ∧ 4 * ((off - 0x02000000) / 4) < s.cfg.outCap)))) →
      step s = .next { s with moves := ms, lastRead := some (Config.freeWord s.free), free := s.free + 1 }) ∧
    (s.curCmd.toNat ∈ [2, 3, 4] → off / 4 = 3 →
      ∃ r, step s = .next { s with moves := ms, lastRead := some r, free := s.free + 1 } ∧
        r.getLsbD 4 = (Config.freeWord s.free).getLsbD 4 ∧
        (s.curCmd.toNat ∈ [2, 4] → r.getLsbD 3 = (Config.freeWord s.free).getLsbD 3))

/-- 70_reset_and_hazards.md R364, 10_state.md R62: no host transaction changes TREE or the codebook, and COUNT does not
either; CODES_VALID stays as it is. -/
def Obligations.TransactionsAndCountKeepTreeAndCodebook : Prop :=
  (∀ (s t : State) (ms : List Move) (addr : Nat) (v : Word),
    (s.moves = .read addr :: ms ∨ s.moves = .write addr v :: ms) → step s = .next t → sameTree s t ∧ sameCodes s t) ∧
  (∀ s : State, ∃ t, exec .count s = .next t ∧ sameTree s t ∧ sameCodes s t)

/-! ### Steps -/

/-- 60_exceptions.md R319: when the engine moves and BUSY = 1, a step is the command that CUR_CMD decodes to, run on the
state with that move taken. -/
def Obligations.StepRunsTheDecodedCommand : Prop :=
  ∀ (s : State) (i : Instr), s.busy = true → Sys2Proof.decode s.curCmd = .ok i →
    (s.moves = [] → step s = exec i s) ∧
    (∀ ms, s.moves = .engine :: ms → step s = exec i { s with moves := ms })

/-- 45_build_codec.md R295: every word but 1 to 6 completes with ILLEGAL_COMMAND, at an engine's turn that is pending or
when no move is, and nothing else changes. -/
def Obligations.IllegalWordCompletesWithCodeFour : Prop :=
  ∀ (s : State) (ms : List Move), s.busy = true → (s.moves = [] ∧ ms = [] ∨ s.moves = .engine :: ms) →
    (s.curCmd.toNat = 0 ∨ 7 ≤ s.curCmd.toNat) →
    ∃ t, step s = .next t ∧ t.err = true ∧ t.irq = s.irqEn ∧
      t = { s with moves := ms, busy := false, done := true, errCode := 4#8, curCmd := t.curCmd, free := t.free }

/-- 60_exceptions.md R335: an idle CORE with nothing to do stays as it is, and no event but a CMD write starts work. -/
def Obligations.IdleCoreWaitsForACmdWrite : Prop :=
  (∀ s : State, s.busy = false →
    (s.moves = [] → step s = .next s) ∧ (∀ ms, s.moves = .engine :: ms → step s = .next { s with moves := ms })) ∧
  (∀ s t : State, step s = .next t → s.busy = false → t.busy = true →
    ∃ ms v off, s.moves = .write (s.cfg.base + off) v :: ms ∧ off / 4 = 2 ∧ t.curCmd = v)

/-- 60_exceptions.md R325, R326: IRQ = DONE ∧ IRQ_EN. It rises when a command completes while IRQ_EN = 1, whatever its
code, or when the host sets IRQ_EN = 1 while DONE = 1, and at no other step; and it is cleared by a STATUS write with
bit 1 set and by issuing a command. -/
def Obligations.IrqFollowsDoneAndIrqEn : Prop :=
  (∀ s : State, s.irq = true ↔ s.done = true ∧ s.irqEn = true) ∧
  (∀ (s : State) (ms : List Move), s.busy = true → (s.moves = [] ∧ ms = [] ∨ s.moves = .engine :: ms) →
    ∃ t, step s = .next t ∧ t.moves = ms ∧ t.irq = s.irqEn) ∧
  (∀ (s : State) (ms : List Move) (v : Word), s.moves = .write (s.cfg.base + 0x004) v :: ms →
    ∃ t, step s = .next t ∧ t.irq = (s.done && v.getLsbD 0)) ∧
  (∀ s t : State, step s = .next t → s.irq = false → t.irq = true →
    (s.busy = true ∧ t.busy = false ∧ s.irqEn = true ∧ t.done = true) ∨
    (s.done = true ∧ s.irqEn = false ∧
      ∃ ms v off, s.moves = .write (s.cfg.base + off) v :: ms ∧ off / 4 = 1 ∧ v.getLsbD 0 = true)) ∧
  (∀ (s : State) (ms : List Move) (v : Word), s.moves = .write (s.cfg.base + 0x00C) v :: ms → v.getLsbD 1 = true →
    ∃ t, step s = .next t ∧ t.irq = false) ∧
  (∀ (s : State) (ms : List Move) (v : Word), s.moves = .write (s.cfg.base + 0x008) v :: ms → s.busy = false →
    ∃ t, step s = .next t ∧ t.irq = false)

/-- 20_memory.md R83: no access to the window faults and no command stops; the one stop is a transaction at a host
address outside the window, which is the model's own (log 9). -/
def Obligations.OnlyForeignAddressesStop : Prop :=
  ∀ s : State, (∃ t, step s = .next t) ∨
    ∃ addr ms, step s = .fault (.outsideWindow addr) ∧
      (addr < s.cfg.base ∨ s.cfg.base + 0x03000000 ≤ addr) ∧
      (s.moves = .read addr :: ms ∨ ∃ v, s.moves = .write addr v :: ms)

/-- Every step keeps the invariant, whichever agent moves and whatever the state's pending moves are. -/
def Obligations.StepKeepsTheInvariant : Prop := ∀ s t : State, s.Inv → step s = .next t → t.Inv

/-- 10_state.md R58: in every state that meets the invariant the codebook is either empty or built, and not both. -/
def Obligations.CodebookIsEmptyOrPrefixFree : Prop :=
  ∀ s : State, s.Inv → (s.codebookEmpty ∨ s.codebookBuilt) ∧ ¬ (s.codebookEmpty ∧ s.codebookBuilt)

/-- 60_exceptions.md R319, R310, R314 to R316: each command completes, with one of the codes its rule allows, and no
command changes IN, IN_LEN, CTRL or the parameters. -/
def Obligations.EveryCommandCompletesWithItsCodes : Prop :=
  ∀ (i : Instr) (s : State), ∃ t, exec i s = .next t ∧ t.busy = false ∧ t.done = true ∧ sameHostSide s t ∧
    t.errCode.toNat ∈ (match i with
      | .count => [0, 6]
      | .buildTree => [0, 1]
      | .genCodes => [0, 7]
      | .buildCodec => [0, 1, 6]
      | .encode => [0, 2, 5, 6]
      | .decode => [0, 3, 5, 6])

/-- 60_exceptions.md R311: IN_LEN > IN_CAP is LENGTH_RANGE for the four commands that read IN, before any other check;
BUILD_TREE and GEN_CODES never raise it. -/
def Obligations.LengthRangeIsCheckedFirst : Prop :=
  (∀ s : State, s.cfg.inCap < s.inLen.toNat →
    (∃ t, exec .count s = .next t ∧
      t = { s with busy := false, done := true, errCode := 6#8, curCmd := t.curCmd, free := t.free }) ∧
    (∃ t, exec .buildCodec s = .next t ∧
      t = { s with busy := false, done := true, errCode := 6#8, curCmd := t.curCmd, free := t.free }) ∧
    (∃ t, exec .encode s = .next t ∧ codecFailed 6#8 s t) ∧
    (∃ t, exec .decode s = .next t ∧ codecFailed 6#8 s t)) ∧
  (∀ s : State, ∃ t u, exec .buildTree s = .next t ∧ exec .genCodes s = .next u ∧ t.errCode ≠ 6#8 ∧ u.errCode ≠ 6#8)

/-! ### COUNT -/

/-- 20_memory.md R93, R94: the engine reads IN_LEN bytes in ascending order; a written byte reads as last written, and
the bytes nothing has written read as successive free values, one draw each (that draws are counted, and their order, is
log 2's; that a command reads each byte once, before its other checks, is log 17's). -/
def Obligations.EngineReadsTheInputBytes : Prop :=
  ∀ s : State, s.input.length = s.inLen.toNat ∧
    ∀ a, a < s.inLen.toNat →
      (∀ b, s.inBuf.read? a = some b → s.input[a]? = some b) ∧
      (s.inBuf.read? a = none → s.input[a]? =
        some (Config.freeByte (s.free + (List.range a).countP fun i => (s.inBuf.read? i).isNone)))

/-- 40_frequency_counter.md R150, R151: COUNT sets every FREQ entry to the number of times its symbol occurs, and
nothing else. -/
def Obligations.CountCountsEverySymbol : Prop :=
  ∀ s : State, s.lengthOk →
    ∃ t, exec .count s = .next t ∧ completedWith 0#8 t ∧ (∀ x, (t.freq.get x).toNat = s.input.count x) ∧
      sameHostSide s t ∧ sameTree s t ∧ sameCodes s t ∧ sameOutput s t

/-- 40_frequency_counter.md R153: the counts add up to IN_LEN, and exactly the symbols that occur have one. -/
def Obligations.CountsAddUpToInLen : Prop :=
  ∀ s : State, s.lengthOk →
    ∃ t, exec .count s = .next t ∧ t.errCode = 0#8 ∧ sumOver (fun x => (t.freq.get x).toNat) = s.inLen.toNat ∧
      ∀ x, 1 ≤ (t.freq.get x).toNat ↔ x ∈ s.input

/-! ### BUILD_TREE -/

/-- 41_tree_builder.md R176: with every FREQ entry 0, EMPTY_INPUT and the invalidated state. -/
def Obligations.BuildTreeRefusesTheEmptyTable : Prop :=
  ∀ s : State, ¬ s.hasLeaf →
    ∃ t, exec .buildTree s = .next t ∧ completedWith 1#8 t ∧ invalidated t ∧
      sameHostSide s t ∧ sameFreq s t ∧ sameOutput s t

/-- 41_tree_builder.md R170, R171, R175: with some FREQ entry not 0, a tree over n = NSYM leaves: the leaves, then n − 1
internal nodes, the root last; and an empty codebook. -/
def Obligations.BuildTreeMakesATree : Prop :=
  ∀ s : State, s.hasLeaf →
    ∃ t, exec .buildTree s = .next t ∧ completedWith 0#8 t ∧ t.treeValid = true ∧
      t.nsym.toNat = symbols.countP (fun x => s.freq.get x != 0#32) ∧ TreeOk t.nsym.toNat t.tree ∧
      t.codebookEmpty ∧ t.maxLen = 0#32 ∧ sameHostSide s t ∧ sameFreq s t ∧ sameOutput s t

/-- 41_tree_builder.md R172: leaf k is the symbol with FREQ ≠ 0 that k such symbols lie below, with its FREQ as weight;
every symbol with FREQ ≠ 0 has its leaf, and there is no other leaf. -/
def Obligations.LeavesStandInSymbolOrder : Prop :=
  ∀ s : State, s.hasLeaf →
    ∃ t, exec .buildTree s = .next t ∧
      (∀ k, k < t.nsym.toNat → ∃ x, s.freq.get x ≠ 0#32 ∧
        t.tree[k]? = some (Node.leaf x ((s.freq.get x).setWidth 40)) ∧
        k = symbols.countP (fun y => s.freq.get y != 0#32 && decide (y.toNat < x.toNat))) ∧
      (∀ x, s.freq.get x ≠ 0#32 → ∃ k, k < t.nsym.toNat ∧
        t.tree[k]? = some (Node.leaf x ((s.freq.get x).setWidth 40))) ∧
      (∀ (k : Nat) x w, t.tree[k]? = some (Node.leaf x w) → k < t.nsym.toNat)

/-- 41_tree_builder.md R173, R174: internal node j merges the least node a and the next least b of the queue, a as the
left child, with the sum of their weights. -/
def Obligations.EachMergeTakesTheTwoLeastNodes : Prop :=
  ∀ s : State, s.hasLeaf →
    ∃ t, exec .buildTree s = .next t ∧
      ∀ j, t.nsym.toNat ≤ j → j < 2 * t.nsym.toNat - 1 →
        ∃ w a b, t.tree[j]? = some (Node.internal w a b) ∧ w.toNat = weightAt t.tree a + weightAt t.tree b ∧
          mergesLeast t.tree j a b

/-- 41_tree_builder.md R177: no sum of weights overflows 40 bits, the root's weight is the sum of FREQ, and after
counting an input it is IN_LEN. -/
def Obligations.RootWeightIsTheSumOfFreq : Prop :=
  (∀ s : State, s.hasLeaf →
    ∃ t, exec .buildTree s = .next t ∧
      (∀ (j : Nat) w a b, t.tree[j]? = some (Node.internal w a b) → w.toNat = weightAt t.tree a + weightAt t.tree b) ∧
      weightAt t.tree (2 * t.nsym.toNat - 2) = sumOver fun x => (s.freq.get x).toNat) ∧
  (∀ s : State, s.lengthOk → 1 ≤ s.inLen.toNat →
    ∃ t, exec .buildCodec s = .next t ∧ weightAt t.tree (2 * t.nsym.toNat - 2) = s.inLen.toNat)

/-- 41_tree_builder.md R178: the tree is a function of FREQ alone. -/
def Obligations.TreeDependsOnFreqAlone : Prop :=
  ∀ s u : State, s.freq = u.freq → s.hasLeaf →
    ∃ t v, exec .buildTree s = .next t ∧ exec .buildTree u = .next v ∧ t.tree = v.tree ∧ t.nsym = v.nsym

/-! ### GEN_CODES -/

/-- 42_code_table.md R206: with no tree, NO_TREE and nothing else. -/
def Obligations.GenCodesRefusesWithoutATree : Prop :=
  ∀ s : State, s.treeValid = false →
    ∃ t, exec .genCodes s = .next t ∧
      t = { s with busy := false, done := true, errCode := 7#8, curCmd := t.curCmd, free := t.free }

/-- 42_code_table.md R200, R201, R202: with a tree over n leaves each symbol's codeword is its leaf's path, 0 for left and
1 for right, or "0" when the leaf is the root; other symbols get none; and MAX_LEN is the greatest length. -/
def Obligations.GenCodesBindsEachLeafToItsPath : Prop :=
  ∀ s : State, s.treeValid = true → TreeOk s.nsym.toNat s.tree →
    ∃ t, exec .genCodes s = .next t ∧ completedWith 0#8 t ∧ t.codesValid = true ∧
      (2 ≤ s.nsym.toNat → ∀ p x w, follow s.tree (2 * s.nsym.toNat - 2) p = some (Node.leaf x w) →
        (t.codeLen.get x).toNat = p.length ∧ (t.codeBits.get x).toNat = val p) ∧
      (s.nsym.toNat = 1 → ∀ x w, s.tree[0]? = some (Node.leaf x w) →
        t.codeLen.get x = 1#8 ∧ t.codeBits.get x = 0#256) ∧
      (∀ (k : Nat) x w, k < s.nsym.toNat → s.tree[k]? = some (Node.leaf x w) →
        ∃ p, follow s.tree (2 * s.nsym.toNat - 2) p = some (Node.leaf x w)) ∧
      (∀ x, (∀ (k : Nat) w, s.tree[k]? ≠ some (Node.leaf x w)) →
        t.codeLen.get x = 0#8 ∧ t.codeBits.get x = 0#256) ∧
      (∀ x, (t.codeLen.get x).toNat ≤ t.maxLen.toNat) ∧ (∃ x, (t.codeLen.get x).toNat = t.maxLen.toNat) ∧
      sameHostSide s t ∧ sameFreq s t ∧ sameTree s t ∧ sameOutput s t

/-- 42_code_table.md R203: after BUILD_TREE and GEN_CODES exactly the symbols with FREQ ≠ 0 have a codeword, and the
codebook is prefix-free with distinct codewords. -/
def Obligations.GeneratedCodebookIsTotalAndPrefixFree : Prop :=
  ∀ s : State, s.hasLeaf →
    ∃ t u, exec .buildTree s = .next t ∧ exec .genCodes t = .next u ∧ u.errCode = 0#8 ∧
      (∀ x, u.coded x ↔ s.freq.get x ≠ 0#32) ∧ u.codebookBuilt

/-- 42_code_table.md R204: MAX_LEN is the greatest CODE_LEN; it lies in 1..255 and is 1 exactly when NSYM ≤ 2. -/
def Obligations.MaxLenIsTheGreatestCodeLength : Prop :=
  ∀ s : State, s.hasLeaf →
    ∃ t u, exec .buildTree s = .next t ∧ exec .genCodes t = .next u ∧ u.errCode = 0#8 ∧
      (∀ x, (u.codeLen.get x).toNat ≤ u.maxLen.toNat) ∧ (∃ x, (u.codeLen.get x).toNat = u.maxLen.toNat) ∧
      1 ≤ u.maxLen.toNat ∧ u.maxLen.toNat ≤ 255 ∧ (u.maxLen.toNat = 1 ↔ u.nsym.toNat ≤ 2)

/-- 41_tree_builder.md R181: with n ≥ 2 leaves every leaf's depth, its code length, lies between 1 and n − 1. -/
def Obligations.CodeLengthsAreBelowTheLeafCount : Prop :=
  ∀ s : State, s.hasLeaf →
    ∃ t u, exec .buildTree s = .next t ∧ exec .genCodes t = .next u ∧ u.errCode = 0#8 ∧
      (2 ≤ u.nsym.toNat → ∀ x, s.freq.get x ≠ 0#32 →
        1 ≤ (u.codeLen.get x).toNat ∧ (u.codeLen.get x).toNat ≤ u.nsym.toNat - 1 ∧ (u.codeLen.get x).toNat ≤ 255)

/-- 42_code_table.md R208 (1): Σ 2^(−CODE_LEN) is 1 for NSYM ≥ 2 and 1/2 for NSYM = 1, here times 2^255. -/
def Obligations.CodeLengthsMeetKraftWithEquality : Prop :=
  ∀ s : State, s.hasLeaf →
    ∃ t u, exec .buildTree s = .next t ∧ exec .genCodes t = .next u ∧ u.errCode = 0#8 ∧
      sumOver (fun x => if u.codeLen.get x = 0#8 then 0 else 2 ^ (255 - (u.codeLen.get x).toNat)) =
        if u.nsym.toNat = 1 then 2 ^ 254 else 2 ^ 255

/-- 42_code_table.md R207: GEN_CODES run again on the same tree writes the same values. -/
def Obligations.GenCodesAgainWritesTheSame : Prop :=
  ∀ s : State, s.treeValid = true →
    ∃ t u, exec .genCodes s = .next t ∧ exec .genCodes t = .next u ∧ u.errCode = 0#8 ∧ sameCodes t u

/-- 41_tree_builder.md R180: no binary tree over the same leaves, at least two of them, has a smaller weighted path
length than the codes of BUILD_TREE and GEN_CODES; for one leaf the depth counts as 1. -/
def Obligations.TreeMinimisesWeightedPathLength : Prop :=
  ∀ s : State, s.hasLeaf →
    ∃ t u, exec .buildTree s = .next t ∧ exec .genCodes t = .next u ∧ u.errCode = 0#8 ∧
      (2 ≤ u.nsym.toNat → ∀ b : BinTree, b.syms.Perm (symbols.filter fun x => s.freq.get x != 0#32) →
        weightedLength s.freq u.codeLen ≤ b.cost s.freq 0) ∧
      (u.nsym.toNat = 1 → weightedLength s.freq u.codeLen = sumOver fun x => (s.freq.get x).toNat)

/-! ### BUILD_CODEC -/

/-- 45_build_codec.md R292: BUILD_CODEC leaves what COUNT, BUILD_TREE and GEN_CODES leave one after another, up to the
first that fails. TREE, unspecified after EMPTY_INPUT (10_state.md R61), is left open there. -/
def Obligations.BuildCodecIsTheThreeInTurn : Prop :=
  ∀ s : State, ∃ a b c t, exec .count s = .next a ∧ exec .buildTree a = .next b ∧ exec .genCodes b = .next c ∧
    exec .buildCodec s = .next t ∧
    (a.errCode ≠ 0#8 → t = { a with curCmd := t.curCmd, free := t.free }) ∧
    (a.errCode = 0#8 → b.errCode ≠ 0#8 → t = { b with curCmd := t.curCmd, free := t.free, tree := t.tree }) ∧
    (a.errCode = 0#8 → b.errCode = 0#8 → c.errCode = 0#8 ∧ t = { c with curCmd := t.curCmd, free := t.free })

/-- 45_build_codec.md R293: BUILD_CODEC's result is a function of the input bytes it reads. -/
def Obligations.BuildCodecDependsOnTheInputAlone : Prop :=
  ∀ s u : State, s.lengthOk → u.lengthOk → s.input = u.input →
    ∃ t v, exec .buildCodec s = .next t ∧ exec .buildCodec u = .next v ∧ t.errCode = v.errCode ∧ t.freq = v.freq ∧
      t.nsym = v.nsym ∧ t.treeValid = v.treeValid ∧ (t.treeValid = true → t.tree = v.tree) ∧ sameCodes t v

/-- 45_build_codec.md R290: on a non-empty input BUILD_CODEC counts, builds and generates; exactly the bytes of the input
get a codeword. -/
def Obligations.BuildCodecCoversTheInput : Prop :=
  ∀ s : State, s.lengthOk → 1 ≤ s.inLen.toNat →
    ∃ t, exec .buildCodec s = .next t ∧ completedWith 0#8 t ∧ t.treeValid = true ∧ TreeOk t.nsym.toNat t.tree ∧
      (∀ x, (t.freq.get x).toNat = s.input.count x) ∧ (∀ x, t.coded x ↔ x ∈ s.input) ∧ t.codebookBuilt ∧
      sameHostSide s t ∧ sameOutput s t

/-- 45_build_codec.md R291: a failing BUILD_CODEC. LENGTH_RANGE changes nothing; EMPTY_INPUT, on the empty input, leaves
FREQ all 0 and the codebook cleared; there is no other error. -/
def Obligations.BuildCodecPartialEffects : Prop :=
  ∀ s : State, ∃ t, exec .buildCodec s = .next t ∧
    (s.cfg.inCap < s.inLen.toNat →
      t = { s with busy := false, done := true, errCode := 6#8, curCmd := t.curCmd, free := t.free }) ∧
    (s.inLen = 0#32 → completedWith 1#8 t ∧ (∀ x, t.freq.get x = 0#32) ∧ invalidated t ∧
      sameHostSide s t ∧ sameOutput s t) ∧
    (s.lengthOk → s.inLen ≠ 0#32 → t.errCode = 0#8)

/-! ### ENCODE -/

/-- 43_encoder.md R232 to R234, R236: the PackedStream of the input. With L the payload's length, p < 8 zero bits fill N
whole bytes; OUT[0] is p, stream bit 8k + j is bit 7 − j of OUT[1 + k], and OUT past the stream is unchanged. -/
def Obligations.EncodeWritesThePackedStream : Prop :=
  ∀ s : State, s.cfg.wf = true → s.lengthOk → (∀ x, x ∈ s.input → s.coded x) →
    ∀ payload : Bits, payload = s.input.flatMap s.code → 1 + (payload.length + 7) / 8 ≤ s.cfg.outCap →
    ∃ (t : State) (p N : Nat), exec .encode s = .next t ∧ completedWith 0#8 t ∧
      p < 8 ∧ payload.length + p = 8 * N ∧
      t.outLen.toNat = 1 + N ∧ t.payloadBits.toNat = payload.length ∧ t.pad.toNat = p ∧
      t.outBuf.read? 0 = some (BitVec.ofNat 8 p) ∧
      (∀ k, k < N → ∃ b, t.outBuf.read? (1 + k) = some b ∧ ∀ j, j < 8 →
        (payload ++ List.replicate p false)[8 * k + j]? = some (b.getLsbD (7 - j))) ∧
      (∀ a, 1 + N ≤ a → t.outBuf.read? a = s.outBuf.read? a) ∧ sameButOutput s t

/-- 43_encoder.md R231, R235, R237 and 60_exceptions.md R315: LENGTH_RANGE; then UNKNOWN_SYMBOL if an input byte has no
codeword, whatever the capacity; then OUTPUT_OVERFLOW if the stream is longer than OUT_CAP. -/
def Obligations.EncodeErrorsInOrder : Prop :=
  ∀ s : State,
    (¬ s.lengthOk → ∃ t, exec .encode s = .next t ∧ codecFailed 6#8 s t) ∧
    (s.lengthOk → (∃ x, x ∈ s.input ∧ ¬ s.coded x) → ∃ t, exec .encode s = .next t ∧ codecFailed 2#8 s t) ∧
    (s.lengthOk → (∀ x, x ∈ s.input → s.coded x) →
      s.cfg.outCap < 1 + ((s.input.flatMap s.code).length + 7) / 8 →
      ∃ t, exec .encode s = .next t ∧ codecFailed 5#8 s t)

/-- 43_encoder.md R238: the empty input gives the stream [0x00], with any codebook. -/
def Obligations.EncodeOfTheEmptyInput : Prop :=
  ∀ s : State, 1 ≤ s.cfg.outCap → s.inLen = 0#32 →
    ∃ t, exec .encode s = .next t ∧ completedWith 0#8 t ∧ t.outBuf.read? 0 = some 0#8 ∧ t.outLen = 1#32 ∧
      t.payloadBits = 0#32 ∧ t.pad = 0#3 ∧ (∀ a, 1 ≤ a → t.outBuf.read? a = s.outBuf.read? a) ∧ sameButOutput s t

/-! ### DECODE -/

/-- 44_decoder.md R262, R266, R269: with a prefix-free codebook a stream whose payload is the concatenation of the
codewords of `out` decodes to `out`; the dropped padding bits are not checked. -/
def Obligations.DecodeReturnsTheSymbols : Prop :=
  ∀ (s : State) (p : Byte) (body : List Byte) (out : List Sym), s.cfg.wf = true → s.lengthOk → s.prefixFree →
    s.input = p :: body → p.toNat ≤ 7 → p.toNat ≤ 8 * body.length →
    (∀ x, x ∈ out → s.coded x) →
    (bytesToBits body).take (8 * body.length - p.toNat) = out.flatMap s.code → out.length ≤ s.cfg.outCap →
    ∃ t, exec .decode s = .next t ∧ completedWith 0#8 t ∧ t.outLen.toNat = out.length ∧
      t.payloadBits.toNat = 8 * body.length - p.toNat ∧ t.pad.toNat = p.toNat ∧
      (∀ i, i < out.length → t.outBuf.read? i = out[i]?) ∧
      (∀ a, out.length ≤ a → t.outBuf.read? a = s.outBuf.read? a) ∧ sameButOutput s t

/-- 44_decoder.md R261, R264, R265, R267 and 60_exceptions.md R316: LENGTH_RANGE; then MALFORMED_STREAM for an empty
stream, a header above 7 or above the payload bits, or, with a prefix-free codebook, a payload that is no concatenation
of codewords; and only then OUTPUT_OVERFLOW. -/
def Obligations.DecodeErrorsInOrder : Prop :=
  ∀ s : State,
    (¬ s.lengthOk → ∃ t, exec .decode s = .next t ∧ codecFailed 6#8 s t) ∧
    (s.lengthOk → s.input = [] → ∃ t, exec .decode s = .next t ∧ codecFailed 3#8 s t) ∧
    (∀ (p : Byte) (body : List Byte), s.lengthOk → s.input = p :: body →
      ((7 < p.toNat ∨ 8 * body.length < p.toNat) → ∃ t, exec .decode s = .next t ∧ codecFailed 3#8 s t) ∧
      (p.toNat ≤ 7 → p.toNat ≤ 8 * body.length → s.prefixFree →
        ((¬ ∃ out : List Sym, (∀ x, x ∈ out → s.coded x) ∧
            (bytesToBits body).take (8 * body.length - p.toNat) = out.flatMap s.code) →
          ∃ t, exec .decode s = .next t ∧ codecFailed 3#8 s t) ∧
        (∀ out : List Sym, (∀ x, x ∈ out → s.coded x) →
          (bytesToBits body).take (8 * body.length - p.toNat) = out.flatMap s.code →
          s.cfg.outCap < out.length → ∃ t, exec .decode s = .next t ∧ codecFailed 5#8 s t)))

/-- 60_exceptions.md R324: no DECODE error is silent. In any state at all, a DECODE that ends with ERR_CODE = 0 consumed
its whole payload as codewords. -/
def Obligations.DecodeNeverLeavesAnUnmatchedCandidate : Prop :=
  ∀ s : State, ∃ t, exec .decode s = .next t ∧
    (t.errCode = 0#8 → ∃ (p : Byte) (body : List Byte) (out : List Sym), s.input = p :: body ∧
      (∀ x, x ∈ out → s.coded x) ∧
      (bytesToBits body).take (8 * body.length - p.toNat) = out.flatMap s.code)

/-- 44_decoder.md R268, R270: the stream [0x00] decodes to the empty sequence with any codebook; with an empty codebook a
stream with a non-empty payload is malformed. -/
def Obligations.DecodeWithNoPayloadOrNoCodebook : Prop :=
  ∀ s : State, s.lengthOk →
    (s.input = [0#8] → ∃ t, exec .decode s = .next t ∧ completedWith 0#8 t ∧ t.outLen = 0#32 ∧
      t.payloadBits = 0#32 ∧ t.pad = 0#3 ∧ (∀ a, t.outBuf.read? a = s.outBuf.read? a) ∧ sameButOutput s t) ∧
    (∀ (p : Byte) (body : List Byte), s.codebookEmpty → s.input = p :: body → body ≠ [] →
      ∃ t, exec .decode s = .next t ∧ codecFailed 3#8 s t)

/-! ### The codec as a whole -/

/-- 44_decoder.md R271: BUILD_CODEC and ENCODE of a written, non-empty input, then DECODE of the stream copied into IN
with the codebook unchanged, give the input back. For the empty input ENCODE alone and DECODE of its stream do. -/
def Obligations.EncodeThenDecodeRoundTrips : Prop :=
  (∀ s : State, s.cfg.wf = true → s.lengthOk → 1 ≤ s.inLen.toNat → s.inputWritten →
    ∃ a b, exec .buildCodec s = .next a ∧ exec .encode a = .next b ∧ a.errCode = 0#8 ∧
      (b.errCode = 0#8 → b.outLen.toNat ≤ s.cfg.inCap → s.inLen.toNat ≤ s.cfg.outCap →
        ∀ c : State, c.cfg = b.cfg → c.codeLen = b.codeLen → c.codeBits = b.codeBits → c.inLen = b.outLen →
          (∀ i, i < b.outLen.toNat → c.inBuf.read? i = b.outBuf.read? i) →
          ∃ d, exec .decode c = .next d ∧ d.errCode = 0#8 ∧ d.outLen = s.inLen ∧
            ∀ i, i < s.inLen.toNat → d.outBuf.read? i = s.inBuf.read? i)) ∧
  (∀ s : State, s.cfg.wf = true → s.inLen = 0#32 →
    ∃ b, exec .encode s = .next b ∧ b.errCode = 0#8 ∧
      ∀ c : State, c.cfg = b.cfg → c.inLen = b.outLen →
        (∀ i, i < b.outLen.toNat → c.inBuf.read? i = b.outBuf.read? i) →
        ∃ d, exec .decode c = .next d ∧ d.errCode = 0#8 ∧ d.outLen = 0#32)

/-- 44_decoder.md R272: a stream that ENCODE wrote for a non-empty input, decoded without its last byte. With p its
header and m the payload bits of what is left, DECODE succeeds exactly when the first m − p bits end at a codeword
boundary, and then gives the symbols up to there, a prefix of the encoded sequence; otherwise it is MALFORMED_STREAM.
The stream [0x00] of the empty input has nothing left, which is MALFORMED_STREAM too. -/
def Obligations.TruncatedStreamDecodesToAPrefix : Prop :=
  (∀ s : State, s.cfg.wf = true → s.lengthOk → 1 ≤ s.inLen.toNat → s.inputWritten → s.prefixFree →
    ∃ b, exec .encode s = .next b ∧
      (b.errCode = 0#8 → b.outLen.toNat ≤ s.cfg.inCap + 1 → s.inLen.toNat ≤ s.cfg.outCap →
        ∀ c : State, c.cfg = b.cfg → c.codeLen = b.codeLen → c.codeBits = b.codeBits →
          c.inLen.toNat + 1 = b.outLen.toNat → (∀ i, i < c.inLen.toNat → c.inBuf.read? i = b.outBuf.read? i) →
          ∀ m p : Nat, m = 8 * (c.inLen.toNat - 1) → p = b.pad.toNat →
          ∃ d, exec .decode c = .next d ∧
            (∀ k, k ≤ s.inLen.toNat → p ≤ m →
              (s.input.take k).flatMap s.code = (s.input.flatMap s.code).take (m - p) →
              d.errCode = 0#8 ∧ d.outLen.toNat = k ∧ ∀ i, i < k → d.outBuf.read? i = s.inBuf.read? i) ∧
            ((m < p ∨ ∀ k, k ≤ s.inLen.toNat →
                (s.input.take k).flatMap s.code ≠ (s.input.flatMap s.code).take (m - p)) →
              codecFailed 3#8 c d))) ∧
  (∀ s : State, s.cfg.wf = true → s.inLen = 0#32 →
    ∃ b, exec .encode s = .next b ∧ b.errCode = 0#8 ∧
      ∀ c : State, c.cfg = b.cfg → c.inLen.toNat + 1 = b.outLen.toNat →
        ∃ d, exec .decode c = .next d ∧ codecFailed 3#8 c d)

/-- 42_code_table.md R208 (2): after BUILD_CODEC of an input, Σ FREQ · CODE_LEN is the PAYLOAD_BITS that ENCODE of the
same input gives. -/
def Obligations.PayloadBitsAreTheWeightedLength : Prop :=
  ∀ s : State, s.cfg.wf = true → s.lengthOk → 1 ≤ s.inLen.toNat → s.inputWritten →
    ∃ a b, exec .buildCodec s = .next a ∧ exec .encode a = .next b ∧
      (b.errCode = 0#8 → b.payloadBits.toNat = weightedLength a.freq a.codeLen)
end

