-- ==== Sys2Proof/Laws/Bits.lean ====
section
/-! SUPPORT. Bit strings and bytes: `val` and `bits_L` are inverse, and so are packing and unpacking (00_scope.md R13, R15). -/

namespace Sys2Proof.Machine

theorem val_lt (c : Bits) : val c < 2 ^ c.length := by
  induction c with
  | nil => simp [val]
  | cons b c ih =>
    simp only [val, List.length_cons, Nat.pow_succ]
    have : b.toNat ≤ 1 := by cases b <;> simp
    nlinarith

@[simp] theorem length_bitsOf (L v : Nat) : (bitsOf L v).length = L := by simp [bitsOf]

theorem getElem?_bitsOf (L v i : Nat) : (bitsOf L v)[i]? = if i < L then some (v.testBit (L - 1 - i)) else none := by
  simp only [bitsOf, List.getElem?_map]
  split
  · next h => simp [List.getElem?_range h]
  · next h => simp [List.getElem?_eq_none (show (List.range L).length ≤ i by simpa using h)]

theorem bitsOf_succ (L v : Nat) : bitsOf (L + 1) v = v.testBit L :: bitsOf L v := by
  apply List.ext_getElem?
  intro i
  cases i with
  | zero => rw [getElem?_bitsOf]; simp
  | succ i =>
    simp only [getElem?_bitsOf, List.getElem?_cons_succ]
    by_cases h : i < L
    · rw [if_pos (by omega), if_pos h]; congr 2; omega
    · rw [if_neg (by omega), if_neg h]

/-- R13: `bits_L(v)` depends on the low L bits of v only. -/
theorem bitsOf_mod (L v : Nat) : bitsOf L (v % 2 ^ L) = bitsOf L v := by
  apply List.ext_getElem?
  intro i
  simp only [getElem?_bitsOf]
  split
  · next h => rw [Nat.testBit_mod_two_pow]; simp [show L - 1 - i < L by omega]
  · rfl

/-- R13: `val` inverts `bits_L`. -/
theorem val_bitsOf (L v : Nat) : val (bitsOf L v) = v % 2 ^ L := by
  induction L with
  | zero => simp [bitsOf, val, Nat.mod_one]
  | succ L ih =>
    rw [bitsOf_succ, val, ih, length_bitsOf]
    have h : v % 2 ^ (L + 1) = v % 2 ^ L + 2 ^ L * (v / 2 ^ L % 2) := by rw [Nat.pow_succ, Nat.mod_mul]
    rw [h, Nat.testBit_eq_decide_div_mod_eq]
    rcases Nat.mod_two_eq_zero_or_one (v / 2 ^ L) with h0 | h1
    · simp [h0]
    · simp [h1]; omega

/-- R13: `bits_L` inverts `val`. -/
theorem bitsOf_val (c : Bits) : bitsOf c.length (val c) = c := by
  induction c with
  | nil => rfl
  | cons b c ih =>
    rw [List.length_cons, bitsOf_succ]
    have hlt := val_lt c
    congr 1
    · rw [val, Nat.testBit_eq_decide_div_mod_eq]
      cases b
      · simp [Nat.div_eq_of_lt hlt]
      · simp [Nat.add_div_left _ (Nat.two_pow_pos _), Nat.div_eq_of_lt hlt]
    · rw [← bitsOf_mod, val]
      rw [show (b.toNat * 2 ^ c.length + val c) % 2 ^ c.length = val c by
        rw [Nat.mul_comm, Nat.mul_add_mod, Nat.mod_eq_of_lt hlt]]
      exact ih

theorem val_injective {c d : Bits} (hl : c.length = d.length) (hv : val c = val d) : c = d := by
  rw [← bitsOf_val c, ← bitsOf_val d, hl, hv]

@[simp] theorem length_byteToBits (b : Byte) : (byteToBits b).length = 8 := by simp [byteToBits]

@[simp] theorem length_bytesToBits (bs : List Byte) : (bytesToBits bs).length = 8 * bs.length := by
  induction bs with
  | nil => rfl
  | cons b bs ih =>
    rw [bytesToBits, List.flatMap_cons, List.length_append, length_byteToBits, List.length_cons]
    have : (bs.flatMap byteToBits).length = 8 * bs.length := ih
    omega

@[simp] theorem bytesToBits_cons (b : Byte) (bs : List Byte) : bytesToBits (b :: bs) = byteToBits b ++ bytesToBits bs := rfl

/-- R15: a byte made from eight bits has those bits. -/
theorem byteToBits_ofNat_val {c : Bits} (h : c.length = 8) : byteToBits (BitVec.ofNat 8 (val c)) = c := by
  have hlt := val_lt c
  rw [h] at hlt
  rw [byteToBits, BitVec.toNat_ofNat, Nat.mod_eq_of_lt hlt]
  have := bitsOf_val c
  rwa [h] at this

@[simp] theorem length_bitsToBytes (N : Nat) (P : Bits) : (bitsToBytes N P).length = N := by simp [bitsToBytes]

theorem bitsToBytes_succ (N : Nat) (P : Bits) : bitsToBytes (N + 1) P = byteAt P 0 :: bitsToBytes N (P.drop 8) := by
  unfold bitsToBytes
  rw [List.range_succ_eq_map, List.map_cons, List.map_map]
  congr 1
  apply List.map_congr_left
  intro k _
  simp only [Function.comp_apply, byteAt, List.drop_drop]
  congr 4
  omega

/-- R15: `bytes_to_bits` inverts `bits_to_bytes` on whole bytes. -/
theorem bytesToBits_bitsToBytes (N : Nat) (P : Bits) (h : P.length = 8 * N) : bytesToBits (bitsToBytes N P) = P := by
  induction N generalizing P with
  | zero =>
    have : P = [] := List.eq_nil_of_length_eq_zero (by omega)
    subst this; rfl
  | succ N ih =>
    rw [bitsToBytes_succ, bytesToBits_cons, ih (P.drop 8) (by rw [List.length_drop]; omega), byteAt,
      Nat.mul_zero, List.drop_zero, byteToBits_ofNat_val (by rw [List.length_take]; omega), List.take_append_drop]

end Sys2Proof.Machine
end

