-- ==== Sys2Proof/Laws/Bus.lean ====
section
/-! SUPPORT. Where the window's offsets lie (20_memory.md R82, R83), and what a read of state that the running command does
not write returns (R89). -/

namespace Sys2Proof.Machine

theorem locate_reg {off n : Nat} {r : Reg} (h : off / 4 = n) (hr : regAt n = some r) : locate off = .reg r := by
  have hn : n < 0x100 := by
    unfold regAt at hr
    split at hr <;> simp at hr <;> decide
  unfold locate
  simp only [h, if_pos hn, hr]

/-- R82 by word number: the map has seven bounds, and arithmetic decides which stretch a word lies in. -/
theorem locate_freq (x : Sym) (j : Nat) (hj : j < 4) : locate (0x400 + 4 * x.toNat + j) = .freq x := by
  have hx := x.isLt
  have hw : (0x400 + 4 * x.toNat + j) / 4 = 0x100 + x.toNat := by omega
  simp only [locate, hw]
  split_ifs <;> first | omega | simp

theorem locate_codeLen (x : Sym) (j : Nat) (hj : j < 4) : locate (0x800 + 4 * x.toNat + j) = .codeLen x := by
  have hx := x.isLt
  have hw : (0x800 + 4 * x.toNat + j) / 4 = 0x200 + x.toNat := by omega
  simp only [locate, hw]
  split_ifs <;> first | omega | simp

theorem locate_codeBits (x : Sym) (w j : Nat) (hw : w < 8) (hj : j < 4) :
    locate (0x2000 + 32 * x.toNat + 4 * w + j) = .codeBits x w := by
  have hx := x.isLt
  have hn : (0x2000 + 32 * x.toNat + 4 * w + j) / 4 = 0x800 + (8 * x.toNat + w) := by omega
  have hs : (8 * x.toNat + w) / 8 = x.toNat ∧ (8 * x.toNat + w) % 8 = w := by omega
  simp only [locate, hn, Nat.add_sub_cancel_left, hs]
  split_ifs <;> first | omega | simp

theorem locate_inWord (k j : Nat) (hk : k < 0x400000) (hj : j < 4) : locate (0x01000000 + 4 * k + j) = .inWord k := by
  have hw : (0x01000000 + 4 * k + j) / 4 = 0x400000 + k := by omega
  simp only [locate, hw, Nat.add_sub_cancel_left]
  split_ifs <;> first | omega | rfl

theorem locate_outWord (k j : Nat) (hk : k < 0x400000) (hj : j < 4) : locate (0x02000000 + 4 * k + j) = .outWord k := by
  have hw : (0x02000000 + 4 * k + j) / 4 = 0x800000 + k := by omega
  simp only [locate, hw, Nat.add_sub_cancel_left]
  split_ifs <;> first | omega | rfl

/-- R89: a read of a location that the word being executed does not write is the idle read. -/
theorem busRead_of_not_written {s : State} {off : Nat} (hs : locate off ≠ .reg .status)
    (h : ∀ i, decode s.curCmd = .ok i → instrWrites s.cfg.outCap i (locate off) = false) :
    busRead s off = locValue s (locate off) := by
  unfold busRead
  split
  · split
    · next i hi => simp [busyValue, hs, h i hi]
    · rfl
  · rfl

/-- R89: a read of a location that the running command writes, STATUS apart, draws the next free value. -/
theorem busRead_of_written {s : State} {off : Nat} {i : Instr} (hb : s.busy = true) (hd : decode s.curCmd = .ok i)
    (hs : locate off ≠ .reg .status) (h : instrWrites s.cfg.outCap i (locate off) = true) :
    busRead s off = (Config.freeWord s.free, s.free + 1) := by
  simp [busRead, hb, hd, busyValue, hs, h]

/-- R99: a host read, from what the bus answers. -/
theorem hostRead_of_busRead {s : State} {off free : Nat} {r : Word} (h : busRead s off = (r, free)) :
    hostRead s off = { s with lastRead := some r, free := free } := by
  simp [hostRead, h]

/-- 10_state.md R44: the bits of STATUS. -/
theorem statusWord_bits (busy done err treeValid codesValid : Bool) :
    let r := statusWord busy done err treeValid codesValid
    r.getLsbD 0 = busy ∧ r.getLsbD 1 = done ∧ r.getLsbD 2 = err ∧ r.getLsbD 3 = treeValid ∧ r.getLsbD 4 = codesValid ∧
      ∀ b, 5 ≤ b → r.getLsbD b = false := by
  refine ⟨?_, ?_, ?_, ?_, ?_, fun b hb => ?_⟩
  iterate 5 (cases busy <;> cases done <;> cases err <;> cases treeValid <;> cases codesValid <;> rfl)
  have hr : (statusWord busy done err treeValid codesValid).toNat < 2 ^ 5 := by
    cases busy <;> cases done <;> cases err <;> cases treeValid <;> cases codesValid <;> decide
  exact Nat.testBit_lt_two_pow (hr.trans_le (Nat.pow_le_pow_right (by decide) hb))

end Sys2Proof.Machine
end

