-- ==== Sys2Proof/Laws/Tables.lean ====
section
/-! SUPPORT. Tables of 256 entries, and the list of all symbols. -/

namespace Sys2Proof.Machine

@[simp] theorem Table.get_put_same {w : Nat} (t : Table w) (x : Sym) (v : BitVec w) : (t.put x v).get x = v := by
  simp [Table.get, Table.put]

theorem Table.get_put_ne {w : Nat} (t : Table w) (x y : Sym) (v : BitVec w) (h : y ≠ x) :
    (t.put x v).get y = t.get y := by
  have hne : x.toNat ≠ y.toNat := fun e => h (BitVec.eq_of_toNat_eq e.symm)
  simp only [Table.get, Table.put]
  exact Vector.getElem_set_ne _ _ hne

theorem Table.get_put {w : Nat} (t : Table w) (x y : Sym) (v : BitVec w) :
    (t.put x v).get y = if y = x then v else t.get y := by
  split
  · next h => subst h; simp
  · next h => exact Table.get_put_ne t x y v h

@[simp] theorem Table.get_zero {w : Nat} (x : Sym) : (Table.zero w).get x = 0#w := by
  simp [Table.get, Table.zero]

@[simp] theorem length_symbols : symbols.length = 256 := by simp [symbols]

/-- Every byte is a symbol (00_scope.md R9). -/
@[simp] theorem mem_symbols (x : Sym) : x ∈ symbols := by
  simp only [symbols, List.mem_map, List.mem_range]
  exact ⟨x.toNat, x.isLt, by simp⟩

theorem symbols_nodup : symbols.Nodup := by
  refine List.Nodup.map_on (fun a ha b hb h => ?_) List.nodup_range
  have := congrArg BitVec.toNat h
  rw [List.mem_range] at ha hb
  rwa [BitVec.toNat_ofNat, BitVec.toNat_ofNat, Nat.mod_eq_of_lt ha, Nat.mod_eq_of_lt hb] at this

/-- The symbols stand in ascending order. -/
theorem symbols_ascending : symbols.Pairwise fun x y => x.toNat < y.toNat := by
  rw [symbols, List.pairwise_map]
  refine List.Pairwise.imp_of_mem (fun ha hb h => ?_) (List.pairwise_lt_range (n := 256))
  rw [List.mem_range] at ha hb
  rwa [BitVec.toNat_ofNat, BitVec.toNat_ofNat, Nat.mod_eq_of_lt ha, Nat.mod_eq_of_lt hb]

/-- Two tables with the same entries are equal. -/
theorem Table.ext {w : Nat} {t u : Table w} (h : ∀ x, t.get x = u.get x) : t = u := by
  apply Vector.ext
  intro i hi
  have := h (BitVec.ofNat 8 i)
  simpa [Table.get, Nat.mod_eq_of_lt hi] using this

end Sys2Proof.Machine
end

