-- ==== Sys2Proof/Laws/Codec.lean ====
section
/-! SUPPORT. The codebook, the greedy matcher and the PackedStream, each function's specification said once. -/

namespace Sys2Proof.Machine

/-! ### The codebook -/

@[simp] theorem length_codeOf (len : Table 8) (bits : Table 256) (x : Sym) :
    (codeOf len bits x).length = (len.get x).toNat := by simp [codeOf]

/-- 10_state.md R56: a symbol has a codeword exactly when its length is not 0. -/
theorem codeOf_ne_nil (len : Table 8) (bits : Table 256) (x : Sym) : codeOf len bits x ≠ [] ↔ len.get x ≠ 0#8 := by
  rw [← List.length_pos_iff, length_codeOf, Nat.pos_iff_ne_zero, not_iff_not, BitVec.toNat_eq]
  rfl

theorem mem_codebook (len : Table 8) (bits : Table 256) (e : Sym × Bits) :
    e ∈ codebook len bits ↔ len.get e.1 ≠ 0#8 ∧ e.2 = codeOf len bits e.1 := by
  obtain ⟨x, c⟩ := e
  simp only [codebook, List.mem_map, List.mem_filter, mem_symbols, true_and, bne_iff_ne, Prod.mk.injEq]
  constructor
  · rintro ⟨y, hy, rfl, rfl⟩; exact ⟨hy, rfl⟩
  · rintro ⟨hx, rfl⟩; exact ⟨x, hx, rfl, rfl⟩

/-- R59: what the reverse codebook answers has that codeword. -/
theorem rcb_eq_some {len : Table 8} {bits : Table 256} {c : Bits} {x : Sym}
    (h : rcb (codebook len bits) c = some x) : len.get x ≠ 0#8 ∧ codeOf len bits x = c := by
  simp only [rcb, Option.map_eq_some_iff] at h
  obtain ⟨e, he, rfl⟩ := h
  have hm := (mem_codebook len bits e).mp (List.mem_of_find?_eq_some he)
  have hc := List.find?_some he
  exact ⟨hm.1, by rw [← hm.2]; exact eq_of_beq hc⟩

/-- R59: the reverse codebook is undefined only on strings that are no codeword. -/
theorem rcb_eq_none {len : Table 8} {bits : Table 256} {c : Bits} (h : rcb (codebook len bits) c = none) (x : Sym)
    (hx : len.get x ≠ 0#8) : codeOf len bits x ≠ c := by
  simp only [rcb, Option.map_eq_none_iff, List.find?_eq_none] at h
  intro hc
  exact h (x, c) ((mem_codebook len bits (x, c)).mpr ⟨hx, hc.symm⟩) (by simp)

/-- R59: with no symbol's codeword a prefix of another's, the reverse codebook inverts the codebook. -/
theorem rcb_codeOf {len : Table 8} {bits : Table 256}
    (hpf : ∀ x y, len.get x ≠ 0#8 → len.get y ≠ 0#8 → x ≠ y → ¬ (codeOf len bits x) <+: (codeOf len bits y))
    {x : Sym} (hx : len.get x ≠ 0#8) : rcb (codebook len bits) (codeOf len bits x) = some x := by
  cases h : rcb (codebook len bits) (codeOf len bits x) with
  | none => exact absurd rfl (rcb_eq_none h x hx)
  | some y =>
    obtain ⟨hy, hc⟩ := rcb_eq_some h
    by_cases hxy : y = x
    · rw [hxy]
    · exact absurd (hc ▸ List.prefix_refl _) (hpf y x hy hx hxy)

/-! ### Greedy matching (44_decoder.md R263) -/

/-- The symbols emitted have codewords, and with the candidate left they account for every bit read. -/
theorem greedy_sound (len : Table 8) (bits : Table 256) (cs cand : Bits) :
    (∀ x ∈ (greedy (codebook len bits) cs cand).1, len.get x ≠ 0#8) ∧
    cand ++ cs = (greedy (codebook len bits) cs cand).1.flatMap (codeOf len bits) ++
      (greedy (codebook len bits) cs cand).2 := by
  induction cs generalizing cand with
  | nil => simp [greedy]
  | cons c cs ih =>
    unfold greedy
    split
    · next x hx =>
      obtain ⟨h1, h2⟩ := rcb_eq_some hx
      obtain ⟨i1, i2⟩ := ih []
      refine ⟨fun y hy => ?_, ?_⟩
      · rcases List.mem_cons.mp hy with rfl | hy
        · exact h1
        · exact i1 y hy
      · rw [List.flatMap_cons, h2, List.append_assoc, ← i2]; simp
    · obtain ⟨i1, i2⟩ := ih (cand ++ [c])
      exact ⟨i1, by rw [← i2]; simp⟩

/-- Bits that complete no codeword join the candidate. -/
theorem greedy_append_of_none (book : List (Sym × Bits)) (bs cs cand : Bits)
    (h : ∀ k, k < bs.length → rcb book (cand ++ bs.take (k + 1)) = none) :
    greedy book (bs ++ cs) cand = greedy book cs (cand ++ bs) := by
  induction bs generalizing cand with
  | nil => simp
  | cons b bs ih =>
    have h0 : rcb book (cand ++ [b]) = none := by simpa using h 0 (by simp)
    rw [List.cons_append, greedy, h0]
    simp only
    rw [ih (cand ++ [b]) (fun k hk => ?_)]
    · simp
    · simpa using h (k + 1) (by simpa using hk)

/-- R269: with a prefix-free codebook, one codeword is matched exactly where it ends. -/
theorem greedy_codeOf {len : Table 8} {bits : Table 256}
    (hpf : ∀ x y, len.get x ≠ 0#8 → len.get y ≠ 0#8 → x ≠ y → ¬ (codeOf len bits x) <+: (codeOf len bits y))
    {x : Sym} (hx : len.get x ≠ 0#8) (cs : Bits) :
    greedy (codebook len bits) (codeOf len bits x ++ cs) [] =
      (x :: (greedy (codebook len bits) cs []).1, (greedy (codebook len bits) cs []).2) := by
  obtain ⟨c0, c, hc⟩ : ∃ c0 c, codeOf len bits x = c0 ++ [c] := by
    have := (codeOf_ne_nil len bits x).mpr hx
    exact ⟨_, _, (List.dropLast_append_getLast this).symm⟩
  have hnone : ∀ k, k < c0.length → rcb (codebook len bits) ([] ++ c0.take (k + 1)) = none := by
    intro k hk
    cases h : rcb (codebook len bits) ([] ++ c0.take (k + 1)) with
    | none => rfl
    | some y =>
      obtain ⟨hy, hcy⟩ := rcb_eq_some h
      have hlt : (codeOf len bits y).length ≤ c0.length := by
        rw [hcy, List.nil_append, List.length_take]; omega
      by_cases hxy : y = x
      · subst hxy; rw [hc, List.length_append, List.length_singleton] at hlt; omega
      · refine absurd ?_ (hpf y x hy hx hxy)
        rw [hcy, hc, List.nil_append]
        exact (List.take_prefix _ _).trans (List.prefix_append _ _)
  rw [hc, List.append_assoc, greedy_append_of_none _ _ _ _ hnone, List.singleton_append, greedy, List.nil_append,
    ← hc, rcb_codeOf hpf hx]

/-- R269: with a prefix-free codebook, the codewords of `out` decode to `out`. -/
theorem greedy_flatMap {len : Table 8} {bits : Table 256}
    (hpf : ∀ x y, len.get x ≠ 0#8 → len.get y ≠ 0#8 → x ≠ y → ¬ (codeOf len bits x) <+: (codeOf len bits y))
    (out : List Sym) (hout : ∀ x ∈ out, len.get x ≠ 0#8) (cs : Bits) :
    greedy (codebook len bits) (out.flatMap (codeOf len bits) ++ cs) [] =
      (out ++ (greedy (codebook len bits) cs []).1, (greedy (codebook len bits) cs []).2) := by
  induction out with
  | nil => simp
  | cons x out ih =>
    rw [List.flatMap_cons, List.append_assoc, greedy_codeOf hpf (hout x (by simp)),
      ih (fun y hy => hout y (by simp [hy]))]
    rfl

/-! ### The PackedStream (43_encoder.md R233, R234) -/

theorem padLen_lt (L : Nat) : padLen L < 8 := by unfold padLen; omega

theorem add_padLen (L : Nat) : L + padLen L = 8 * payloadBytes L := by unfold payloadBytes padLen; omega

theorem payloadBytes_eq (L : Nat) : payloadBytes L = (L + 7) / 8 := by unfold payloadBytes padLen; omega

@[simp] theorem length_padded (c : Bits) : (padded c).length = 8 * payloadBytes c.length := by
  simp [padded, add_padLen]

@[simp] theorem length_packedStream (c : Bits) : (packedStream c).length = 1 + payloadBytes c.length := by
  simp [packedStream, Nat.add_comm]

/-- 44_decoder.md R262: unpacking undoes packing, whatever the payload. -/
theorem unpackStream_packedStream (c : Bits) : unpackStream (packedStream c) = some (padLen c.length, c) := by
  have hp := padLen_lt c.length
  have hs := add_padLen c.length
  have hb : bytesToBits (bitsToBytes (payloadBytes c.length) (padded c)) = padded c :=
    bytesToBits_bitsToBytes _ _ (length_padded c)
  have hh : (BitVec.ofNat 8 (padLen c.length)).toNat = padLen c.length := by
    rw [BitVec.toNat_ofNat]; omega
  simp only [packedStream, unpackStream, hb, hh, length_padded]
  rw [if_neg (by omega), if_neg (by omega), ← hs, Nat.add_sub_cancel]
  simp [padded]

end Sys2Proof.Machine
end

