-- ==== Sys2Proof/Laws/Commands.lean ====
section
/-! SUPPORT. What COUNT's counters, the queue's `extract_min` and GEN_CODES's tables hold, each said once. -/

namespace Sys2Proof.Machine

/-! ### COUNT -/

theorem countBytes_foldl (bs : List Byte) (t : Table 32) (x : Sym) :
    (bs.foldl bump t).get x = t.get x + BitVec.ofNat 32 (bs.count x) := by
  induction bs generalizing t with
  | nil => simp
  | cons b bs ih =>
    rw [List.foldl_cons, ih, bump, Table.get_put, List.count_cons]
    by_cases h : x = b
    · subst h
      simp only [if_true, beq_self_eq_true, BitVec.ofNat_add]
      rw [BitVec.add_assoc, BitVec.add_comm 1#32]
    · simp [h, Ne.symm h]

/-- 40_frequency_counter.md R150: each counter holds the number of times its symbol occurs. -/
theorem countBytes_get (bs : List Byte) (x : Sym) : (countBytes bs).get x = BitVec.ofNat 32 (bs.count x) := by
  rw [countBytes, countBytes_foldl, Table.get_zero]; simp

/-! ### The priority queue (41_tree_builder.md R173) -/

theorem extractMin_perm (x : QEntry) (q : List QEntry) :
    ((extractMin x q).1 :: (extractMin x q).2).Perm (x :: q) := by
  induction q generalizing x with
  | nil => exact List.Perm.refl _
  | cons y q ih =>
    unfold extractMin
    split
    · exact (List.Perm.swap _ _ _).trans (((ih x).cons y).trans (List.Perm.swap _ _ _))
    · exact (List.Perm.swap _ _ _).trans ((ih y).cons x)

theorem QEntry.precedes_iff (x y : QEntry) : x.precedes y = true ↔
    x.weight.toNat < y.weight.toNat ∨ (x.weight.toNat = y.weight.toNat ∧ x.seq < y.seq) := by
  simp [QEntry.precedes, BitVec.toNat_eq]

/-- Two entries with different sequence numbers are ordered one way or the other (R178). -/
theorem QEntry.precedes_total {x y : QEntry} (h : x.precedes y = false) : y.precedes x = true ∨ x.seq = y.seq := by
  rw [← Bool.not_eq_true, QEntry.precedes_iff] at h
  rw [QEntry.precedes_iff]
  omega

theorem QEntry.precedes_trans {x y z : QEntry} (h1 : x.precedes y = true) (h2 : y.precedes z = true) :
    x.precedes z = true := by
  rw [QEntry.precedes_iff] at *; omega

/-- R173: `extract_min` answers an entry that precedes every other, when sequence numbers are distinct. -/
theorem extractMin_least (x : QEntry) (q : List QEntry) (hd : ((x :: q).map QEntry.seq).Nodup) :
    ∀ e ∈ (extractMin x q).2, (extractMin x q).1.precedes e = true := by
  induction q generalizing x with
  | nil => simp [extractMin]
  | cons y q ih =>
    have hxq : ((x :: q).map QEntry.seq).Nodup := by
      simp only [List.map_cons, List.nodup_cons, List.mem_cons, not_or] at hd ⊢; tauto
    have hyq : ((y :: q).map QEntry.seq).Nodup := by
      simp only [List.map_cons, List.nodup_cons] at hd ⊢; tauto
    have hne : x.seq ≠ y.seq := by
      simp only [List.map_cons, List.nodup_cons, List.mem_cons, not_or] at hd; tauto
    have first : ∀ z, ((z :: q).map QEntry.seq).Nodup → (∀ e ∈ (extractMin z q).2, (extractMin z q).1.precedes e = true) →
        (extractMin z q).1 = z ∨ (extractMin z q).1.precedes z = true := by
      intro z _ hz
      have hmem : z ∈ (extractMin z q).1 :: (extractMin z q).2 := (extractMin_perm z q).mem_iff.mpr (by simp)
      rcases List.mem_cons.mp hmem with h | h
      · exact .inl h.symm
      · exact .inr (hz z h)
    unfold extractMin
    split
    · next hxy =>
      intro e he
      rcases List.mem_cons.mp he with rfl | he
      · rcases first x hxq (ih x hxq) with h | h
        · simp only [h, hxy]
        · exact QEntry.precedes_trans h hxy
      · exact ih x hxq e he
    · next hxy =>
      have hyx : y.precedes x = true := by
        rcases QEntry.precedes_total (by simpa using hxy) with h | h
        · exact h
        · exact absurd h hne
      intro e he
      rcases List.mem_cons.mp he with rfl | he
      · rcases first y hyq (ih y hyq) with h | h
        · simp only [h, hyx]
        · exact QEntry.precedes_trans h hyx
      · exact ih y hyq e he

/-! ### GEN_CODES's tables (42_code_table.md R200) -/

theorem foldl_put_get {w : Nat} (f : Sym × Bits → BitVec w) (codes : List (Sym × Bits)) (t : Table w) (x : Sym)
    (h : x ∉ codes.map Prod.fst) : (codes.foldl (fun t e => t.put e.1 (f e)) t).get x = t.get x := by
  induction codes generalizing t with
  | nil => rfl
  | cons e codes ih =>
    simp only [List.map_cons, List.mem_cons, not_or] at h
    rw [List.foldl_cons, ih _ h.2, Table.get_put_ne _ _ _ _ h.1]

theorem foldl_put_get_mem {w : Nat} (f : Sym × Bits → BitVec w) (codes : List (Sym × Bits)) (t : Table w)
    (hd : (codes.map Prod.fst).Nodup) {x : Sym} {c : Bits} (h : (x, c) ∈ codes) :
    (codes.foldl (fun t e => t.put e.1 (f e)) t).get x = f (x, c) := by
  induction codes generalizing t with
  | nil => simp at h
  | cons e codes ih =>
    simp only [List.map_cons, List.nodup_cons] at hd
    rw [List.foldl_cons]
    rcases List.mem_cons.mp h with rfl | h
    · rw [foldl_put_get f codes _ _ hd.1, Table.get_put_same]
    · exact ih _ hd.2 h

/-- A symbol without a leaf has length 0. -/
theorem lenTable_get_of_not_mem (codes : List (Sym × Bits)) (x : Sym) (h : x ∉ codes.map Prod.fst) :
    (lenTable codes).get x = 0#8 := by
  rw [lenTable, foldl_put_get (fun e => BitVec.ofNat 8 e.2.length) codes _ x h, Table.get_zero]

theorem bitsTable_get_of_not_mem (codes : List (Sym × Bits)) (x : Sym) (h : x ∉ codes.map Prod.fst) :
    (bitsTable codes).get x = 0#256 := by
  rw [bitsTable, foldl_put_get (fun e => BitVec.ofNat 256 (val e.2)) codes _ x h, Table.get_zero]

/-- A symbol of the tree has its path's length and value. -/
theorem lenTable_get_of_mem {codes : List (Sym × Bits)} (hd : (codes.map Prod.fst).Nodup) {x : Sym} {c : Bits}
    (h : (x, c) ∈ codes) : (lenTable codes).get x = BitVec.ofNat 8 c.length :=
  foldl_put_get_mem (fun e => BitVec.ofNat 8 e.2.length) codes _ hd h

theorem bitsTable_get_of_mem {codes : List (Sym × Bits)} (hd : (codes.map Prod.fst).Nodup) {x : Sym} {c : Bits}
    (h : (x, c) ∈ codes) : (bitsTable codes).get x = BitVec.ofNat 256 (val c) :=
  foldl_put_get_mem (fun e => BitVec.ofNat 256 (val e.2)) codes _ hd h

end Sys2Proof.Machine
end

