-- ==== Sys2Proof/Laws/State.lean ====
section
/-! SUPPORT. One lemma for each field of State under each named update, all by `rfl`. -/

namespace Sys2Proof.Machine

variable (s : State)

/-! ### issue -/

@[simp] theorem State.issue_busy (v : Word) : (s.issue v).busy = true := rfl
@[simp] theorem State.issue_curCmd (v : Word) : (s.issue v).curCmd = v := rfl
@[simp] theorem State.issue_done (v : Word) : (s.issue v).done = false := rfl
@[simp] theorem State.issue_irqEn (v : Word) : (s.issue v).irqEn = s.irqEn := rfl
@[simp] theorem State.issue_errCode (v : Word) : (s.issue v).errCode = 0#8 := rfl
@[simp] theorem State.issue_treeValid (v : Word) : (s.issue v).treeValid = s.treeValid := rfl
@[simp] theorem State.issue_codesValid (v : Word) : (s.issue v).codesValid = s.codesValid := rfl
@[simp] theorem State.issue_inLen (v : Word) : (s.issue v).inLen = s.inLen := rfl
@[simp] theorem State.issue_outLen (v : Word) : (s.issue v).outLen = s.outLen := rfl
@[simp] theorem State.issue_nsym (v : Word) : (s.issue v).nsym = s.nsym := rfl
@[simp] theorem State.issue_maxLen (v : Word) : (s.issue v).maxLen = s.maxLen := rfl
@[simp] theorem State.issue_payloadBits (v : Word) : (s.issue v).payloadBits = s.payloadBits := rfl
@[simp] theorem State.issue_pad (v : Word) : (s.issue v).pad = s.pad := rfl
@[simp] theorem State.issue_freq (v : Word) : (s.issue v).freq = s.freq := rfl
@[simp] theorem State.issue_codeLen (v : Word) : (s.issue v).codeLen = s.codeLen := rfl
@[simp] theorem State.issue_codeBits (v : Word) : (s.issue v).codeBits = s.codeBits := rfl
@[simp] theorem State.issue_tree (v : Word) : (s.issue v).tree = s.tree := rfl
@[simp] theorem State.issue_inBuf (v : Word) : (s.issue v).inBuf = s.inBuf := rfl
@[simp] theorem State.issue_outBuf (v : Word) : (s.issue v).outBuf = s.outBuf := rfl
@[simp] theorem State.issue_cfg (v : Word) : (s.issue v).cfg = s.cfg := rfl
@[simp] theorem State.issue_free (v : Word) : (s.issue v).free = s.free := rfl
@[simp] theorem State.issue_moves (v : Word) : (s.issue v).moves = s.moves := rfl
@[simp] theorem State.issue_lastRead (v : Word) : (s.issue v).lastRead = s.lastRead := rfl

/-! ### complete -/

@[simp] theorem State.complete_busy (e : Option Err) : (s.complete e).busy = false := rfl
@[simp] theorem State.complete_curCmd (e : Option Err) : (s.complete e).curCmd = Config.freeWord s.free := rfl
@[simp] theorem State.complete_done (e : Option Err) : (s.complete e).done = true := rfl
@[simp] theorem State.complete_irqEn (e : Option Err) : (s.complete e).irqEn = s.irqEn := rfl
@[simp] theorem State.complete_errCode (e : Option Err) : (s.complete e).errCode = resultCode e := rfl
@[simp] theorem State.complete_treeValid (e : Option Err) : (s.complete e).treeValid = s.treeValid := rfl
@[simp] theorem State.complete_codesValid (e : Option Err) : (s.complete e).codesValid = s.codesValid := rfl
@[simp] theorem State.complete_inLen (e : Option Err) : (s.complete e).inLen = s.inLen := rfl
@[simp] theorem State.complete_outLen (e : Option Err) : (s.complete e).outLen = s.outLen := rfl
@[simp] theorem State.complete_nsym (e : Option Err) : (s.complete e).nsym = s.nsym := rfl
@[simp] theorem State.complete_maxLen (e : Option Err) : (s.complete e).maxLen = s.maxLen := rfl
@[simp] theorem State.complete_payloadBits (e : Option Err) : (s.complete e).payloadBits = s.payloadBits := rfl
@[simp] theorem State.complete_pad (e : Option Err) : (s.complete e).pad = s.pad := rfl
@[simp] theorem State.complete_freq (e : Option Err) : (s.complete e).freq = s.freq := rfl
@[simp] theorem State.complete_codeLen (e : Option Err) : (s.complete e).codeLen = s.codeLen := rfl
@[simp] theorem State.complete_codeBits (e : Option Err) : (s.complete e).codeBits = s.codeBits := rfl
@[simp] theorem State.complete_tree (e : Option Err) : (s.complete e).tree = s.tree := rfl
@[simp] theorem State.complete_inBuf (e : Option Err) : (s.complete e).inBuf = s.inBuf := rfl
@[simp] theorem State.complete_outBuf (e : Option Err) : (s.complete e).outBuf = s.outBuf := rfl
@[simp] theorem State.complete_cfg (e : Option Err) : (s.complete e).cfg = s.cfg := rfl
@[simp] theorem State.complete_free (e : Option Err) : (s.complete e).free = s.free + 1 := rfl
@[simp] theorem State.complete_moves (e : Option Err) : (s.complete e).moves = s.moves := rfl
@[simp] theorem State.complete_lastRead (e : Option Err) : (s.complete e).lastRead = s.lastRead := rfl

/-! ### invalidate -/

@[simp] theorem State.invalidate_busy : (s.invalidate).busy = s.busy := rfl
@[simp] theorem State.invalidate_curCmd : (s.invalidate).curCmd = s.curCmd := rfl
@[simp] theorem State.invalidate_done : (s.invalidate).done = s.done := rfl
@[simp] theorem State.invalidate_irqEn : (s.invalidate).irqEn = s.irqEn := rfl
@[simp] theorem State.invalidate_errCode : (s.invalidate).errCode = s.errCode := rfl
@[simp] theorem State.invalidate_treeValid : (s.invalidate).treeValid = false := rfl
@[simp] theorem State.invalidate_codesValid : (s.invalidate).codesValid = false := rfl
@[simp] theorem State.invalidate_inLen : (s.invalidate).inLen = s.inLen := rfl
@[simp] theorem State.invalidate_outLen : (s.invalidate).outLen = s.outLen := rfl
@[simp] theorem State.invalidate_nsym : (s.invalidate).nsym = 0#32 := rfl
@[simp] theorem State.invalidate_maxLen : (s.invalidate).maxLen = 0#32 := rfl
@[simp] theorem State.invalidate_payloadBits : (s.invalidate).payloadBits = s.payloadBits := rfl
@[simp] theorem State.invalidate_pad : (s.invalidate).pad = s.pad := rfl
@[simp] theorem State.invalidate_freq : (s.invalidate).freq = s.freq := rfl
@[simp] theorem State.invalidate_codeLen : (s.invalidate).codeLen = Table.zero 8 := rfl
@[simp] theorem State.invalidate_codeBits : (s.invalidate).codeBits = Table.zero 256 := rfl
@[simp] theorem State.invalidate_tree : (s.invalidate).tree = Config.freeTree s.free := rfl
@[simp] theorem State.invalidate_inBuf : (s.invalidate).inBuf = s.inBuf := rfl
@[simp] theorem State.invalidate_outBuf : (s.invalidate).outBuf = s.outBuf := rfl
@[simp] theorem State.invalidate_cfg : (s.invalidate).cfg = s.cfg := rfl
@[simp] theorem State.invalidate_free : (s.invalidate).free = s.free + 1 := rfl
@[simp] theorem State.invalidate_moves : (s.invalidate).moves = s.moves := rfl
@[simp] theorem State.invalidate_lastRead : (s.invalidate).lastRead = s.lastRead := rfl

/-! ### withResults -/

@[simp] theorem State.withResults_busy (n b : Nat) (p : BitVec 3) : (s.withResults n b p).busy = s.busy := rfl
@[simp] theorem State.withResults_curCmd (n b : Nat) (p : BitVec 3) : (s.withResults n b p).curCmd = s.curCmd := rfl
@[simp] theorem State.withResults_done (n b : Nat) (p : BitVec 3) : (s.withResults n b p).done = s.done := rfl
@[simp] theorem State.withResults_irqEn (n b : Nat) (p : BitVec 3) : (s.withResults n b p).irqEn = s.irqEn := rfl
@[simp] theorem State.withResults_errCode (n b : Nat) (p : BitVec 3) : (s.withResults n b p).errCode = s.errCode := rfl
@[simp] theorem State.withResults_treeValid (n b : Nat) (p : BitVec 3) : (s.withResults n b p).treeValid = s.treeValid := rfl
@[simp] theorem State.withResults_codesValid (n b : Nat) (p : BitVec 3) : (s.withResults n b p).codesValid = s.codesValid := rfl
@[simp] theorem State.withResults_inLen (n b : Nat) (p : BitVec 3) : (s.withResults n b p).inLen = s.inLen := rfl
@[simp] theorem State.withResults_outLen (n b : Nat) (p : BitVec 3) : (s.withResults n b p).outLen = BitVec.ofNat 32 n := rfl
@[simp] theorem State.withResults_nsym (n b : Nat) (p : BitVec 3) : (s.withResults n b p).nsym = s.nsym := rfl
@[simp] theorem State.withResults_maxLen (n b : Nat) (p : BitVec 3) : (s.withResults n b p).maxLen = s.maxLen := rfl
@[simp] theorem State.withResults_payloadBits (n b : Nat) (p : BitVec 3) : (s.withResults n b p).payloadBits = BitVec.ofNat 32 b := rfl
@[simp] theorem State.withResults_pad (n b : Nat) (p : BitVec 3) : (s.withResults n b p).pad = p := rfl
@[simp] theorem State.withResults_freq (n b : Nat) (p : BitVec 3) : (s.withResults n b p).freq = s.freq := rfl
@[simp] theorem State.withResults_codeLen (n b : Nat) (p : BitVec 3) : (s.withResults n b p).codeLen = s.codeLen := rfl
@[simp] theorem State.withResults_codeBits (n b : Nat) (p : BitVec 3) : (s.withResults n b p).codeBits = s.codeBits := rfl
@[simp] theorem State.withResults_tree (n b : Nat) (p : BitVec 3) : (s.withResults n b p).tree = s.tree := rfl
@[simp] theorem State.withResults_inBuf (n b : Nat) (p : BitVec 3) : (s.withResults n b p).inBuf = s.inBuf := rfl
@[simp] theorem State.withResults_outBuf (n b : Nat) (p : BitVec 3) : (s.withResults n b p).outBuf = s.outBuf := rfl
@[simp] theorem State.withResults_cfg (n b : Nat) (p : BitVec 3) : (s.withResults n b p).cfg = s.cfg := rfl
@[simp] theorem State.withResults_free (n b : Nat) (p : BitVec 3) : (s.withResults n b p).free = s.free := rfl
@[simp] theorem State.withResults_moves (n b : Nat) (p : BitVec 3) : (s.withResults n b p).moves = s.moves := rfl
@[simp] theorem State.withResults_lastRead (n b : Nat) (p : BitVec 3) : (s.withResults n b p).lastRead = s.lastRead := rfl

/-! ### havocOut -/

@[simp] theorem State.havocOut_busy : (s.havocOut).busy = s.busy := rfl
@[simp] theorem State.havocOut_curCmd : (s.havocOut).curCmd = s.curCmd := rfl
@[simp] theorem State.havocOut_done : (s.havocOut).done = s.done := rfl
@[simp] theorem State.havocOut_irqEn : (s.havocOut).irqEn = s.irqEn := rfl
@[simp] theorem State.havocOut_errCode : (s.havocOut).errCode = s.errCode := rfl
@[simp] theorem State.havocOut_treeValid : (s.havocOut).treeValid = s.treeValid := rfl
@[simp] theorem State.havocOut_codesValid : (s.havocOut).codesValid = s.codesValid := rfl
@[simp] theorem State.havocOut_inLen : (s.havocOut).inLen = s.inLen := rfl
@[simp] theorem State.havocOut_outLen : (s.havocOut).outLen = s.outLen := rfl
@[simp] theorem State.havocOut_nsym : (s.havocOut).nsym = s.nsym := rfl
@[simp] theorem State.havocOut_maxLen : (s.havocOut).maxLen = s.maxLen := rfl
@[simp] theorem State.havocOut_payloadBits : (s.havocOut).payloadBits = s.payloadBits := rfl
@[simp] theorem State.havocOut_pad : (s.havocOut).pad = s.pad := rfl
@[simp] theorem State.havocOut_freq : (s.havocOut).freq = s.freq := rfl
@[simp] theorem State.havocOut_codeLen : (s.havocOut).codeLen = s.codeLen := rfl
@[simp] theorem State.havocOut_codeBits : (s.havocOut).codeBits = s.codeBits := rfl
@[simp] theorem State.havocOut_tree : (s.havocOut).tree = s.tree := rfl
@[simp] theorem State.havocOut_inBuf : (s.havocOut).inBuf = s.inBuf := rfl
@[simp] theorem State.havocOut_outBuf : (s.havocOut).outBuf = Memory.havoc s.cfg.outCap s.free := rfl
@[simp] theorem State.havocOut_cfg : (s.havocOut).cfg = s.cfg := rfl
@[simp] theorem State.havocOut_free : (s.havocOut).free = s.free + s.cfg.outCap := rfl
@[simp] theorem State.havocOut_moves : (s.havocOut).moves = s.moves := rfl
@[simp] theorem State.havocOut_lastRead : (s.havocOut).lastRead = s.lastRead := rfl

/-! ### writeOut -/

@[simp] theorem State.writeOut_busy (bs : List Byte) : (s.writeOut bs).busy = s.busy := rfl
@[simp] theorem State.writeOut_curCmd (bs : List Byte) : (s.writeOut bs).curCmd = s.curCmd := rfl
@[simp] theorem State.writeOut_done (bs : List Byte) : (s.writeOut bs).done = s.done := rfl
@[simp] theorem State.writeOut_irqEn (bs : List Byte) : (s.writeOut bs).irqEn = s.irqEn := rfl
@[simp] theorem State.writeOut_errCode (bs : List Byte) : (s.writeOut bs).errCode = s.errCode := rfl
@[simp] theorem State.writeOut_treeValid (bs : List Byte) : (s.writeOut bs).treeValid = s.treeValid := rfl
@[simp] theorem State.writeOut_codesValid (bs : List Byte) : (s.writeOut bs).codesValid = s.codesValid := rfl
@[simp] theorem State.writeOut_inLen (bs : List Byte) : (s.writeOut bs).inLen = s.inLen := rfl
@[simp] theorem State.writeOut_outLen (bs : List Byte) : (s.writeOut bs).outLen = s.outLen := rfl
@[simp] theorem State.writeOut_nsym (bs : List Byte) : (s.writeOut bs).nsym = s.nsym := rfl
@[simp] theorem State.writeOut_maxLen (bs : List Byte) : (s.writeOut bs).maxLen = s.maxLen := rfl
@[simp] theorem State.writeOut_payloadBits (bs : List Byte) : (s.writeOut bs).payloadBits = s.payloadBits := rfl
@[simp] theorem State.writeOut_pad (bs : List Byte) : (s.writeOut bs).pad = s.pad := rfl
@[simp] theorem State.writeOut_freq (bs : List Byte) : (s.writeOut bs).freq = s.freq := rfl
@[simp] theorem State.writeOut_codeLen (bs : List Byte) : (s.writeOut bs).codeLen = s.codeLen := rfl
@[simp] theorem State.writeOut_codeBits (bs : List Byte) : (s.writeOut bs).codeBits = s.codeBits := rfl
@[simp] theorem State.writeOut_tree (bs : List Byte) : (s.writeOut bs).tree = s.tree := rfl
@[simp] theorem State.writeOut_inBuf (bs : List Byte) : (s.writeOut bs).inBuf = s.inBuf := rfl
@[simp] theorem State.writeOut_outBuf (bs : List Byte) : (s.writeOut bs).outBuf = s.outBuf.writeList 0 bs := rfl
@[simp] theorem State.writeOut_cfg (bs : List Byte) : (s.writeOut bs).cfg = s.cfg := rfl
@[simp] theorem State.writeOut_free (bs : List Byte) : (s.writeOut bs).free = s.free := rfl
@[simp] theorem State.writeOut_moves (bs : List Byte) : (s.writeOut bs).moves = s.moves := rfl
@[simp] theorem State.writeOut_lastRead (bs : List Byte) : (s.writeOut bs).lastRead = s.lastRead := rfl

/-! ### afterInput -/

@[simp] theorem State.afterInput_busy : (s.afterInput).busy = s.busy := rfl
@[simp] theorem State.afterInput_curCmd : (s.afterInput).curCmd = s.curCmd := rfl
@[simp] theorem State.afterInput_done : (s.afterInput).done = s.done := rfl
@[simp] theorem State.afterInput_irqEn : (s.afterInput).irqEn = s.irqEn := rfl
@[simp] theorem State.afterInput_errCode : (s.afterInput).errCode = s.errCode := rfl
@[simp] theorem State.afterInput_treeValid : (s.afterInput).treeValid = s.treeValid := rfl
@[simp] theorem State.afterInput_codesValid : (s.afterInput).codesValid = s.codesValid := rfl
@[simp] theorem State.afterInput_inLen : (s.afterInput).inLen = s.inLen := rfl
@[simp] theorem State.afterInput_outLen : (s.afterInput).outLen = s.outLen := rfl
@[simp] theorem State.afterInput_nsym : (s.afterInput).nsym = s.nsym := rfl
@[simp] theorem State.afterInput_maxLen : (s.afterInput).maxLen = s.maxLen := rfl
@[simp] theorem State.afterInput_payloadBits : (s.afterInput).payloadBits = s.payloadBits := rfl
@[simp] theorem State.afterInput_pad : (s.afterInput).pad = s.pad := rfl
@[simp] theorem State.afterInput_freq : (s.afterInput).freq = s.freq := rfl
@[simp] theorem State.afterInput_codeLen : (s.afterInput).codeLen = s.codeLen := rfl
@[simp] theorem State.afterInput_codeBits : (s.afterInput).codeBits = s.codeBits := rfl
@[simp] theorem State.afterInput_tree : (s.afterInput).tree = s.tree := rfl
@[simp] theorem State.afterInput_inBuf : (s.afterInput).inBuf = s.inBuf := rfl
@[simp] theorem State.afterInput_outBuf : (s.afterInput).outBuf = s.outBuf := rfl
@[simp] theorem State.afterInput_cfg : (s.afterInput).cfg = s.cfg := rfl
@[simp] theorem State.afterInput_free : (s.afterInput).free = s.readInput.2 := rfl
@[simp] theorem State.afterInput_moves : (s.afterInput).moves = s.moves := rfl
@[simp] theorem State.afterInput_lastRead : (s.afterInput).lastRead = s.lastRead := rfl

/-! ### withTree -/

@[simp] theorem State.withTree_busy (n : Nat) (t : List Node) : (s.withTree n t).busy = s.busy := rfl
@[simp] theorem State.withTree_curCmd (n : Nat) (t : List Node) : (s.withTree n t).curCmd = s.curCmd := rfl
@[simp] theorem State.withTree_done (n : Nat) (t : List Node) : (s.withTree n t).done = s.done := rfl
@[simp] theorem State.withTree_irqEn (n : Nat) (t : List Node) : (s.withTree n t).irqEn = s.irqEn := rfl
@[simp] theorem State.withTree_errCode (n : Nat) (t : List Node) : (s.withTree n t).errCode = s.errCode := rfl
@[simp] theorem State.withTree_treeValid (n : Nat) (t : List Node) : (s.withTree n t).treeValid = true := rfl
@[simp] theorem State.withTree_codesValid (n : Nat) (t : List Node) : (s.withTree n t).codesValid = s.codesValid := rfl
@[simp] theorem State.withTree_inLen (n : Nat) (t : List Node) : (s.withTree n t).inLen = s.inLen := rfl
@[simp] theorem State.withTree_outLen (n : Nat) (t : List Node) : (s.withTree n t).outLen = s.outLen := rfl
@[simp] theorem State.withTree_nsym (n : Nat) (t : List Node) : (s.withTree n t).nsym = BitVec.ofNat 32 n := rfl
@[simp] theorem State.withTree_maxLen (n : Nat) (t : List Node) : (s.withTree n t).maxLen = s.maxLen := rfl
@[simp] theorem State.withTree_payloadBits (n : Nat) (t : List Node) : (s.withTree n t).payloadBits = s.payloadBits := rfl
@[simp] theorem State.withTree_pad (n : Nat) (t : List Node) : (s.withTree n t).pad = s.pad := rfl
@[simp] theorem State.withTree_freq (n : Nat) (t : List Node) : (s.withTree n t).freq = s.freq := rfl
@[simp] theorem State.withTree_codeLen (n : Nat) (t : List Node) : (s.withTree n t).codeLen = s.codeLen := rfl
@[simp] theorem State.withTree_codeBits (n : Nat) (t : List Node) : (s.withTree n t).codeBits = s.codeBits := rfl
@[simp] theorem State.withTree_tree (n : Nat) (t : List Node) : (s.withTree n t).tree = t := rfl
@[simp] theorem State.withTree_inBuf (n : Nat) (t : List Node) : (s.withTree n t).inBuf = s.inBuf := rfl
@[simp] theorem State.withTree_outBuf (n : Nat) (t : List Node) : (s.withTree n t).outBuf = s.outBuf := rfl
@[simp] theorem State.withTree_cfg (n : Nat) (t : List Node) : (s.withTree n t).cfg = s.cfg := rfl
@[simp] theorem State.withTree_free (n : Nat) (t : List Node) : (s.withTree n t).free = s.free := rfl
@[simp] theorem State.withTree_moves (n : Nat) (t : List Node) : (s.withTree n t).moves = s.moves := rfl
@[simp] theorem State.withTree_lastRead (n : Nat) (t : List Node) : (s.withTree n t).lastRead = s.lastRead := rfl

/-! ### withCodes -/

@[simp] theorem State.withCodes_busy (c : List (Sym × Bits)) : (s.withCodes c).busy = s.busy := rfl
@[simp] theorem State.withCodes_curCmd (c : List (Sym × Bits)) : (s.withCodes c).curCmd = s.curCmd := rfl
@[simp] theorem State.withCodes_done (c : List (Sym × Bits)) : (s.withCodes c).done = s.done := rfl
@[simp] theorem State.withCodes_irqEn (c : List (Sym × Bits)) : (s.withCodes c).irqEn = s.irqEn := rfl
@[simp] theorem State.withCodes_errCode (c : List (Sym × Bits)) : (s.withCodes c).errCode = s.errCode := rfl
@[simp] theorem State.withCodes_treeValid (c : List (Sym × Bits)) : (s.withCodes c).treeValid = s.treeValid := rfl
@[simp] theorem State.withCodes_codesValid (c : List (Sym × Bits)) : (s.withCodes c).codesValid = true := rfl
@[simp] theorem State.withCodes_inLen (c : List (Sym × Bits)) : (s.withCodes c).inLen = s.inLen := rfl
@[simp] theorem State.withCodes_outLen (c : List (Sym × Bits)) : (s.withCodes c).outLen = s.outLen := rfl
@[simp] theorem State.withCodes_nsym (c : List (Sym × Bits)) : (s.withCodes c).nsym = s.nsym := rfl
@[simp] theorem State.withCodes_maxLen (c : List (Sym × Bits)) : (s.withCodes c).maxLen = BitVec.ofNat 32 (maxLenOf (lenTable c)) := rfl
@[simp] theorem State.withCodes_payloadBits (c : List (Sym × Bits)) : (s.withCodes c).payloadBits = s.payloadBits := rfl
@[simp] theorem State.withCodes_pad (c : List (Sym × Bits)) : (s.withCodes c).pad = s.pad := rfl
@[simp] theorem State.withCodes_freq (c : List (Sym × Bits)) : (s.withCodes c).freq = s.freq := rfl
@[simp] theorem State.withCodes_codeLen (c : List (Sym × Bits)) : (s.withCodes c).codeLen = lenTable c := rfl
@[simp] theorem State.withCodes_codeBits (c : List (Sym × Bits)) : (s.withCodes c).codeBits = bitsTable c := rfl
@[simp] theorem State.withCodes_tree (c : List (Sym × Bits)) : (s.withCodes c).tree = s.tree := rfl
@[simp] theorem State.withCodes_inBuf (c : List (Sym × Bits)) : (s.withCodes c).inBuf = s.inBuf := rfl
@[simp] theorem State.withCodes_outBuf (c : List (Sym × Bits)) : (s.withCodes c).outBuf = s.outBuf := rfl
@[simp] theorem State.withCodes_cfg (c : List (Sym × Bits)) : (s.withCodes c).cfg = s.cfg := rfl
@[simp] theorem State.withCodes_free (c : List (Sym × Bits)) : (s.withCodes c).free = s.free := rfl
@[simp] theorem State.withCodes_moves (c : List (Sym × Bits)) : (s.withCodes c).moves = s.moves := rfl
@[simp] theorem State.withCodes_lastRead (c : List (Sym × Bits)) : (s.withCodes c).lastRead = s.lastRead := rfl

/-! ### writeCtrl -/

@[simp] theorem State.writeCtrl_busy (v : Word) : (s.writeCtrl v).busy = s.busy := rfl
@[simp] theorem State.writeCtrl_curCmd (v : Word) : (s.writeCtrl v).curCmd = s.curCmd := rfl
@[simp] theorem State.writeCtrl_done (v : Word) : (s.writeCtrl v).done = s.done := rfl
@[simp] theorem State.writeCtrl_irqEn (v : Word) : (s.writeCtrl v).irqEn = v.getLsbD 0 := rfl
@[simp] theorem State.writeCtrl_errCode (v : Word) : (s.writeCtrl v).errCode = s.errCode := rfl
@[simp] theorem State.writeCtrl_treeValid (v : Word) : (s.writeCtrl v).treeValid = s.treeValid := rfl
@[simp] theorem State.writeCtrl_codesValid (v : Word) : (s.writeCtrl v).codesValid = s.codesValid := rfl
@[simp] theorem State.writeCtrl_inLen (v : Word) : (s.writeCtrl v).inLen = s.inLen := rfl
@[simp] theorem State.writeCtrl_outLen (v : Word) : (s.writeCtrl v).outLen = s.outLen := rfl
@[simp] theorem State.writeCtrl_nsym (v : Word) : (s.writeCtrl v).nsym = s.nsym := rfl
@[simp] theorem State.writeCtrl_maxLen (v : Word) : (s.writeCtrl v).maxLen = s.maxLen := rfl
@[simp] theorem State.writeCtrl_payloadBits (v : Word) : (s.writeCtrl v).payloadBits = s.payloadBits := rfl
@[simp] theorem State.writeCtrl_pad (v : Word) : (s.writeCtrl v).pad = s.pad := rfl
@[simp] theorem State.writeCtrl_freq (v : Word) : (s.writeCtrl v).freq = s.freq := rfl
@[simp] theorem State.writeCtrl_codeLen (v : Word) : (s.writeCtrl v).codeLen = s.codeLen := rfl
@[simp] theorem State.writeCtrl_codeBits (v : Word) : (s.writeCtrl v).codeBits = s.codeBits := rfl
@[simp] theorem State.writeCtrl_tree (v : Word) : (s.writeCtrl v).tree = s.tree := rfl
@[simp] theorem State.writeCtrl_inBuf (v : Word) : (s.writeCtrl v).inBuf = s.inBuf := rfl
@[simp] theorem State.writeCtrl_outBuf (v : Word) : (s.writeCtrl v).outBuf = s.outBuf := rfl
@[simp] theorem State.writeCtrl_cfg (v : Word) : (s.writeCtrl v).cfg = s.cfg := rfl
@[simp] theorem State.writeCtrl_free (v : Word) : (s.writeCtrl v).free = s.free := rfl
@[simp] theorem State.writeCtrl_moves (v : Word) : (s.writeCtrl v).moves = s.moves := rfl
@[simp] theorem State.writeCtrl_lastRead (v : Word) : (s.writeCtrl v).lastRead = s.lastRead := rfl

/-! ### hostRead -/

@[simp] theorem hostRead_busy (off : Nat) : (hostRead s off).busy = s.busy := rfl
@[simp] theorem hostRead_curCmd (off : Nat) : (hostRead s off).curCmd = s.curCmd := rfl
@[simp] theorem hostRead_done (off : Nat) : (hostRead s off).done = s.done := rfl
@[simp] theorem hostRead_irqEn (off : Nat) : (hostRead s off).irqEn = s.irqEn := rfl
@[simp] theorem hostRead_errCode (off : Nat) : (hostRead s off).errCode = s.errCode := rfl
@[simp] theorem hostRead_treeValid (off : Nat) : (hostRead s off).treeValid = s.treeValid := rfl
@[simp] theorem hostRead_codesValid (off : Nat) : (hostRead s off).codesValid = s.codesValid := rfl
@[simp] theorem hostRead_inLen (off : Nat) : (hostRead s off).inLen = s.inLen := rfl
@[simp] theorem hostRead_outLen (off : Nat) : (hostRead s off).outLen = s.outLen := rfl
@[simp] theorem hostRead_nsym (off : Nat) : (hostRead s off).nsym = s.nsym := rfl
@[simp] theorem hostRead_maxLen (off : Nat) : (hostRead s off).maxLen = s.maxLen := rfl
@[simp] theorem hostRead_payloadBits (off : Nat) : (hostRead s off).payloadBits = s.payloadBits := rfl
@[simp] theorem hostRead_pad (off : Nat) : (hostRead s off).pad = s.pad := rfl
@[simp] theorem hostRead_freq (off : Nat) : (hostRead s off).freq = s.freq := rfl
@[simp] theorem hostRead_codeLen (off : Nat) : (hostRead s off).codeLen = s.codeLen := rfl
@[simp] theorem hostRead_codeBits (off : Nat) : (hostRead s off).codeBits = s.codeBits := rfl
@[simp] theorem hostRead_tree (off : Nat) : (hostRead s off).tree = s.tree := rfl
@[simp] theorem hostRead_inBuf (off : Nat) : (hostRead s off).inBuf = s.inBuf := rfl
@[simp] theorem hostRead_outBuf (off : Nat) : (hostRead s off).outBuf = s.outBuf := rfl
@[simp] theorem hostRead_cfg (off : Nat) : (hostRead s off).cfg = s.cfg := rfl
@[simp] theorem hostRead_free (off : Nat) : (hostRead s off).free = (busRead s off).2 := rfl
@[simp] theorem hostRead_moves (off : Nat) : (hostRead s off).moves = s.moves := rfl
@[simp] theorem hostRead_lastRead (off : Nat) : (hostRead s off).lastRead = some (busRead s off).1 := rfl

/-! ### resetInput -/

@[simp] theorem State.resetInput_busy : (s.resetInput).busy = false := rfl
@[simp] theorem State.resetInput_curCmd : (s.resetInput).curCmd = 0#32 := rfl
@[simp] theorem State.resetInput_done : (s.resetInput).done = false := rfl
@[simp] theorem State.resetInput_irqEn : (s.resetInput).irqEn = false := rfl
@[simp] theorem State.resetInput_errCode : (s.resetInput).errCode = 0#8 := rfl
@[simp] theorem State.resetInput_treeValid : (s.resetInput).treeValid = false := rfl
@[simp] theorem State.resetInput_codesValid : (s.resetInput).codesValid = false := rfl
@[simp] theorem State.resetInput_inLen : (s.resetInput).inLen = 0#32 := rfl
@[simp] theorem State.resetInput_outLen : (s.resetInput).outLen = 0#32 := rfl
@[simp] theorem State.resetInput_nsym : (s.resetInput).nsym = 0#32 := rfl
@[simp] theorem State.resetInput_maxLen : (s.resetInput).maxLen = 0#32 := rfl
@[simp] theorem State.resetInput_payloadBits : (s.resetInput).payloadBits = 0#32 := rfl
@[simp] theorem State.resetInput_pad : (s.resetInput).pad = 0#3 := rfl
@[simp] theorem State.resetInput_freq : (s.resetInput).freq = Vector.replicate 256 0#32 := rfl
@[simp] theorem State.resetInput_codeLen : (s.resetInput).codeLen = Vector.replicate 256 0#8 := rfl
@[simp] theorem State.resetInput_codeBits : (s.resetInput).codeBits = Vector.replicate 256 0#256 := rfl
@[simp] theorem State.resetInput_tree : (s.resetInput).tree = [] := rfl
@[simp] theorem State.resetInput_inBuf : (s.resetInput).inBuf = [] := rfl
@[simp] theorem State.resetInput_outBuf : (s.resetInput).outBuf = [] := rfl
@[simp] theorem State.resetInput_cfg : (s.resetInput).cfg = s.cfg := rfl
@[simp] theorem State.resetInput_free : (s.resetInput).free = s.free := rfl
@[simp] theorem State.resetInput_moves : (s.resetInput).moves = s.moves := rfl
@[simp] theorem State.resetInput_lastRead : (s.resetInput).lastRead = s.lastRead := rfl

/-! ### writeStatus -/

@[simp] theorem State.writeStatus_done (v : Word) : (s.writeStatus v).done = if v.getLsbD 1 then false else s.done := by
  unfold State.writeStatus; split <;> rfl
@[simp] theorem State.writeStatus_busy (v : Word) : (s.writeStatus v).busy = s.busy := by
  unfold State.writeStatus; split <;> rfl
@[simp] theorem State.writeStatus_curCmd (v : Word) : (s.writeStatus v).curCmd = s.curCmd := by
  unfold State.writeStatus; split <;> rfl
@[simp] theorem State.writeStatus_irqEn (v : Word) : (s.writeStatus v).irqEn = s.irqEn := by
  unfold State.writeStatus; split <;> rfl
@[simp] theorem State.writeStatus_errCode (v : Word) : (s.writeStatus v).errCode = s.errCode := by
  unfold State.writeStatus; split <;> rfl
@[simp] theorem State.writeStatus_treeValid (v : Word) : (s.writeStatus v).treeValid = s.treeValid := by
  unfold State.writeStatus; split <;> rfl
@[simp] theorem State.writeStatus_codesValid (v : Word) : (s.writeStatus v).codesValid = s.codesValid := by
  unfold State.writeStatus; split <;> rfl
@[simp] theorem State.writeStatus_inLen (v : Word) : (s.writeStatus v).inLen = s.inLen := by
  unfold State.writeStatus; split <;> rfl
@[simp] theorem State.writeStatus_outLen (v : Word) : (s.writeStatus v).outLen = s.outLen := by
  unfold State.writeStatus; split <;> rfl
@[simp] theorem State.writeStatus_nsym (v : Word) : (s.writeStatus v).nsym = s.nsym := by
  unfold State.writeStatus; split <;> rfl
@[simp] theorem State.writeStatus_maxLen (v : Word) : (s.writeStatus v).maxLen = s.maxLen := by
  unfold State.writeStatus; split <;> rfl
@[simp] theorem State.writeStatus_payloadBits (v : Word) : (s.writeStatus v).payloadBits = s.payloadBits := by
  unfold State.writeStatus; split <;> rfl
@[simp] theorem State.writeStatus_pad (v : Word) : (s.writeStatus v).pad = s.pad := by
  unfold State.writeStatus; split <;> rfl
@[simp] theorem State.writeStatus_freq (v : Word) : (s.writeStatus v).freq = s.freq := by
  unfold State.writeStatus; split <;> rfl
@[simp] theorem State.writeStatus_codeLen (v : Word) : (s.writeStatus v).codeLen = s.codeLen := by
  unfold State.writeStatus; split <;> rfl
@[simp] theorem State.writeStatus_codeBits (v : Word) : (s.writeStatus v).codeBits = s.codeBits := by
  unfold State.writeStatus; split <;> rfl
@[simp] theorem State.writeStatus_tree (v : Word) : (s.writeStatus v).tree = s.tree := by
  unfold State.writeStatus; split <;> rfl
@[simp] theorem State.writeStatus_inBuf (v : Word) : (s.writeStatus v).inBuf = s.inBuf := by
  unfold State.writeStatus; split <;> rfl
@[simp] theorem State.writeStatus_outBuf (v : Word) : (s.writeStatus v).outBuf = s.outBuf := by
  unfold State.writeStatus; split <;> rfl
@[simp] theorem State.writeStatus_cfg (v : Word) : (s.writeStatus v).cfg = s.cfg := by
  unfold State.writeStatus; split <;> rfl
@[simp] theorem State.writeStatus_free (v : Word) : (s.writeStatus v).free = s.free := by
  unfold State.writeStatus; split <;> rfl
@[simp] theorem State.writeStatus_moves (v : Word) : (s.writeStatus v).moves = s.moves := by
  unfold State.writeStatus; split <;> rfl
@[simp] theorem State.writeStatus_lastRead (v : Word) : (s.writeStatus v).lastRead = s.lastRead := by
  unfold State.writeStatus; split <;> rfl

end Sys2Proof.Machine
end

