-- ==== Sys2Proof/Laws/Lifecycle.lean ====
section
/-! SUPPORT. What a completion step and a step can do, said once: each command is its body and the completion bookkeeping
(60_exceptions.md R319), and each step is one agent's move. -/

namespace Sys2Proof.Machine

/-- The body of each command: its rule's pseudocode. -/
def bodyOf : Instr → State → Ended
  | .count => countBody
  | .buildTree => buildTreeBody
  | .genCodes => genCodesBody
  | .buildCodec => buildCodecBody
  | .encode => encodeBody
  | .decode => decodeBody

/-- R319: every command ends in a next state, its body's with the bookkeeping done. -/
theorem exec_eq (i : Instr) (s : State) : exec i s = .next (bodyOf i s).complete := by cases i <;> rfl

@[simp] theorem raiseErr_state (e : Err) (s : State) : (raiseErr e s).state = s := rfl
@[simp] theorem raiseErr_error (e : Err) (s : State) : (raiseErr e s).error = some e := rfl
@[simp] theorem finished_state (s : State) : (finished s).state = s := rfl
@[simp] theorem finished_error (s : State) : (finished s).error = none := rfl
@[simp] theorem codecError_error (e : Err) (s : State) : (codecError e s).error = some e := rfl
@[simp] theorem codecError_state (e : Err) (s : State) :
    (codecError e s).state = (s.withResults 0 0 0#3).havocOut := rfl
@[simp] theorem resultCode_none : resultCode none = 0#8 := rfl
@[simp] theorem resultCode_some (e : Err) : resultCode (some e) = e.code := rfl

theorem Ended.complete_eq (r : Ended) : r.complete = r.state.complete r.error := rfl

theorem andThen_finished (s : State) (f : State → Ended) : (finished s).andThen f = f s := rfl
theorem andThen_raiseErr (e : Err) (s : State) (f : State → Ended) : (raiseErr e s).andThen f = raiseErr e s := rfl

/-- R310: every result code is at most 7, and 0 only for success. -/
theorem resultCode_le (e : Option Err) : (resultCode e).toNat ≤ 7 := by
  rcases e with _ | e
  · decide
  · cases e <;> decide

theorem resultCode_eq_zero (e : Option Err) : resultCode e = 0#8 ↔ e = none := by
  rcases e with _ | e
  · simp
  · cases e <;> simp [Err.code]

/-- COUNT's body: LENGTH_RANGE, or FREQ set to the counts of the input. -/
theorem countBody_cases (s : State) :
    (s.lengthOutOfRange = true ∧ countBody s = raiseErr .lengthRange s) ∨
    (s.lengthOutOfRange = false ∧ countBody s = finished { s.afterInput with freq := countBytes s.input }) := by
  unfold countBody; split <;> simp_all

/-- BUILD_TREE's body: EMPTY_INPUT, or the tree built from FREQ, on the invalidated state either way. -/
theorem buildTreeBody_cases (s : State) :
    (present s.freq = [] ∧ buildTreeBody s = raiseErr .emptyInput s.invalidate) ∨
    (present s.freq ≠ [] ∧
      buildTreeBody s = finished (s.invalidate.withTree (present s.freq).length (buildNodes s.freq))) := by
  unfold buildTreeBody
  simp only [List.isEmpty_iff]
  split <;> simp_all

/-- GEN_CODES's body: NO_TREE, or the tables of the tree. -/
theorem genCodesBody_cases (s : State) :
    (s.treeValid = false ∧ genCodesBody s = raiseErr .noTree s) ∨
    (s.treeValid = true ∧ genCodesBody s = finished (s.withCodes (treeCodes s.tree s.nsym.toNat))) := by
  unfold genCodesBody; split <;> simp_all

/-- What a step can do: an idle CORE with no move pending stays, a running command completes, or the first pending move
is taken. -/
theorem step_eq (s : State) :
    (s.moves = [] ∧ step s = engineTurn s) ∨
    (∃ m ms, s.moves = m :: ms ∧ step s = takeMove { s with moves := ms } m) := by
  unfold step
  cases h : s.moves with
  | nil => exact .inl ⟨rfl, rfl⟩
  | cons m ms => exact .inr ⟨m, ms, rfl, rfl⟩

theorem step_of_moves_nil {s : State} (h : s.moves = []) : step s = engineTurn s := by unfold step; rw [h]

theorem step_of_moves_cons {s : State} {m : Move} {ms : List Move} (h : s.moves = m :: ms) :
    step s = takeMove { s with moves := ms } m := by unfold step; rw [h]

/-- 60_exceptions.md R319: the engine's turn while BUSY = 1, when no move is pending or when the engine's is the first. -/
theorem step_of_engine {s : State} {ms : List Move} (hb : s.busy = true)
    (h : s.moves = [] ∧ ms = [] ∨ s.moves = .engine :: ms) : step s = engineStep { s with moves := ms } := by
  rcases h with ⟨h, rfl⟩ | h
  · rw [step_of_moves_nil h, engineTurn, if_pos hb, ← h]
  · rw [step_of_moves_cons h, takeMove, engineTurn, if_pos hb]

/-- 20_memory.md R81: an offset in the window. -/
theorem windowOffset_base_add (c : Config) (off : Nat) (h : off < 0x03000000) :
    windowOffset c (c.base + off) = some off := by
  unfold windowOffset
  rw [if_pos ⟨by omega, by simp only [Config.window]; omega⟩]
  simp

/-- 20_memory.md R81: a host address outside the window. -/
theorem windowOffset_eq_none (c : Config) (addr : Nat) :
    windowOffset c addr = none ↔ addr < c.base ∨ c.base + 0x03000000 ≤ addr := by
  unfold windowOffset Config.window
  split <;> simp <;> omega

/-- A host write in the window is one bus write. -/
theorem step_write {s : State} {ms : List Move} {off : Nat} {v : Word}
    (h : s.moves = .write (s.cfg.base + off) v :: ms) (hoff : off < 0x03000000) :
    step s = .next (busWrite { s with moves := ms } off v) := by
  rw [step_of_moves_cons h]; simp only [takeMove, windowOffset_base_add _ _ hoff]

/-- A host read in the window is one bus read. -/
theorem step_read {s : State} {ms : List Move} {off : Nat}
    (h : s.moves = .read (s.cfg.base + off) :: ms) (hoff : off < 0x03000000) :
    step s = .next (hostRead { s with moves := ms } off) := by
  rw [step_of_moves_cons h]; simp only [takeMove, windowOffset_base_add _ _ hoff]

end Sys2Proof.Machine
end

