-- ==== Sys2Proof/Laws/Memory.lean ====
section
/-! SUPPORT. Byte buffers: reads after writes, and every operation keeps the canonical form and the capacity. -/

namespace Sys2Proof.Machine

@[simp] theorem Memory.read?_nil (a : Nat) : Memory.read? [] a = none := rfl

theorem Memory.read?_cons (b : Nat) (w : Byte) (m : Memory) (a : Nat) :
    Memory.read? ((b, w) :: m) a = if a = b then some w else Memory.read? m a := rfl

@[simp] theorem Memory.read?_write_same (m : Memory) (a : Nat) (v : Byte) : (m.write a v).read? a = some v := by
  induction m with
  | nil => simp [Memory.write, Memory.read?]
  | cons c m ih =>
    obtain ⟨b, w⟩ := c
    unfold Memory.write
    split
    · simp [Memory.read?]
    · split
      · simp [Memory.read?]
      · next h => simpa [Memory.read?, h] using ih

theorem Memory.read?_write_ne (m : Memory) (a i : Nat) (v : Byte) (h : i ≠ a) :
    (m.write a v).read? i = m.read? i := by
  induction m with
  | nil => simp [Memory.write, Memory.read?, h]
  | cons c m ih =>
    obtain ⟨b, w⟩ := c
    unfold Memory.write
    split
    · simp [Memory.read?, h]
    · split
      · next h' => subst h'; simp [Memory.read?, h]
      · simp [Memory.read?, ih]

theorem Memory.read?_write (m : Memory) (a i : Nat) (v : Byte) :
    (m.write a v).read? i = if i = a then some v else m.read? i := by
  split
  · next h => subst h; simp
  · next h => exact Memory.read?_write_ne m a i v h

/-- The indices after a write: the old ones and the one written. -/
theorem Memory.mem_keys_write (m : Memory) (a : Nat) (v : Byte) (i : Nat) :
    i ∈ (m.write a v).map Prod.fst ↔ i = a ∨ i ∈ m.map Prod.fst := by
  induction m with
  | nil => simp [Memory.write]
  | cons c m ih =>
    obtain ⟨b, w⟩ := c
    unfold Memory.write
    split
    · simp
    · split
      · next h => subst h; simp
      · rw [List.map_cons, List.mem_cons, ih, List.map_cons, List.mem_cons]
        tauto

/-- A write keeps the canonical form. -/
theorem Memory.wf_write {m : Memory} (h : m.wf) (a : Nat) (v : Byte) : (m.write a v).wf := by
  induction m with
  | nil => simp [Memory.write, Memory.wf]
  | cons c m ih =>
    obtain ⟨b, w⟩ := c
    simp only [Memory.wf, List.map_cons, List.pairwise_cons] at h
    unfold Memory.write
    split
    · next hab =>
      simp only [Memory.wf, List.map_cons, List.pairwise_cons]
      refine ⟨fun i hi => ?_, h⟩
      rcases List.mem_cons.mp hi with rfl | hi
      · exact hab
      · exact Nat.lt_trans hab (h.1 i hi)
    · split
      · next hab => subst hab; simpa only [Memory.wf, List.map_cons, List.pairwise_cons] using h
      · next hlt hne =>
        simp only [Memory.wf, List.map_cons, List.pairwise_cons]
        refine ⟨fun i hi => ?_, ih h.2⟩
        rcases (Memory.mem_keys_write m a v i).mp hi with rfl | hi
        · exact Nat.lt_of_le_of_ne (Nat.le_of_not_lt hlt) (Ne.symm hne)
        · exact h.1 i hi

theorem Memory.below_iff (m : Memory) (cap : Nat) : m.below cap ↔ ∀ i ∈ m.map Prod.fst, i < cap := by
  simp [Memory.below]

/-- A write below a capacity keeps every index below it. -/
theorem Memory.below_write {m : Memory} {cap : Nat} (h : m.below cap) {a : Nat} (ha : a < cap) (v : Byte) :
    (m.write a v).below cap := by
  rw [Memory.below_iff] at h ⊢
  intro i hi
  rcases (Memory.mem_keys_write m a v i).mp hi with rfl | hi
  · exact ha
  · exact h i hi

theorem Memory.wf_writeList {m : Memory} (h : m.wf) (a : Nat) (vs : List Byte) : (m.writeList a vs).wf := by
  induction vs generalizing m a with
  | nil => exact h
  | cons v vs ih => exact ih (Memory.wf_write h a v) (a + 1)

theorem Memory.below_writeList {m : Memory} {cap : Nat} (h : m.below cap) (a : Nat) (vs : List Byte)
    (hv : a + vs.length ≤ cap) : (m.writeList a vs).below cap := by
  induction vs generalizing m a with
  | nil => exact h
  | cons v vs ih =>
    simp only [List.length_cons] at hv
    exact ih (Memory.below_write h (by omega) v) (a + 1) (by omega)

/-- 20_memory.md R95: the bytes written read back, and every other byte is as before. -/
theorem Memory.read?_writeList (m : Memory) (a : Nat) (vs : List Byte) (i : Nat) :
    (m.writeList a vs).read? i = if a ≤ i ∧ i < a + vs.length then vs[i - a]? else m.read? i := by
  induction vs generalizing m a with
  | nil => simp [Memory.writeList]
  | cons v vs ih =>
    rw [Memory.writeList, ih, Memory.read?_write, List.length_cons]
    by_cases h1 : a + 1 ≤ i ∧ i < a + 1 + vs.length
    · rw [if_pos h1, if_pos (by omega), show i - a = (i - (a + 1)) + 1 by omega, List.getElem?_cons_succ]
    · rw [if_neg h1]
      by_cases h2 : i = a
      · subst h2; simp
      · rw [if_neg h2, if_neg (by omega)]

theorem Memory.wf_writeLane {m : Memory} (h : m.wf) (cap a : Nat) (v : Byte) : (m.writeLane cap a v).wf := by
  unfold Memory.writeLane; split
  · exact Memory.wf_write h a v
  · exact h

theorem Memory.below_writeLane {m : Memory} {cap : Nat} (h : m.below cap) (a : Nat) (v : Byte) :
    (m.writeLane cap a v).below cap := by
  unfold Memory.writeLane; split
  · next ha => exact Memory.below_write h ha v
  · exact h

theorem Memory.read?_writeLane (m : Memory) (cap a : Nat) (v : Byte) (i : Nat) :
    (m.writeLane cap a v).read? i = if i = a ∧ a < cap then some v else m.read? i := by
  unfold Memory.writeLane; split
  · next h => simp [Memory.read?_write, h]
  · next h => simp [h]

/-- An IN window write keeps the canonical form. -/
theorem Memory.wf_writeWord {m : Memory} (h : m.wf) (cap k : Nat) (v : Word) : (m.writeWord cap k v).wf :=
  Memory.wf_writeLane (Memory.wf_writeLane (Memory.wf_writeLane (Memory.wf_writeLane h _ _ _) _ _ _) _ _ _) _ _ _

theorem Memory.below_writeWord {m : Memory} {cap : Nat} (h : m.below cap) (k : Nat) (v : Word) :
    (m.writeWord cap k v).below cap :=
  Memory.below_writeLane (Memory.below_writeLane (Memory.below_writeLane (Memory.below_writeLane h _ _) _ _) _ _) _ _

/-- The havoc buffer is in canonical form (60_exceptions.md R321). -/
theorem Memory.wf_havoc (cap free : Nat) : (Memory.havoc cap free).wf := by
  simp only [Memory.wf, Memory.havoc, List.map_map]
  simpa [Function.comp_def] using List.pairwise_lt_range (n := cap)

theorem Memory.below_havoc (cap free : Nat) : (Memory.havoc cap free).below cap := by
  simp [Memory.below, Memory.havoc]

theorem Memory.read?_map_range (f : Nat → Byte) (l : List Nat) (i : Nat) :
    Memory.read? (l.map fun k => (k, f k)) i = if i ∈ l then some (f i) else none := by
  induction l with
  | nil => simp
  | cons k l ih =>
    rw [List.map_cons, Memory.read?_cons, ih]
    by_cases h : i = k
    · subst h; simp
    · simp [h]

/-- After havoc every byte below the capacity holds a value (60_exceptions.md R321). -/
theorem Memory.read?_havoc (cap free i : Nat) :
    (Memory.havoc cap free).read? i = if i < cap then some (Config.freeByte (free + i)) else none := by
  simp [Memory.havoc, Memory.read?_map_range (fun k => Config.freeByte (free + k))]

/-! ### Reads -/

theorem Memory.readByte_some {m : Memory} {a : Nat} {b : Byte} (h : m.read? a = some b) (free : Nat) :
    m.readByte a free = (b, free) := by simp [Memory.readByte, h]

theorem Memory.readByte_none {m : Memory} {a : Nat} (h : m.read? a = none) (free : Nat) :
    m.readByte a free = (Config.freeByte free, free + 1) := by simp [Memory.readByte, h]

@[simp] theorem Memory.readList_length (m : Memory) (n a free : Nat) : (m.readList n a free).1.length = n := by
  induction n generalizing a free with
  | zero => rfl
  | succ n ih => simp [Memory.readList, ih]

/-- 20_memory.md R94: a byte that was written reads as last written, wherever the counter stands. -/
theorem Memory.readList_get_written {m : Memory} {n a free i : Nat} {b : Byte} (hi : i < n)
    (h : m.read? (a + i) = some b) : (m.readList n a free).1[i]? = some b := by
  induction n generalizing a free i with
  | zero => omega
  | succ n ih =>
    cases i with
    | zero => simp [Memory.readList, Memory.readByte_some (by simpa using h)]
    | succ i =>
      simp only [Memory.readList, List.getElem?_cons_succ]
      exact ih (by omega) (by rw [← h]; congr 1; omega)

/-- R94: reading n bytes draws one free value for each of them that nothing has written. -/
theorem Memory.readList_free (m : Memory) (n a free : Nat) :
    (m.readList n a free).2 = free + (List.range n).countP fun i => (m.read? (a + i)).isNone := by
  induction n generalizing a free with
  | zero => simp [Memory.readList]
  | succ n ih =>
    rw [Memory.readList, ih, List.range_succ_eq_map, List.countP_cons, List.countP_map]
    have : ((fun i => (m.read? (a + i)).isNone) ∘ Nat.succ) = fun i => (m.read? (a + 1 + i)).isNone := by
      funext i; simp only [Function.comp_apply]; congr 2; omega
    rw [this]
    cases h : m.read? a with
    | none => simp [Memory.readByte_none h]; omega
    | some b => simp [Memory.readByte_some h]

/-- R94: a byte nothing has written reads as the free value drawn in its turn. -/
theorem Memory.readList_get_unwritten {m : Memory} {n a free i : Nat} (hi : i < n) (h : m.read? (a + i) = none) :
    (m.readList n a free).1[i]? =
      some (Config.freeByte (free + (List.range i).countP fun k => (m.read? (a + k)).isNone)) := by
  induction n generalizing a free i with
  | zero => omega
  | succ n ih =>
    cases i with
    | zero => simp [Memory.readList, Memory.readByte_none (by simpa using h)]
    | succ i =>
      simp only [Memory.readList, List.getElem?_cons_succ]
      rw [ih (by omega) (by rw [← h]; congr 1; omega), List.range_succ_eq_map, List.countP_cons, List.countP_map]
      have : ((fun k => (m.read? (a + k)).isNone) ∘ Nat.succ) = fun k => (m.read? (a + 1 + k)).isNone := by
        funext k; simp only [Function.comp_apply]; congr 2; omega
      rw [this]
      cases h0 : m.read? a with
      | none => simp [Memory.readByte_none h0]; congr 1; omega
      | some b => simp [Memory.readByte_some h0]

end Sys2Proof.Machine
end

