-- ==== Sys2Proof/Laws/PerInstr.lean ====
section
/-! SUPPORT. Facts about every command as syntax, one lemma for each constructor. -/

namespace Sys2Proof.Laws

/-- The command's word is legal (30_encoding.md R120), and the command is well-formed. -/
def LegalWord.Statement (i : Instr) : Prop := CommandWord.legal (encode i) = true ∧ i.wf = true

theorem LegalWord.count : LegalWord.Statement .count := by unfold LegalWord.Statement; decide
theorem LegalWord.buildTree : LegalWord.Statement .buildTree := by unfold LegalWord.Statement; decide
theorem LegalWord.genCodes : LegalWord.Statement .genCodes := by unfold LegalWord.Statement; decide
theorem LegalWord.buildCodec : LegalWord.Statement .buildCodec := by unfold LegalWord.Statement; decide
theorem LegalWord.encode : LegalWord.Statement .encode := by unfold LegalWord.Statement; decide
theorem LegalWord.decode : LegalWord.Statement .decode := by unfold LegalWord.Statement; decide

end Sys2Proof.Laws
end

