-- ==== Sys2Proof/Tests/Slice0.lean ====
section
/-! SUPPORT. Tests and witnesses. Expected values come from 95_test_vectors.md, from the rule cited, or by hand from
them. A `witness_<Obligation>` theorem shows concrete states and operands that meet all hypotheses of that obligation,
clause by clause. -/

open Sys2Proof Sys2Proof.Machine

namespace Sys2Proof.Tests

/-! ### Well-formedness refuses each ill-formed term (00_scope.md R10, 30_encoding.md R120) -/

theorem test_wf_vectors : Config.vectors.wf = true := by decide
theorem test_wf_extremes : Config.wf ⟨1, 16777216, 0x04000000⟩ = true := by decide
theorem test_wf_refuses_inCap_zero : Config.wf ⟨0, 64, 0⟩ = false := by decide
theorem test_wf_refuses_inCap_large : Config.wf ⟨16777217, 64, 0⟩ = false := by decide
theorem test_wf_refuses_outCap_zero : Config.wf ⟨64, 0, 0⟩ = false := by decide
theorem test_wf_refuses_outCap_large : Config.wf ⟨64, 16777217, 0⟩ = false := by decide
theorem test_wf_refuses_base_misaligned : Config.wf ⟨64, 64, 0x02000000⟩ = false := by decide
theorem test_legal_refuses_reserved_bits :
    CommandWord.legal 0x00000105#32 = false ∧ CommandWord.legal 0x80000001#32 = false := by decide
theorem test_legal_refuses_opcode_zero : CommandWord.legal 0x00000000#32 = false := by decide
theorem test_legal_refuses_opcode_seven :
    CommandWord.legal 0x00000007#32 = false ∧ CommandWord.legal 0x000000FF#32 = false := by decide

/-! ### Decoding, the words written out from 30_encoding.md R121 and V-X1 to V-X5 -/

theorem test_decode_count : Sys2Proof.decode 0b00000000000000000000000000000001#32 = .ok .count := by decide
theorem test_decode_buildTree : Sys2Proof.decode 0b00000000000000000000000000000010#32 = .ok .buildTree := by decide
theorem test_decode_genCodes : Sys2Proof.decode 0b00000000000000000000000000000011#32 = .ok .genCodes := by decide
theorem test_decode_buildCodec : Sys2Proof.decode 0b00000000000000000000000000000100#32 = .ok .buildCodec := by decide
theorem test_decode_encode : Sys2Proof.decode 0b00000000000000000000000000000101#32 = .ok .encode := by decide
theorem test_decode_decode : Sys2Proof.decode 0b00000000000000000000000000000110#32 = .ok .decode := by decide
theorem test_decode_rejects_unassigned :
    Sys2Proof.decode 0x00000000#32 = .error .opcodeUnassigned ∧
    Sys2Proof.decode 0x00000007#32 = .error .opcodeUnassigned ∧
    Sys2Proof.decode 0x000000FF#32 = .error .opcodeUnassigned := by decide
theorem test_decode_rejects_reserved_bits :
    Sys2Proof.decode 0x00000105#32 = .error .reservedBitsSet ∧
    Sys2Proof.decode 0x80000001#32 = .error .reservedBitsSet := by decide
theorem test_decodeTableWord : decodeTableWord 32 5 = some .encode ∧ decodeTableWord 32 7 = none := by decide

/-! ### Small states -/

/-- After reset, with bytes written into IN from 0 and IN_LEN set to their number. -/
def loaded (bs : List Byte) : State :=
  { State.reset with inBuf := Memory.writeList [] 0 bs, inLen := BitVec.ofNat 32 bs.length }

/-- With FREQ entries set. -/
def withFreqs (es : List (Sym × Word)) (s : State) : State :=
  { s with freq := es.foldl (fun t e => t.put e.1 e.2) (Table.zero 32) }

/-- With a codebook of the given symbols, lengths and right-aligned bits. -/
def withBook (es : List (Sym × BitVec 8 × BitVec 256)) (s : State) : State :=
  { s with codesValid := true
           codeLen := es.foldl (fun t e => t.put e.1 e.2.1) (Table.zero 8)
           codeBits := es.foldl (fun t e => t.put e.1 e.2.2) (Table.zero 256) }

/-- With a tree over n leaves. -/
def withNodes (n : Nat) (t : List Node) (s : State) : State :=
  { s with treeValid := true, nsym := BitVec.ofNat 32 n, tree := t }

/-- With other capacities. -/
def withCaps (inCap outCap : Nat) (s : State) : State := { s with cfg := ⟨inCap, outCap, 0⟩ }

/-- The host about to make one move. -/
def host (busy : Bool) (m : Move) : State := { State.reset with busy := busy, moves := [m] }

/-- A command word being executed, the host about to make one move. -/
def running (v : Word) (m : Move) : State := { host true m with curCmd := v }

/-- The state a command leaves. -/
def after (i : Instr) (s : State) : State :=
  match exec i s with
  | .next t => t
  | _ => s

/-- The state a step leaves. -/
def stepped (s : State) : State :=
  match step s with
  | .next t => t
  | _ => s

/-- V-G6: a = "0". -/
def bookA : List (Sym × BitVec 8 × BitVec 256) := [(0x61#8, 1#8, 0#256)]

/-- The codebook of "ab": a = "0", b = "1" (V-E6). -/
def bookAB : List (Sym × BitVec 8 × BitVec 256) := [(0x61#8, 1#8, 0#256), (0x62#8, 1#8, 1#256)]

/-- V-G1: a = "1", b = "01", c = "001", d = "000". -/
def bookG1 : List (Sym × BitVec 8 × BitVec 256) :=
  [(0x61#8, 1#8, 1#256), (0x62#8, 2#8, 1#256), (0x63#8, 3#8, 1#256), (0x64#8, 3#8, 0#256)]

/-- V-T6: the tree of the single leaf a, weight 4. -/
def treeA : List Node := [.leaf 0x61#8 4#40]

/-- V-T3: a(2,0), b(2,1), c(1,2), N3 = (c, a), N4 = (b, N3). -/
def treeT3 : List Node :=
  [.leaf 0x61#8 2#40, .leaf 0x62#8 2#40, .leaf 0x63#8 1#40, .internal 3#40 2 0, .internal 5#40 1 3]

/-! ### One step of each command -/

/-- V-C3: the host's 99 in FREQ[0x7A] is gone, and one a is counted. -/
theorem test_count_replaces_freq :
    let t := after .count (withFreqs [(0x7A#8, 99#32)] (loaded [0x61#8]))
    t.freq.get 0x7A#8 = 0#32 ∧ t.freq.get 0x61#8 = 1#32 ∧ t.status = 0x02#32 := by decide +kernel

/-- V-C4: IN_LEN = 65 > IN_CAP; FREQ unchanged. -/
theorem test_count_length_range :
    let t := after .count { withFreqs [(0x7A#8, 99#32)] State.reset with inLen := 65#32 }
    t.errCode = 6#8 ∧ t.freq.get 0x7A#8 = 99#32 := by decide +kernel

/-- V-T4: leaf a ties with N3 and is extracted first. -/
theorem test_buildTree_tie :
    (after .buildTree (withFreqs [(0x61#8, 3#32), (0x62#8, 2#32), (0x63#8, 1#32)] State.reset)).tree =
      [.leaf 0x61#8 3#40, .leaf 0x62#8 2#40, .leaf 0x63#8 1#40, .internal 3#40 2 1, .internal 6#40 0 3] := by
  decide +kernel

/-- V-T8: a root weight above 2^32. -/
theorem test_buildTree_wide_weight :
    (after .buildTree (withFreqs [(0x00#8, 0xFFFFFFFF#32), (0x01#8, 0xFFFFFFFF#32)] State.reset)).tree[2]? =
      some (.internal 0x1FFFFFFFE#40 0 1) := by decide +kernel

/-- V-G3: b = "0", c = "10", a = "11". -/
theorem test_genCodes_paths :
    let t := after .genCodes (withNodes 3 treeT3 State.reset)
    (t.codeLen.get 0x61#8, t.codeBits.get 0x61#8) = (2#8, 3#256) ∧
    (t.codeLen.get 0x62#8, t.codeBits.get 0x62#8) = (1#8, 0#256) ∧
    (t.codeLen.get 0x63#8, t.codeBits.get 0x63#8) = (2#8, 2#256) ∧ t.maxLen = 2#32 ∧ t.status = 0x1A#32 := by
  decide +kernel

/-- V-G10: no tree. -/
theorem test_genCodes_no_tree :
    (after .genCodes State.reset).errCode = 7#8 ∧ (after .genCodes State.reset).status = 0x06#32 := by decide +kernel

/-- V-B4: "aaaa". -/
theorem test_buildCodec_single_symbol :
    let t := after .buildCodec (loaded [0x61#8, 0x61#8, 0x61#8, 0x61#8])
    t.nsym = 1#32 ∧ t.maxLen = 1#32 ∧ t.codeLen.get 0x61#8 = 1#8 ∧ t.codeBits.get 0x61#8 = 0#256 ∧
      t.status = 0x1A#32 := by decide +kernel

/-- V-B2: IN_LEN = 0 with the codebook of "ab". -/
theorem test_buildCodec_empty_input :
    let t := after .buildCodec (withBook bookAB (withFreqs [(0x61#8, 1#32)] State.reset))
    t.errCode = 1#8 ∧ t.freq.get 0x61#8 = 0#32 ∧ t.codeLen.get 0x61#8 = 0#8 ∧ t.status = 0x06#32 := by decide +kernel

/-- V-E18: "d" gives [05 00]. -/
theorem test_encode_stream :
    let t := after .encode (withBook bookG1 (loaded [0x64#8]))
    t.outBuf = [(0, 0x05#8), (1, 0x00#8)] ∧ t.outLen = 2#32 ∧ t.payloadBits = 3#32 ∧ t.pad = 5#3 := by decide +kernel

/-- V-E10: the unknown symbol is found before the overflow. -/
theorem test_encode_unknown_before_overflow :
    let t := after .encode (withCaps 64 2 (withBook bookA (loaded
      (List.replicate 9 0x61#8 ++ [0x62#8]))))
    t.errCode = 2#8 ∧ t.outLen = 0#32 := by decide +kernel

/-- By hand from R261 to R266 and V-G1: [05 20] has payload 001, which is c. -/
theorem test_decode_symbol :
    let t := after .decode (withBook bookG1 (loaded [0x05#8, 0x20#8]))
    t.outBuf = [(0, 0x63#8)] ∧ t.outLen = 1#32 ∧ t.payloadBits = 3#32 ∧ t.pad = 5#3 ∧ t.errCode = 0#8 := by
  decide +kernel

/-- V-D13: MALFORMED_STREAM precedes OUTPUT_OVERFLOW. -/
theorem test_decode_malformed_before_overflow :
    (after .decode (withCaps 64 2 (withBook bookG1 (loaded [0x00#8, 0xFE#8])))).errCode = 3#8 := by decide +kernel

/-! ### The bus and the step -/

/-- 20_memory.md R86, R97: lane j holds bits [8j+7 : 8j]. -/
theorem test_in_lanes :
    (stepped (host false (.write 0x01000000 0x44332211#32))).inBuf =
      [(0, 0x11#8), (1, 0x22#8), (2, 0x33#8), (3, 0x44#8)] := by decide +kernel

/-- R89: STATUS reads BUSY alone while COUNT runs after reset. -/
theorem test_busy_status : (stepped (running 1#32 (.read 0x00C))).lastRead = some 0x01#32 := by decide +kernel

theorem test_withFetchWord_runs_the_command :
    step (State.reset.withFetchWord 32 1) = exec .count (State.reset.issue 1#32) := by rfl

/-- V-X4: an illegal word completes with ERR 4, STATUS 0x06. -/
theorem test_illegal_word :
    (stepped (State.reset.withFetchWord 32 0x105)).errCode = 4#8 ∧
    (stepped (State.reset.withFetchWord 32 0x105)).status = 0x06#32 := by decide +kernel

/-! ### Witnesses: reset and the bus -/

theorem witness_ResetLeavesTheSpecifiedValues : (host false .reset).moves = [.reset] := rfl

/-- The reset input, asserted while a command runs, with the engine's turn after it and without. -/
theorem witness_ResetInputAbandonsTheCommand :
    (running 4#32 .reset).busy = true ∧ (running 4#32 .reset).moves = [.reset] ∧
    ({ running 4#32 .reset with moves := [.reset, .engine] } : State).busy = true := ⟨rfl, rfl, rfl⟩

theorem witness_ResetMeetsTheInvariant : (⟨1, 16777216, 0x04000000⟩ : Config).wf = true := by decide

/-- A CMD write at its first and last byte offsets, idle and busy. -/
theorem witness_CmdWriteIssuesTheCommand : ∀ b : Bool, ∀ j ∈ [0, 3],
    let s := host b (.write (0 + (0x008 + j)) 5#32)
    j < 4 ∧ s.moves = [.write (s.cfg.base + (0x008 + j)) 5#32] ∧ s.busy = b := by decide

/-- Busy writes at the boundaries of CTRL, STATUS and the rest of the window. -/
theorem witness_WritesWhileBusy : ∀ off ∈ [0x000, 0x003, 0x004, 0x007, 0x008, 0x00B, 0x00C, 0x00F, 0x010, 0x02FFFFFF],
    let s := host true (.write (0 + off) 2#32)
    off < 0x03000000 ∧ s.moves = [.write (s.cfg.base + off) 2#32] ∧ s.busy = true := by decide

theorem witness_WritesWhileBusy_clauses :
    (∀ off ∈ [0x004, 0x007], off / 4 = 1) ∧ (∀ off ∈ [0x00C, 0x00F], off / 4 = 3) ∧
    (∀ off ∈ [0x000, 0x003, 0x008, 0x00B, 0x010, 0x02FFFFFF], off / 4 ≠ 1 ∧ off / 4 ≠ 3) := by decide

theorem witness_RegisterWritesWhileIdle : ∀ r ∈ [0x004, 0x00C, 0x014], ∀ j ∈ [0, 3],
    let s := host false (.write (0 + (r + j)) 3#32)
    j < 4 ∧ s.busy = false ∧ s.moves = [.write (s.cfg.base + (r + j)) 3#32] := by decide

theorem witness_FreqEntriesReadAndWrite : ∀ x ∈ [0x00#8, 0xFF#8], ∀ j ∈ [0, 3],
    let a := 0x400 + 4 * x.toNat + j
    let r := host false (.read (0 + a))
    let w := host false (.write (0 + a) 7#32)
    j < 4 ∧ r.busy = false ∧ r.moves = [.read (r.cfg.base + a)] ∧
      w.busy = false ∧ w.moves = [.write (w.cfg.base + a) 7#32] := by decide

theorem witness_CodebookEntriesAreReadOnly : ∀ x ∈ [0x00#8, 0xFF#8], ∀ w ∈ [0, 7], ∀ j ∈ [0, 3],
    ∀ a ∈ [0x800 + 4 * x.toNat + j, 0x2000 + 32 * x.toNat + 4 * w + j],
    let r := host false (.read (0 + a))
    let v := host true (.write (0 + a) 7#32)
    w < 8 ∧ j < 4 ∧ r.busy = false ∧ r.moves = [.read (r.cfg.base + a)] ∧ v.moves = [.write (v.cfg.base + a) 7#32] := by
  decide

/-- The first and last words of the IN and OUT windows. -/
theorem witness_InWindowReadsAndWrites : ∀ k ∈ [0, 0x3FFFFF], ∀ j ∈ [0, 3],
    let r := host false (.read (0 + (0x01000000 + 4 * k + j)))
    let w := host false (.write (0 + (0x01000000 + 4 * k + j)) 7#32)
    j < 4 ∧ k < 0x400000 ∧ r.busy = false ∧ r.moves = [.read (r.cfg.base + (0x01000000 + 4 * k + j))] ∧
      w.busy = false ∧ w.moves = [.write (w.cfg.base + (0x01000000 + 4 * k + j)) 7#32] := by decide

theorem witness_OutWindowReadsAndIgnoresWrites : ∀ k ∈ [0, 0x3FFFFF], ∀ j ∈ [0, 3],
    let r := host false (.read (0 + (0x02000000 + 4 * k + j)))
    let w := host false (.write (0 + (0x02000000 + 4 * k + j)) 7#32)
    j < 4 ∧ k < 0x400000 ∧ r.busy = false ∧ r.moves = [.read (r.cfg.base + (0x02000000 + 4 * k + j))] ∧
      w.busy = false ∧ w.moves = [.write (w.cfg.base + (0x02000000 + 4 * k + j)) 7#32] := by decide

/-- OUT words that the word being executed does not write: COUNT and an illegal word, and ENCODE past OUT_CAP = 64. -/
theorem witness_OutWindowReadsAndIgnoresWrites_busy : ∀ e ∈ [(1#32, 0), (0x105#32, 15), (5#32, 16)],
    let s := running e.1 (.read (0 + (0x02000000 + 4 * e.2 + 0)))
    (s.busy = false ∨ s.curCmd.toNat ∉ [5, 6] ∨ s.cfg.outCap ≤ 4 * e.2) ∧
      s.moves = [.read (s.cfg.base + (0x02000000 + 4 * e.2 + 0))] := by decide

/-- A lane that was written, and lanes at the capacity's edge. -/
theorem witness_buffer_lanes :
    (loaded [0x61#8]).inBuf.read? (4 * 0 + 0) = some 0x61#8 ∧ 4 * 15 + 3 < (loaded []).cfg.inCap ∧
    (loaded []).cfg.inCap ≤ 4 * 16 + 0 ∧
    ({ loaded [] with outBuf := [(63, 1#8)] } : State).outBuf.read? (4 * 15 + 3) = some 1#8 ∧
    (loaded []).cfg.outCap ≤ 4 * 16 + 0 := by decide

theorem witness_ReservedOffsetsReadZero : ∀ off ∈ [0x34, 0x3FF, 0xC00, 0x1FFF, 0x4000, 0xFFFFFF],
    let r := host false (.read (0 + off))
    let w := host true (.write (0 + off) 7#32)
    ((0x34 ≤ off ∧ off < 0x400) ∨ (0xC00 ≤ off ∧ off < 0x2000) ∨ (0x4000 ≤ off ∧ off < 0x01000000)) ∧
      r.moves = [.read (r.cfg.base + off)] ∧ w.moves = [.write (w.cfg.base + off) 7#32] := by decide

theorem witness_OtherWritesAreIgnored : ∀ off ∈ [0x000, 0x010, 0x013, 0x018, 0x3FF, 0x800, 0xFFFFFF, 0x02000000, 0x02FFFFFF],
    let w := host false (.write (0 + off) 7#32)
    off < 0x03000000 ∧ w.moves = [.write (w.cfg.base + off) 7#32] ∧
      off / 4 ≠ 1 ∧ off / 4 ≠ 2 ∧ off / 4 ≠ 3 ∧ off / 4 ≠ 5 ∧
      ¬ (0x400 ≤ off ∧ off < 0x800) ∧ ¬ (0x01000000 ≤ off ∧ off < 0x02000000) := by decide

/-- Every register of the statement, at its first and last byte offsets, read right after reset. -/
theorem witness_RegisterReads : ∀ off ∈ [0x000, 0x004, 0x008, 0x00C, 0x010, 0x014, 0x018, 0x01C, 0x020, 0x024, 0x028,
      0x02C, 0x030], ∀ j ∈ [0, 3],
    let s := host false (.read (0 + (off + j)))
    j < 4 ∧ s.busy = false ∧ s.moves = [.read (s.cfg.base + (off + j))] ∧
    ∃ v, (off, v) ∈ [(0x000, 0x48554631#32), (0x004, if s.irqEn then 1#32 else 0#32), (0x008, 0#32),
      (0x00C, BitVec.ofNat 32 (2 * s.done.toNat + 4 * (if s.errCode = 0#8 then 0 else 1) +
        8 * s.treeValid.toNat + 16 * s.codesValid.toNat)),
      (0x010, s.errCode.setWidth 32), (0x014, s.inLen), (0x018, s.outLen), (0x01C, s.nsym), (0x020, s.maxLen),
      (0x024, s.payloadBits), (0x028, s.pad.setWidth 32), (0x02C, BitVec.ofNat 32 s.cfg.inCap),
      (0x030, BitVec.ofNat 32 s.cfg.outCap)] := by
  intro off h j hj
  simp only [List.mem_cons, List.not_mem_nil, or_false] at h hj
  rcases h with rfl | rfl | rfl | rfl | rfl | rfl | rfl | rfl | rfl | rfl | rfl | rfl | rfl <;>
    rcases hj with rfl | rfl <;> exact ⟨by decide, rfl, rfl, _, by simp; rfl⟩

theorem witness_HostReadsChangeNothing : ∀ off ∈ [0x000, 0x02FFFFFF],
    let s := host true (.read (0 + off))
    off < 0x03000000 ∧ s.moves = [.read (s.cfg.base + off)] := by decide

/-- Each clause of the statement, at the ends of its range. -/
theorem witness_BusyReadsOfWrittenStateAreFree :
    ∀ e ∈ [(1#32, 0x400), (4#32, 0x7FF), (2#32, 0x800), (3#32, 0xBFF), (4#32, 0x2000), (2#32, 0x3FFF), (3#32, 0x020),
      (2#32, 0x01C), (4#32, 0x01F), (5#32, 0x018), (6#32, 0x02B), (5#32, 0x02000000), (6#32, 0x0200003F)],
    let s := running e.1 (.read (0 + e.2))
    s.busy = true ∧ s.moves = [.read (s.cfg.base + e.2)] ∧
    ((s.curCmd.toNat ∈ [1, 4] ∧ 0x400 ≤ e.2 ∧ e.2 < 0x800) ∨
     (s.curCmd.toNat ∈ [2, 3, 4] ∧ ((0x800 ≤ e.2 ∧ e.2 < 0xC00) ∨ (0x2000 ≤ e.2 ∧ e.2 < 0x4000) ∨ e.2 / 4 = 8)) ∨
     (s.curCmd.toNat ∈ [2, 4] ∧ e.2 / 4 = 7) ∨
     (s.curCmd.toNat ∈ [5, 6] ∧ (e.2 / 4 ∈ [6, 9, 10] ∨
       (0x02000000 ≤ e.2 ∧ e.2 < 0x03000000 ∧ 4 * ((e.2 - 0x02000000) / 4) < s.cfg.outCap)))) := by decide

/-- The STATUS clause: BUILD_TREE, GEN_CODES and BUILD_CODEC, at the first and last byte offsets. -/
theorem witness_BusyReadsOfWrittenStateAreFree_status : ∀ e ∈ [(2#32, 0x00C), (3#32, 0x00F), (4#32, 0x00F)],
    let s := running e.1 (.read (0 + e.2))
    s.busy = true ∧ s.moves = [.read (s.cfg.base + e.2)] ∧ s.curCmd.toNat ∈ [2, 3, 4] ∧ e.2 / 4 = 3 := by decide

theorem witness_TransactionsAndCountKeepTreeAndCodebook :
    (∃ t, step (host false (.read 0x00C)) = .next t) ∧ (∃ t, step (host true (.write 0x400 7#32)) = .next t) :=
  ⟨⟨_, rfl⟩, ⟨_, rfl⟩⟩

/-! ### Witnesses: steps -/

theorem witness_StepRunsTheDecodedCommand :
    let s := State.reset.issue 6#32
    s.busy = true ∧ Sys2Proof.decode s.curCmd = .ok .decode ∧ s.moves = [] ∧
      (running 6#32 .engine).busy = true ∧ Sys2Proof.decode (running 6#32 .engine).curCmd = .ok .decode ∧
      (running 6#32 .engine).moves = [.engine] := by decide

theorem witness_IllegalWordCompletesWithCodeFour (v : Word) (h : v = 0x00000000#32 ∨ v = 0x00000007#32 ∨ v = 0xFFFFFFFF#32) :
    let s := State.reset.issue v
    let u := running v .engine
    s.busy = true ∧ s.moves = [] ∧ (s.curCmd.toNat = 0 ∨ 7 ≤ s.curCmd.toNat) ∧
      u.busy = true ∧ u.moves = [.engine] ∧ u.curCmd = s.curCmd := by
  rcases h with rfl | rfl | rfl
  · exact ⟨rfl, rfl, .inl (by decide), rfl, rfl, rfl⟩
  · exact ⟨rfl, rfl, .inr (by decide), rfl, rfl, rfl⟩
  · exact ⟨rfl, rfl, .inr (by decide), rfl, rfl, rfl⟩

theorem witness_IdleCoreWaitsForACmdWrite :
    State.reset.busy = false ∧ State.reset.moves = [] ∧ (host false .engine).moves = [.engine] ∧
    (host false .engine).busy = false ∧
    ∃ t, step (host false (.write 0x008 1#32)) = .next t ∧ (host false (.write 0x008 1#32)).busy = false ∧
      t.busy = true := ⟨rfl, rfl, rfl, rfl, _, rfl, rfl, rfl⟩

/-- IRQ rising by completion and by a CTRL write, and the CTRL, STATUS and CMD writes of the statement. -/
theorem witness_IrqFollowsDoneAndIrqEn :
    (let s : State := { State.reset.issue 1#32 with irqEn := true }
     s.busy = true ∧ s.moves = [] ∧ s.irq = false ∧ ∃ t, step s = .next t ∧ t.irq = true) ∧
    ((running 0x105#32 .engine).busy = true ∧ (running 0x105#32 .engine).moves = [.engine]) ∧
    (let s : State := { host false (.write (0 + 0x004) 1#32) with done := true }
     s.moves = [.write (s.cfg.base + 0x004) 1#32] ∧ s.irq = false ∧ ∃ t, step s = .next t ∧ t.irq = true) ∧
    (let s := host false (.write (0 + 0x00C) 2#32)
     s.moves = [.write (s.cfg.base + 0x00C) 2#32] ∧ (2#32).getLsbD 1 = true) ∧
    (let s := host false (.write (0 + 0x008) 1#32)
     s.moves = [.write (s.cfg.base + 0x008) 1#32] ∧ s.busy = false) :=
  ⟨⟨rfl, rfl, rfl, _, rfl, rfl⟩, ⟨rfl, rfl⟩, ⟨rfl, rfl, _, rfl, rfl⟩, ⟨rfl, rfl⟩, ⟨rfl, rfl⟩⟩

/-- A single leaf is a tree (V-T6). -/
theorem treeA_ok : TreeOk 1 treeA where
  pos := by decide
  atMost := by decide
  length := by decide
  leaf k hk := ⟨0x61#8, 4#40, by rw [show k = 0 by omega]; rfl⟩
  ordered i j x y v w hij _ hj := by
    rw [show j = (j - 1) + 1 by omega] at hj
    simp [treeA] at hj
  internal k h1 h2 := by omega
  parent k hk := by omega

/-- COUNT running, with the tree and the codebook of "aaaa" (V-G6). -/
def busyState : State :=
  { (withBook bookA (withNodes 1 treeA State.reset)).issue 1#32 with maxLen := 1#32 }

/-- A state with a tree and a codebook, a command running, meets the invariant. -/
theorem busyState_inv : busyState.Inv where
  params := by decide
  buffers := by refine ⟨?_, ?_, ?_, ?_⟩ <;> decide
  lifecycle := by unfold State.lifecycleInv; decide
  results := ⟨by decide, fun a h => absurd h (Nat.not_lt_zero a), by decide⟩
  tree := ⟨fun _ => treeA_ok, by decide⟩
  codes := ⟨rfl, rfl, by decide +kernel⟩

/-- The registers that read exactly whatever is being executed, an illegal word here. -/
theorem witness_BusyReadsOfUnwrittenRegisters_always : ∀ off ∈ [0x000, 0x004, 0x008, 0x014, 0x02C, 0x030], ∀ j ∈ [0, 3],
    let s := running 0x105#32 (.read (0 + (off + j)))
    s.busy = true ∧ j < 4 ∧ s.moves = [.read (s.cfg.base + (off + j))] ∧
    ∃ v, (off, v) ∈ [(0x000, 0x48554631#32), (0x004, if s.irqEn then 1#32 else 0#32), (0x008, 0#32), (0x014, s.inLen),
      (0x02C, BitVec.ofNat 32 s.cfg.inCap), (0x030, BitVec.ofNat 32 s.cfg.outCap)] := by
  intro off h j hj
  simp only [List.mem_cons, List.not_mem_nil, or_false] at h hj
  rcases h with rfl | rfl | rfl | rfl | rfl | rfl <;>
    rcases hj with rfl | rfl <;> exact ⟨rfl, by decide, rfl, _, by simp; rfl⟩

/-- Each other clause, with a command that does not write what is read, at the ends of the tables: the word executed, the
offset, and the commands that would write there. -/
theorem witness_BusyReadsOfUnwrittenRegisters_unless :
    ∀ e ∈ [(3#32, 0x01C, [2, 4]), (6#32, 0x01C, [2, 4]), (1#32, 0x020, [2, 3, 4]), (0x105#32, 0x020, [2, 3, 4]),
      (1#32, 0x018, [5, 6]), (2#32, 0x024, [5, 6]), (7#32, 0x028, [5, 6]),
      (2#32, 0x400 + 4 * (0x00#8).toNat, [1, 4]), (6#32, 0x400 + 4 * (0xFF#8).toNat, [1, 4]),
      (1#32, 0x800 + 4 * (0x00#8).toNat, [2, 3, 4]), (5#32, 0x800 + 4 * (0xFF#8).toNat, [2, 3, 4]),
      (0#32, 0x2000 + 32 * (0x00#8).toNat + 4 * 0, [2, 3, 4]), (6#32, 0x2000 + 32 * (0xFF#8).toNat + 4 * 7, [2, 3, 4])],
    ∀ j ∈ [0, 3],
    let s := running e.1 (.read (0 + (e.2.1 + j)))
    s.busy = true ∧ j < 4 ∧ s.curCmd.toNat ∉ e.2.2 ∧ s.moves = [.read (s.cfg.base + (e.2.1 + j))] := by decide

/-- STATUS and ERR_CODE in a state of the invariant, COUNT running: both bits' conditions hold. -/
theorem witness_BusyReadsOfUnwrittenRegisters : ∀ off ∈ [0x00C, 0x010], ∀ j ∈ [0, 3],
    let s := { busyState with moves := [.read (0 + (off + j))] }
    s.Inv ∧ s.busy = true ∧ j < 4 ∧ s.moves = [.read (s.cfg.base + (off + j))] ∧
      s.curCmd.toNat ∉ [2, 4] ∧ s.curCmd.toNat ∉ [2, 3, 4] := by
  intro off _ j hj
  have h := busyState_inv
  refine ⟨⟨h.params, h.buffers, h.lifecycle, h.results, h.tree, h.codes⟩, rfl, ?_, rfl, ?_, ?_⟩
  · simp at hj; omega
  · exact (by decide : busyState.curCmd.toNat ∉ [2, 4])
  · exact (by decide : busyState.curCmd.toNat ∉ [2, 3, 4])

theorem witness_StepKeepsTheInvariant : busyState.Inv ∧ ∃ t, step busyState = .next t := ⟨busyState_inv, _, rfl⟩

theorem witness_CodebookIsEmptyOrPrefixFree : busyState.Inv := busyState_inv

/-! ### Witnesses: commands -/

/-- One above IN_CAP, and the greatest IN_LEN, an unsigned number (00_scope.md R16). -/
theorem witness_LengthRangeIsCheckedFirst (v : Word) (h : v = 65#32 ∨ v = 0xFFFFFFFF#32) :
    let s : State := { State.reset with inLen := v }
    s.cfg.inCap < s.inLen.toNat := by
  rcases h with rfl | rfl
  · exact (by decide : 64 < (65#32).toNat)
  · exact (by decide : 64 < (0xFFFFFFFF#32).toNat)

/-- A written byte and one nothing has written. -/
theorem witness_EngineReadsTheInputBytes :
    let s : State := { loaded [0x61#8] with inLen := 2#32 }
    0 < s.inLen.toNat ∧ s.inBuf.read? 0 = some 0x61#8 ∧ 1 < s.inLen.toNat ∧ s.inBuf.read? 1 = none := by decide

/-- IN_LEN at both ends of its range. -/
theorem witness_lengthOk :
    (loaded []).lengthOk ∧ ({ State.reset with inLen := 64#32 } : State).lengthOk := by
  unfold State.lengthOk; decide

/-- CountCountsEverySymbol and CountsAddUpToInLen assume lengthOk alone. -/
theorem witness_CountCountsEverySymbol : (loaded [0x61#8, 0x62#8]).lengthOk := by unfold State.lengthOk; decide

theorem witness_CountsAddUpToInLen : (loaded [0x61#8, 0x62#8]).lengthOk := witness_CountCountsEverySymbol

theorem witness_BuildTreeRefusesTheEmptyTable : ¬ State.reset.hasLeaf := by
  rintro ⟨x, hx⟩; exact hx (Table.get_zero x)

/-- Two leaves with the greatest counts: the hypothesis of each statement about a tree. -/
def twoLeaves : State := withFreqs [(0x00#8, 0xFFFFFFFF#32), (0xFF#8, 0xFFFFFFFF#32)] State.reset

theorem twoLeaves_hasLeaf : twoLeaves.hasLeaf := ⟨0xFF#8, by decide +kernel⟩

theorem witness_BuildTreeMakesATree : twoLeaves.hasLeaf := twoLeaves_hasLeaf
theorem witness_LeavesStandInSymbolOrder : twoLeaves.hasLeaf := twoLeaves_hasLeaf
theorem witness_EachMergeTakesTheTwoLeastNodes : twoLeaves.hasLeaf := twoLeaves_hasLeaf
theorem witness_GeneratedCodebookIsTotalAndPrefixFree : twoLeaves.hasLeaf := twoLeaves_hasLeaf
theorem witness_MaxLenIsTheGreatestCodeLength : twoLeaves.hasLeaf := twoLeaves_hasLeaf
theorem witness_CodeLengthsAreBelowTheLeafCount : twoLeaves.hasLeaf := twoLeaves_hasLeaf
theorem witness_CodeLengthsMeetKraftWithEquality : twoLeaves.hasLeaf := twoLeaves_hasLeaf

theorem witness_RootWeightIsTheSumOfFreq :
    twoLeaves.hasLeaf ∧ (loaded [0x61#8]).lengthOk ∧ 1 ≤ (loaded [0x61#8]).inLen.toNat :=
  ⟨twoLeaves_hasLeaf, by unfold State.lengthOk; decide, by decide⟩

/-- Two states with one FREQ and another IN. -/
theorem witness_TreeDependsOnFreqAlone :
    twoLeaves.freq = ({ twoLeaves with inBuf := [(0, 1#8)] } : State).freq ∧ twoLeaves.hasLeaf :=
  ⟨rfl, twoLeaves_hasLeaf⟩

theorem witness_TreeMinimisesWeightedPathLength :
    twoLeaves.hasLeaf ∧ ∃ b : BinTree, b.syms.Perm (symbols.filter fun x => twoLeaves.freq.get x != 0#32) :=
  ⟨twoLeaves_hasLeaf, .node (.leaf 0x00#8) (.leaf 0xFF#8), by decide +kernel⟩

theorem witness_GenCodesRefusesWithoutATree : State.reset.treeValid = false := rfl

/-- One leaf; and V-T3's three, with a path, a symbol with a leaf and one without. -/
theorem witness_GenCodesBindsEachLeafToItsPath :
    busyState.treeValid = true ∧ TreeOk busyState.nsym.toNat busyState.tree ∧
    busyState.tree[0]? = some (Node.leaf 0x61#8 4#40) := ⟨rfl, treeA_ok, rfl⟩

theorem witness_GenCodesBindsEachLeafToItsPath_two :
    let s := after .buildTree twoLeaves
    s.treeValid = true ∧ s.nsym.toNat = 2 ∧ follow s.tree (2 * s.nsym.toNat - 2) [true] = some (Node.leaf 0xFF#8 0xFFFFFFFF#40) ∧
      s.tree[1]? = some (Node.leaf 0xFF#8 0xFFFFFFFF#40) := by decide +kernel

theorem witness_GenCodesAgainWritesTheSame : busyState.treeValid = true := rfl

/-- The three cases: LENGTH_RANGE, EMPTY_INPUT and success. -/
theorem witness_BuildCodecIsTheThreeInTurn :
    (after .count { State.reset with inLen := 65#32 }).errCode ≠ 0#8 ∧
    ((after .count State.reset).errCode = 0#8 ∧ (after .buildTree (after .count State.reset)).errCode ≠ 0#8) ∧
    ((after .count (loaded [0x61#8])).errCode = 0#8 ∧
      (after .buildTree (after .count (loaded [0x61#8]))).errCode = 0#8) := by decide +kernel

theorem witness_BuildCodecCoversTheInput :
    (loaded [0x61#8]).lengthOk ∧ 1 ≤ (loaded [0x61#8]).inLen.toNat := ⟨by unfold State.lengthOk; decide, by decide⟩

/-- One input in two states, one of them with other bytes beyond it. -/
theorem witness_BuildCodecDependsOnTheInputAlone :
    let s := loaded [0x61#8]
    let u : State := { loaded [0x61#8, 0x62#8] with inLen := 1#32, outLen := 9#32 }
    s.lengthOk ∧ u.lengthOk ∧ s.input = u.input := by unfold State.lengthOk; decide

theorem witness_BuildCodecPartialEffects :
    (let s : State := { State.reset with inLen := 65#32 }; s.cfg.inCap < s.inLen.toNat) ∧ State.reset.inLen = 0#32 ∧
    ((loaded [0x61#8]).lengthOk ∧ (loaded [0x61#8]).inLen ≠ 0#32) := by
  unfold State.lengthOk; decide

/-- "dd" with V-G1: six payload bits, [02 00]. OUT_CAP is just enough. -/
theorem witness_EncodeWritesThePackedStream :
    let s := withCaps 64 2 (withBook bookG1 (loaded [0x64#8, 0x64#8]))
    s.cfg.wf = true ∧ s.lengthOk ∧ (∀ x, x ∈ s.input → s.coded x) ∧
      1 + ((s.input.flatMap s.code).length + 7) / 8 ≤ s.cfg.outCap := by
  unfold State.lengthOk State.coded; decide +kernel

theorem witness_EncodeErrorsInOrder :
    (let s : State := { State.reset with inLen := 65#32 }; ¬ s.lengthOk) ∧
    (let s := withBook bookA (loaded [0x62#8]); s.lengthOk ∧ ∃ x, x ∈ s.input ∧ ¬ s.coded x) ∧
    (let s := withCaps 64 1 (withBook bookA (loaded [0x61#8]))
     s.lengthOk ∧ (∀ x, x ∈ s.input → s.coded x) ∧
       s.cfg.outCap < 1 + ((s.input.flatMap s.code).length + 7) / 8) := by
  unfold State.lengthOk State.coded; decide +kernel

theorem witness_EncodeOfTheEmptyInput : 1 ≤ (loaded []).cfg.outCap ∧ (loaded []).inLen = 0#32 := by decide

/-- The codebook of "ab" is prefix-free in any state that holds it. -/
theorem bookAB_prefixFree (s : State) : (withBook bookAB s).prefixFree := by
  have h : ∀ x, (withBook bookAB s).coded x → x = 0x61#8 ∨ x = 0x62#8 := by
    intro x hx
    by_contra hn
    rw [not_or] at hn
    apply hx
    show Table.get ((Table.put (Table.put (Table.zero 8) 0x61#8 1#8)) 0x62#8 1#8) x = 0#8
    rw [Table.get_put_ne _ _ _ _ hn.2, Table.get_put_ne _ _ _ _ hn.1, Table.get_zero]
  intro x y hx hy hxy
  have ha : (withBook bookAB s).code 0x61#8 = [false] :=
    (by decide +kernel : (withBook bookAB State.reset).code 0x61#8 = [false])
  have hb : (withBook bookAB s).code 0x62#8 = [true] :=
    (by decide +kernel : (withBook bookAB State.reset).code 0x62#8 = [true])
  rcases h x hx with rfl | rfl <;> rcases h y hy with rfl | rfl
  · exact absurd rfl hxy
  · rw [ha, hb]; decide
  · rw [ha, hb]; decide
  · exact absurd rfl hxy

/-- [06 80]: "ba" with the codebook of "ab" (V-E6), OUT_CAP just enough. -/
theorem witness_DecodeReturnsTheSymbols :
    let s := withBook bookAB (withCaps 64 2 (loaded [0x06#8, 0x80#8]))
    s.cfg.wf = true ∧ s.lengthOk ∧ s.prefixFree ∧ s.input = 0x06#8 :: [0x80#8] ∧ (0x06#8).toNat ≤ 7 ∧
      (0x06#8).toNat ≤ 8 * [0x80#8].length ∧ (∀ x, x ∈ [0x62#8, 0x61#8] → s.coded x) ∧
      (bytesToBits [0x80#8]).take (8 * [0x80#8].length - (0x06#8).toNat) = [0x62#8, 0x61#8].flatMap s.code ∧
      [0x62#8, 0x61#8].length ≤ s.cfg.outCap := by
  refine ⟨by decide, by unfold State.lengthOk; decide, bookAB_prefixFree _, by decide +kernel, by decide, by decide,
    by unfold State.coded; decide +kernel, by decide +kernel, by decide⟩

/-- LENGTH_RANGE; the empty stream; headers 8, and 1 over no payload; and, with a codebook, the overflow. -/
theorem witness_DecodeErrorsInOrder :
    (let s : State := { State.reset with inLen := 65#32 }; ¬ s.lengthOk) ∧
    ((loaded []).lengthOk ∧ (loaded []).input = []) ∧
    ((loaded [0x08#8]).lengthOk ∧ (loaded [0x08#8]).input = 0x08#8 :: [] ∧ 7 < (0x08#8).toNat) ∧
    ((loaded [0x01#8]).lengthOk ∧ (loaded [0x01#8]).input = 0x01#8 :: [] ∧ 8 * ([] : List Byte).length < (0x01#8).toNat) ∧
    (let s := withBook bookAB (withCaps 64 1 (loaded [0x06#8, 0x80#8]))
     s.lengthOk ∧ s.input = 0x06#8 :: [0x80#8] ∧ s.prefixFree ∧ (∀ x, x ∈ [0x62#8, 0x61#8] → s.coded x) ∧
       (bytesToBits [0x80#8]).take (8 * [0x80#8].length - (0x06#8).toNat) = [0x62#8, 0x61#8].flatMap s.code ∧
       s.cfg.outCap < [0x62#8, 0x61#8].length) :=
  ⟨by unfold State.lengthOk; decide, by unfold State.lengthOk; decide, by unfold State.lengthOk; decide,
    by unfold State.lengthOk; decide, by unfold State.lengthOk; decide, by decide +kernel, bookAB_prefixFree _,
    by unfold State.coded; decide +kernel, by decide +kernel, by decide⟩

/-- [00 FF] after reset: no codeword at all, so no concatenation of codewords (V-D14). -/
theorem witness_DecodeErrorsInOrder_unmatched :
    let s := loaded [0x00#8, 0xFF#8]
    s.lengthOk ∧ s.input = 0x00#8 :: [0xFF#8] ∧ s.prefixFree ∧
      ¬ ∃ out : List Sym, (∀ x, x ∈ out → s.coded x) ∧
        (bytesToBits [0xFF#8]).take (8 * [0xFF#8].length - (0x00#8).toNat) = out.flatMap s.code := by
  have hn : ∀ x, ¬ (loaded [0x00#8, 0xFF#8]).coded x := fun x h => h (Table.get_zero x)
  refine ⟨by unfold State.lengthOk; decide, by decide, fun x _ hx => absurd hx (hn x), ?_⟩
  rintro ⟨out, ho, he⟩
  cases out with
  | nil => revert he; decide
  | cons x _ => exact hn x (ho x List.mem_cons_self)

/-- V-D17 completes with ERR_CODE = 0. -/
theorem witness_DecodeNeverLeavesAnUnmatchedCandidate :
    (after .decode (withBook bookA (loaded [0x04#8, 0x00#8]))).errCode = 0#8 := by decide +kernel

theorem witness_DecodeWithNoPayloadOrNoCodebook :
    ((loaded [0x00#8]).lengthOk ∧ (loaded [0x00#8]).input = [0x00#8]) ∧
    ((loaded [0x00#8, 0xFF#8]).lengthOk ∧ (loaded [0x00#8, 0xFF#8]).codebookEmpty ∧
      (loaded [0x00#8, 0xFF#8]).input = 0x00#8 :: [0xFF#8] ∧ [0xFF#8] ≠ []) :=
  ⟨⟨by unfold State.lengthOk; decide, by decide⟩, by unfold State.lengthOk; decide,
    ⟨fun x => Table.get_zero x, fun x => Table.get_zero x, rfl⟩, by decide, by decide⟩

/-! ### Witnesses: the codec as a whole -/

/-- The stream in OUT copied into IN, IN_LEN set. -/
def copied (b : State) (n : Word) : State := { b with inBuf := b.outBuf, inLen := n }

/-- What the round-trip statements assume of the copy. -/
theorem copied_spec (b : State) (n : Word) :
    (copied b n).cfg = b.cfg ∧ (copied b n).codeLen = b.codeLen ∧ (copied b n).codeBits = b.codeBits ∧
      (copied b n).inLen = n ∧ ∀ k i, i < k → (copied b n).inBuf.read? i = b.outBuf.read? i :=
  ⟨rfl, rfl, rfl, rfl, fun _ _ _ => rfl⟩

theorem loadedA_written : (loaded [0x61#8]).inputWritten := by
  intro a ha
  have : a = 0 := by have h1 : a < 1 := ha; omega
  subst this; rfl

/-- "a", encoded as [07 00], copied into IN; and the empty input. -/
theorem witness_EncodeThenDecodeRoundTrips :
    (let s := loaded [0x61#8]
     let b := after .encode (after .buildCodec s)
     s.cfg.wf = true ∧ s.lengthOk ∧ 1 ≤ s.inLen.toNat ∧ s.inputWritten ∧ b.errCode = 0#8 ∧
       b.outLen.toNat ≤ s.cfg.inCap ∧ s.inLen.toNat ≤ s.cfg.outCap ∧ (copied b b.outLen).inLen = b.outLen) ∧
    ((loaded []).cfg.wf = true ∧ (loaded []).inLen = 0#32) :=
  ⟨⟨by decide, by unfold State.lengthOk; decide, by decide, loadedA_written, by decide +kernel, by decide +kernel,
    by decide, (copied_spec _ _).2.2.2.1⟩, by decide⟩

/-- "a" with a = "0" gives [07 00]; without its last byte the stream is [07], and 0 < 7 payload bits are left. -/
theorem witness_TruncatedStreamDecodesToAPrefix :
    let s := withBook bookAB (loaded [0x61#8])
    let b := after .encode s
    let c := copied b 1#32
    s.cfg.wf = true ∧ s.lengthOk ∧ 1 ≤ s.inLen.toNat ∧ s.inputWritten ∧ s.prefixFree ∧ b.errCode = 0#8 ∧
      b.outLen.toNat ≤ s.cfg.inCap + 1 ∧ s.inLen.toNat ≤ s.cfg.outCap ∧ c.inLen.toNat + 1 = b.outLen.toNat ∧
      8 * (c.inLen.toNat - 1) < b.pad.toNat :=
  ⟨by decide, by unfold State.lengthOk; decide, by decide, loadedA_written, bookAB_prefixFree _, by decide +kernel,
    by decide +kernel, by decide, by decide +kernel, by decide +kernel⟩

/-- Nine a's give [07 00 00]; without the last byte one payload bit is left, which is one a. -/
theorem witness_TruncatedStreamDecodesToAPrefix_aligned :
    let s := withBook bookAB (loaded (List.replicate 9 0x61#8))
    let b := after .encode s
    let m := 8 * ((copied b 2#32).inLen.toNat - 1)
    b.errCode = 0#8 ∧ (copied b 2#32).inLen.toNat + 1 = b.outLen.toNat ∧ b.pad.toNat ≤ m ∧ 1 ≤ s.inLen.toNat ∧
      (s.input.take 1).flatMap s.code = (s.input.flatMap s.code).take (m - b.pad.toNat) := by decide +kernel

theorem witness_PayloadBitsAreTheWeightedLength :
    (loaded [0x61#8]).cfg.wf = true ∧ (loaded [0x61#8]).lengthOk ∧ 1 ≤ (loaded [0x61#8]).inLen.toNat ∧
      (loaded [0x61#8]).inputWritten ∧ (after .encode (after .buildCodec (loaded [0x61#8]))).errCode = 0#8 := by
  exact ⟨by decide, by unfold State.lengthOk; decide, by decide, loadedA_written, by decide +kernel⟩

end Sys2Proof.Tests
end

section
/-! PROOFS. The reserved offsets of the window (10_state.md R54, 20_memory.md R82). -/

namespace Sys2Proof.Machine

/-- R40: the last register is word 12 of the window. -/
theorem regAt_eq_none {n : Nat} (h : 13 ≤ n) : regAt n = none := by
  match n, h with
  | _ + 13, _ => rfl

/-- R54, R82: the three reserved ranges. -/
theorem locate_reserved {off : Nat}
    (h : (0x34 ≤ off ∧ off < 0x400) ∨ (0xC00 ≤ off ∧ off < 0x2000) ∨ (0x4000 ≤ off ∧ off < 0x01000000)) :
    locate off = .reserved := by
  rcases h with h | h
  · simp only [locate, regAt_eq_none (show 13 ≤ off / 4 by omega), if_pos (show off / 4 < 0x100 by omega)]
  · simp only [locate]
    split_ifs <;> first | omega | rfl

/-- R89: no command writes a reserved offset. -/
theorem instrWrites_reserved (outCap : Nat) (i : Instr) : instrWrites outCap i .reserved = false := by
  cases i <;> rfl

/-- R54: a read of a reserved offset is 0, whatever runs. -/
theorem busRead_of_reserved {s : State} {off : Nat} (h : locate off = .reserved) : busRead s off = (0#32, s.free) := by
  rw [busRead_of_not_written (by simp [h]) (fun i _ => by rw [h, instrWrites_reserved]), h]
  rfl

/-- R54: a write to a reserved offset is ignored, whatever runs. -/
theorem busWrite_of_reserved {s : State} {off : Nat} (h : locate off = .reserved) (v : Word) : busWrite s off v = s := by
  simp [busWrite, h, busyWrite, idleWrite]

/-- Settles O14: no command writes a reserved location, so its read is the idle one, busy or not. -/
theorem reservedOffsetsReadZero : Obligations.ReservedOffsetsReadZero := by
  intro s ms off v h
  have hoff : off < 0x03000000 := by omega
  have hl := locate_reserved h
  constructor
  · intro hm
    rw [step_read hm hoff, hostRead_of_busRead (busRead_of_reserved hl)]
  · intro hm
    rw [step_write hm hoff, busWrite_of_reserved hl]

end Sys2Proof.Machine
end

section
/-! PROOFS. Paths of TREE (42_code_table.md R201): where `follow` leads, that each record has exactly one path from the
root, and that no leaf's path goes on. -/

namespace Sys2Proof.Machine

variable {n : Nat} {t : List Node}

/-! ### Records of a tree -/

/-- R60: an internal record stands above the leaves and has two different earlier children. -/
theorem TreeOk.of_internal (h : TreeOk n t) {k l r : Nat} {w : Weight} (hk : t[k]? = some (.internal w l r)) :
    n ≤ k ∧ k ≤ 2 * n - 2 ∧ l < k ∧ r < k ∧ l ≠ r := by
  obtain ⟨hlt, -⟩ := List.getElem?_eq_some_iff.mp hk
  have hlen := h.length
  by_cases hn : k < n
  · obtain ⟨x, v, hx⟩ := h.leaf k hn
    simp [hk] at hx
  · obtain ⟨w', l', r', hi, hl, hr, hne, -⟩ := h.internal k (by omega) (by omega)
    rw [hk, Option.some.injEq, Node.internal.injEq] at hi
    obtain ⟨-, rfl, rfl⟩ := hi
    exact ⟨by omega, by omega, hl, hr, hne⟩

/-- R60: a leaf record is one of the first n. -/
theorem TreeOk.leaf_lt (h : TreeOk n t) {k : Nat} {x : Sym} {w : Weight} (hk : t[k]? = some (.leaf x w)) : k < n := by
  obtain ⟨hlt, -⟩ := List.getElem?_eq_some_iff.mp hk
  have hlen := h.length
  by_contra hn
  obtain ⟨w', l, r, hi, -⟩ := h.internal k (by omega) (by omega)
  simp [hk] at hi

/-- 41_tree_builder.md R172: a symbol has one leaf. -/
theorem TreeOk.leaf_inj (h : TreeOk n t) {i j : Nat} {x : Sym} {v w : Weight} (hi : t[i]? = some (.leaf x v))
    (hj : t[j]? = some (.leaf x w)) : i = j := by
  rcases Nat.lt_trichotomy i j with hij | hij | hij
  · exact absurd (h.ordered i j x x v w hij hi hj) (lt_irrefl _)
  · exact hij
  · exact absurd (h.ordered j i x x w v hij hj hi) (lt_irrefl _)

/-- With two leaves or more the root is internal. -/
theorem TreeOk.root_internal (h : TreeOk n t) (hn : 2 ≤ n) : ∃ w l r, t[2 * n - 2]? = some (.internal w l r) := by
  obtain ⟨w, l, r, hi, -⟩ := h.internal (2 * n - 2) (by omega) (by omega)
  exact ⟨w, l, r, hi⟩

/-! ### The record a path leads to -/

/-- The path `p` leads from record `root` to record `j`: `follow` with the record's index, built at the path's end. -/
inductive PathTo (t : List Node) (root : Nat) : Bits → Nat → Prop where
  | root : PathTo t root [] root
  | child {p : Bits} {i j l r : Nat} {w : Weight} (b : Bool) : PathTo t root p i →
      t[i]? = some (.internal w l r) → j = (if b then r else l) → PathTo t root (p ++ [b]) j

/-- R201: the first bit leads from an internal record to a child. -/
theorem follow_cons_eq_some {k : Nat} {b : Bool} {p : Bits} {x : Node} :
    follow t k (b :: p) = some x ↔ ∃ w l r, t[k]? = some (.internal w l r) ∧ follow t (if b then r else l) p = some x := by
  rw [follow]
  split
  · next w l r hk => simp [hk]
  · next hk => simpa using fun w l r hi => absurd hi (hk w l r)

/-- R201: so does the last. -/
theorem follow_concat_eq_some {k : Nat} {b : Bool} {p : Bits} {x : Node} :
    follow t k (p ++ [b]) = some x ↔ ∃ w l r, follow t k p = some (.internal w l r) ∧ t[if b then r else l]? = some x := by
  induction p generalizing k with
  | nil => exact follow_cons_eq_some
  | cons c p ih =>
    simp only [List.cons_append, follow_cons_eq_some, ih]
    constructor
    · rintro ⟨w, l, r, hk, w', l', r', hp, hx⟩; exact ⟨w', l', r', ⟨w, l, r, hk, hp⟩, hx⟩
    · rintro ⟨w', l', r', ⟨w, l, r, hk, hp⟩, hx⟩; exact ⟨w, l, r, hk, w', l', r', hp, hx⟩

/-- `follow` answers the record that the path leads to. -/
theorem follow_eq_some_iff {k : Nat} {p : Bits} {x : Node} :
    follow t k p = some x ↔ ∃ j, PathTo t k p j ∧ t[j]? = some x := by
  constructor
  · intro h
    induction p using List.reverseRecOn generalizing x with
    | nil => exact ⟨k, .root, h⟩
    | append_singleton p b ih =>
      obtain ⟨w, l, r, hp, hx⟩ := follow_concat_eq_some.mp h
      obtain ⟨i, hi, hrec⟩ := ih hp
      exact ⟨_, .child b hi hrec rfl, hx⟩
  · rintro ⟨j, hj, hx⟩
    induction hj generalizing x with
    | root => exact hx
    | child b _ hi hj ih => exact follow_concat_eq_some.mpr ⟨_, _, _, ih hi, hj ▸ hx⟩

/-- Records fall along a path, since children come before their parent (R60). -/
theorem PathTo.length_add_le (h : TreeOk n t) {root j : Nat} {p : Bits} (hp : PathTo t root p j) :
    p.length + j ≤ root := by
  induction hp with
  | root => simp
  | child b _ hi hj ih =>
    obtain ⟨-, -, hl, hr, -⟩ := h.of_internal hi
    rw [List.length_append, List.length_singleton]
    split at hj <;> omega

/-- 41_tree_builder.md R181: a leaf's depth is below the number of leaves. -/
theorem PathTo.length_lt (h : TreeOk n t) {j : Nat} {p : Bits} (hp : PathTo t (2 * n - 2) p j) (hj : j < n) :
    p.length < n := by
  cases hp with
  | root => exact h.pos
  | child b hp hi =>
    have hle := hp.length_add_le h
    obtain ⟨hn, -⟩ := h.of_internal hi
    rw [List.length_append, List.length_singleton]
    omega

/-- Only the empty path leads to the root. -/
theorem PathTo.concat_lt (h : TreeOk n t) {root j : Nat} {p : Bits} {b : Bool} (hp : PathTo t root (p ++ [b]) j) :
    j < root := by
  have hle := hp.length_add_le h
  rw [List.length_append, List.length_singleton] at hle
  omega

theorem childOf_of_bit {i j l r : Nat} {w : Weight} {b : Bool} (hi : t[i]? = some (.internal w l r))
    (hj : j = if b then r else l) : childOf t j i :=
  ⟨w, l, r, hi, by cases b <;> simp [hj]⟩

/-- R60: a record has at most one path from the root, since its parent has and the parent's two children differ. -/
theorem PathTo.unique (h : TreeOk n t) {p q : Bits} {j : Nat} (hp : PathTo t (2 * n - 2) p j)
    (hq : PathTo t (2 * n - 2) q j) : p = q := by
  induction hp generalizing q with
  | root =>
    cases hq with
    | root => rfl
    | child b hq hi hj => exact absurd ((PathTo.child b hq hi hj).concat_lt h) (lt_irrefl _)
  | @child p i j l r w b hp hi hj ih =>
    have hlt := (PathTo.child b hp hi hj).concat_lt h
    cases hq with
    | root => exact absurd hlt (lt_irrefl _)
    | @child q i' _ l' r' w' b' hq hi' hj' =>
      obtain ⟨m, -, honly⟩ := h.parent j hlt
      obtain rfl : i = i' := (honly i (childOf_of_bit hi hj)).trans (honly i' (childOf_of_bit hi' hj')).symm
      rw [hi, Option.some.injEq, Node.internal.injEq] at hi'
      obtain ⟨-, rfl, rfl⟩ := hi'
      obtain ⟨-, -, -, -, hne⟩ := h.of_internal hi
      have hb : b = b' := by cases b <;> cases b' <;> simp_all
      rw [ih hq, hb]

/-- R60: every record has a path from the root, its parent's and one bit more. -/
theorem TreeOk.exists_path (h : TreeOk n t) {k : Nat} (hk : k ≤ 2 * n - 2) : ∃ p, PathTo t (2 * n - 2) p k := by
  by_cases hroot : k = 2 * n - 2
  · exact ⟨[], hroot ▸ .root⟩
  · obtain ⟨m, ⟨w, l, r, hm, hc⟩, -⟩ := h.parent k (by omega)
    obtain ⟨-, hle, hl, hr, -⟩ := h.of_internal hm
    obtain ⟨p, hp⟩ := h.exists_path hle
    rcases hc with rfl | rfl
    · exact ⟨_, .child false hp hm rfl⟩
    · exact ⟨_, .child true hp hm rfl⟩
termination_by 2 * n - 2 - k

/-- A path that ends at a leaf goes no further, so no other path begins with it. -/
theorem follow_leaf_append {k : Nat} {p q : Bits} {x : Sym} {w : Weight} {y : Node}
    (hp : follow t k p = some (.leaf x w)) (hq : follow t k (p ++ q) = some y) : q = [] := by
  induction p generalizing k with
  | nil =>
    cases q with
    | nil => rfl
    | cons b q =>
      obtain ⟨w', l, r, hk, -⟩ := follow_cons_eq_some.mp hq
      simp [follow, hk] at hp
  | cons b p ih =>
    obtain ⟨w', l, r, hk, hp⟩ := follow_cons_eq_some.mp hp
    obtain ⟨w'', l', r', hk', hq⟩ := follow_cons_eq_some.mp hq
    rw [hk, Option.some.injEq, Node.internal.injEq] at hk'
    obtain ⟨-, rfl, rfl⟩ := hk'
    exact ih hp hq

end Sys2Proof.Machine
end

section
/-! PROOFS. GEN_CODES's codewords (42_code_table.md R201 to R203): the walk finds exactly the leaves'
paths, and they make a PrefixCode, which the tables hold (10_state.md R57, R58). -/

namespace Sys2Proof.Machine

variable {n : Nat} {t : List Node}

/-! ### The walk -/

/-- R201: the walk lists each leaf at or below record k, within its depth, with its path. -/
theorem mem_walk {d k : Nat} {path c : Bits} {x : Sym} : (x, c) ∈ walk t d k path ↔
    ∃ p w, c = path ++ p ∧ p.length < d ∧ follow t k p = some (.leaf x w) := by
  induction d generalizing k path with
  | zero => simp [walk]
  | succ d ih =>
    rw [walk]
    split
    · next hk =>
      refine iff_of_false List.not_mem_nil fun ⟨p, w, _, _, hp⟩ => ?_
      cases p <;> simp [follow, hk] at hp
    · next y v hk =>
      rw [List.mem_singleton, Prod.mk.injEq]
      constructor
      · rintro ⟨rfl, rfl⟩; exact ⟨[], v, by simp, by simp, hk⟩
      · rintro ⟨p, w, rfl, -, hp⟩
        rcases p with _ | ⟨b, p⟩
        · obtain ⟨rfl, -⟩ : y = x ∧ v = w := by simpa [follow, hk] using hp
          simp
        · simp [follow, hk] at hp
    · next v l r hk =>
      rw [List.mem_append, ih, ih]
      constructor
      · rintro (⟨p, w, rfl, hd, hp⟩ | ⟨p, w, rfl, hd, hp⟩)
        · exact ⟨false :: p, w, by simp, by simpa using hd, follow_cons_eq_some.mpr ⟨v, l, r, hk, hp⟩⟩
        · exact ⟨true :: p, w, by simp, by simpa using hd, follow_cons_eq_some.mpr ⟨v, l, r, hk, hp⟩⟩
      · rintro ⟨p, w, rfl, hd, hp⟩
        rcases p with _ | ⟨b, p⟩
        · simp [follow, hk] at hp
        · rw [List.length_cons, Nat.add_lt_add_iff_right] at hd
          simp only [follow, hk] at hp
          cases b
          · exact .inl ⟨p, w, by simp, hd, hp⟩
          · exact .inr ⟨p, w, by simp, hd, hp⟩

/-- R201: no path is listed twice. -/
theorem walk_nodup (d k : Nat) (path : Bits) : (walk t d k path).Nodup := by
  induction d generalizing k path with
  | zero => simp [walk]
  | succ d ih =>
    rw [walk]
    split
    · exact List.nodup_nil
    · exact List.nodup_singleton _
    · refine List.nodup_append'.mpr ⟨ih _ _, ih _ _, fun ⟨x, c⟩ hl hr => ?_⟩
      obtain ⟨p, _, hp, -⟩ := mem_walk.mp hl
      obtain ⟨q, _, hq, -⟩ := mem_walk.mp hr
      simp [hp] at hq

/-! ### The codes of a tree -/

/-- R202: the code of a single leaf. -/
theorem treeCodes_single {x : Sym} {w : Weight} (h : t[0]? = some (.leaf x w)) : treeCodes t 1 = [(x, [false])] := by
  simp [treeCodes, rootIndex, h]

/-- R201: with two leaves or more GEN_CODES walks from the root. -/
theorem treeCodes_of_two_le (h : TreeOk n t) (hn : 2 ≤ n) : treeCodes t n = walk t t.length (2 * n - 2) [] := by
  obtain ⟨w, l, r, hr⟩ := h.root_internal hn
  simp [treeCodes, rootIndex, hr]

/-- R201: with two leaves or more the codes are the leaves and their paths. -/
theorem mem_treeCodes (h : TreeOk n t) (hn : 2 ≤ n) {x : Sym} {c : Bits} :
    (x, c) ∈ treeCodes t n ↔ ∃ w, follow t (2 * n - 2) c = some (.leaf x w) := by
  rw [treeCodes_of_two_le h hn, mem_walk]
  constructor
  · rintro ⟨p, w, rfl, -, hp⟩; exact ⟨w, hp⟩
  · rintro ⟨w, hc⟩
    obtain ⟨j, hj, hx⟩ := follow_eq_some_iff.mp hc
    have hlt := hj.length_lt h (h.leaf_lt hx)
    have hlen := h.length
    exact ⟨c, w, rfl, by omega, hc⟩

/-- R203: what makes codes a codebook that the tables can hold: each symbol once, with a codeword of 1 to 255 bits that
no other symbol's begins with. -/
structure PrefixCode (codes : List (Sym × Bits)) : Prop where
  nonempty   : codes ≠ []
  nodup      : (codes.map Prod.fst).Nodup
  length     : ∀ {x c}, (x, c) ∈ codes → 1 ≤ c.length ∧ c.length ≤ 255
  prefixFree : ∀ {x y c d}, (x, c) ∈ codes → (y, d) ∈ codes → c <+: d → x = y

theorem prefixCode_singleton (x : Sym) : PrefixCode [(x, [false])] where
  nonempty := by simp
  nodup := by simp
  length := by simp +contextual
  prefixFree := by simp +contextual

/-- R203: the codes of a tree of two leaves or more. -/
theorem treeCodes_prefixCode_of_two_le (h : TreeOk n t) (hn : 2 ≤ n) : PrefixCode (treeCodes t n) where
  nonempty := by
    obtain ⟨x, w, hx⟩ := h.leaf 0 h.pos
    obtain ⟨p, hp⟩ := h.exists_path (Nat.zero_le _)
    exact List.ne_nil_of_mem ((mem_treeCodes h hn).mpr ⟨w, follow_eq_some_iff.mpr ⟨0, hp, hx⟩⟩)
  nodup := by
    refine List.Nodup.map_on ?_ (treeCodes_of_two_le h hn ▸ walk_nodup _ _ _)
    rintro ⟨x, c⟩ hc ⟨y, d⟩ hd rfl
    obtain ⟨v, hc⟩ := (mem_treeCodes h hn).mp hc
    obtain ⟨w, hd⟩ := (mem_treeCodes h hn).mp hd
    obtain ⟨i, hi, hxi⟩ := follow_eq_some_iff.mp hc
    obtain ⟨j, hj, hxj⟩ := follow_eq_some_iff.mp hd
    obtain rfl := h.leaf_inj hxi hxj
    rw [hi.unique h hj]
  length := by
    intro x c hc
    obtain ⟨w, hc⟩ := (mem_treeCodes h hn).mp hc
    obtain ⟨j, hj, hx⟩ := follow_eq_some_iff.mp hc
    have hlt := hj.length_lt h (h.leaf_lt hx)
    have hmost := h.atMost
    refine ⟨List.length_pos_iff.mpr ?_, by omega⟩
    rintro rfl
    obtain ⟨v, l, r, hr⟩ := h.root_internal hn
    simp [follow, hr] at hc
  prefixFree := by
    rintro x y c d hc hd ⟨q, rfl⟩
    obtain ⟨v, hc⟩ := (mem_treeCodes h hn).mp hc
    obtain ⟨w, hd⟩ := (mem_treeCodes h hn).mp hd
    obtain rfl := follow_leaf_append hc hd
    rw [List.append_nil, hc] at hd
    cases hd
    rfl

/-- R203: GEN_CODES makes a PrefixCode of every tree. -/
theorem treeCodes_prefixCode (h : TreeOk n t) : PrefixCode (treeCodes t n) := by
  by_cases hn : 2 ≤ n
  · exact treeCodes_prefixCode_of_two_le h hn
  · obtain rfl : n = 1 := by have := h.pos; omega
    obtain ⟨x, w, hx⟩ := h.leaf 0 h.pos
    rw [treeCodes_single hx]
    exact prefixCode_singleton x

/-! ### The tables of a PrefixCode -/

variable {codes : List (Sym × Bits)} {x : Sym} {c : Bits}

theorem PrefixCode.lenTable_get (h : PrefixCode codes) (hx : (x, c) ∈ codes) :
    ((lenTable codes).get x).toNat = c.length := by
  obtain ⟨-, hle⟩ := h.length hx
  rw [lenTable_get_of_mem h.nodup hx, BitVec.toNat_ofNat, Nat.mod_eq_of_lt (by omega)]

theorem PrefixCode.bitsTable_get (h : PrefixCode codes) (hx : (x, c) ∈ codes) :
    ((bitsTable codes).get x).toNat = val c := by
  obtain ⟨-, hle⟩ := h.length hx
  have hlt : val c < 2 ^ 256 := (val_lt c).trans_le (Nat.pow_le_pow_right (by decide) (by omega))
  rw [bitsTable_get_of_mem h.nodup hx, BitVec.toNat_ofNat, Nat.mod_eq_of_lt hlt]

/-- R58: the tables hold each symbol's codeword. -/
theorem PrefixCode.codeOf_eq (h : PrefixCode codes) (hx : (x, c) ∈ codes) :
    codeOf (lenTable codes) (bitsTable codes) x = c := by
  rw [codeOf, h.lenTable_get hx, h.bitsTable_get hx, bitsOf_mod, bitsOf_val]

/-- R56: exactly the symbols of the code have a codeword in the tables. -/
theorem PrefixCode.lenTable_get_ne_zero (h : PrefixCode codes) :
    (lenTable codes).get x ≠ 0#8 ↔ ∃ c, (x, c) ∈ codes := by
  constructor
  · intro hx
    by_contra hno
    exact hx (lenTable_get_of_not_mem codes x (by simpa using hno))
  · rintro ⟨c, hc⟩ h0
    obtain ⟨hpos, -⟩ := h.length hc
    rw [← h.lenTable_get hc, h0] at hpos
    exact absurd hpos (by decide)

/-- R57: CODE_BITS is 0 above the codeword's bits. -/
theorem PrefixCode.bitsTable_get_lt (h : PrefixCode codes) (x : Sym) :
    ((bitsTable codes).get x).toNat < 2 ^ ((lenTable codes).get x).toNat := by
  by_cases hx : x ∈ codes.map Prod.fst
  · obtain ⟨⟨y, c⟩, hc, rfl⟩ := List.mem_map.mp hx
    rw [h.bitsTable_get hc, h.lenTable_get hc]
    exact val_lt c
  · rw [bitsTable_get_of_not_mem codes x hx]
    exact Nat.two_pow_pos _

/-- R58, case (b): tables that hold a PrefixCode, with CODES_VALID = 1. -/
theorem PrefixCode.codebookBuilt (h : PrefixCode codes) {s : State} (hlen : s.codeLen = lenTable codes)
    (hbits : s.codeBits = bitsTable codes) (hv : s.codesValid = true) : s.codebookBuilt := by
  have hcoded (x) : s.coded x ↔ ∃ c, (x, c) ∈ codes := by rw [State.coded, hlen, h.lenTable_get_ne_zero]
  have hcode {x c} (hx : (x, c) ∈ codes) : s.code x = c := by rw [State.code, hlen, hbits, h.codeOf_eq hx]
  have hpf : s.prefixFree := by
    intro x y hx hy hxy hp
    obtain ⟨c, hc⟩ := (hcoded x).mp hx
    obtain ⟨d, hd⟩ := (hcoded y).mp hy
    rw [hcode hc, hcode hd] at hp
    exact hxy (h.prefixFree hc hd hp)
  obtain ⟨⟨x, c⟩, hx⟩ := List.exists_mem_of_ne_nil _ h.nonempty
  refine ⟨⟨x, (hcoded x).mpr ⟨c, hx⟩⟩, hv, fun x y hx hy hxy he => ?_, hpf, fun x => ?_⟩
  · exact hpf x y hx hy hxy (he ▸ List.prefix_refl _)
  · rw [hlen, hbits]
    exact h.bitsTable_get_lt x

/-! ### The invariant's codebook -/

/-- R61: a codebook stands only beside its tree. -/
theorem State.Inv.treeOk_of_codesValid {s : State} (h : s.Inv) (hv : s.codesValid = true) :
    TreeOk s.nsym.toNat s.tree := by
  obtain ⟨hok, hnone⟩ := h.tree
  cases ht : s.treeValid with
  | true => exact hok ht
  | false =>
    obtain ⟨-, hfalse⟩ := hnone ht
    simp [hv] at hfalse

/-- R58, case (a): with CODES_VALID = 0 the tables are 0. -/
theorem State.Inv.codebookEmpty {s : State} (h : s.Inv) (hv : s.codesValid = false) : s.codebookEmpty := by
  obtain ⟨hlen, hbits, -⟩ := h.codes
  simp only [hv] at hlen hbits
  exact ⟨fun x => by simp [hlen, lenTable], fun x => by simp [hbits, bitsTable], hv⟩

/-- R58, case (b): with CODES_VALID = 1 the tables hold the PrefixCode of TREE. -/
theorem State.Inv.codebookBuilt {s : State} (h : s.Inv) (hv : s.codesValid = true) : s.codebookBuilt := by
  obtain ⟨hlen, hbits, -⟩ := h.codes
  simp only [hv, if_true] at hlen hbits
  exact (treeCodes_prefixCode (h.treeOk_of_codesValid hv)).codebookBuilt hlen hbits hv

/-- Settles O27: CODES_VALID tells the two cases apart, and where it is 1 the tables hold TREE's PrefixCode. -/
theorem codebookIsEmptyOrPrefixFree : Obligations.CodebookIsEmptyOrPrefixFree := by
  intro s h
  constructor
  · cases hv : s.codesValid with
    | false => exact .inl (h.codebookEmpty hv)
    | true => exact .inr (h.codebookBuilt hv)
  · rintro ⟨⟨-, -, hfalse⟩, -, htrue, -⟩
    simp [htrue] at hfalse

end Sys2Proof.Machine
end

section
/-! PROOFS. Host writes while a command runs (20_memory.md R88), and the three tables on the bus: FREQ (R90) and the
read-only CODE_LEN and CODE_BITS (R91). -/

namespace Sys2Proof.Machine

variable {s : State} {off : Nat}

/-! ### Registers by offset -/

/-- 10_state.md R40: the registers stand in the words of the window in the order of `Reg`'s constructors. -/
theorem eq_ctorIdx_of_regAt {n : Nat} {r : Reg} (h : regAt n = some r) : n = r.ctorIdx := by
  unfold regAt at h
  split at h <;> cases h <;> rfl

/-- R82: a register lies at its own word's offsets only. -/
theorem regAt_of_locate {r : Reg} (h : locate off = .reg r) : regAt (off / 4) = some r := by
  simp only [locate] at h
  split_ifs at h
  split at h
  · next hr => rwa [hr, Option.some.injEq, ← Loc.reg.injEq]
  · cases h

/-- R82: an offset in another word than the register's is not the register's. -/
theorem locate_ne_reg {n : Nat} {r : Reg} (hr : regAt n = some r) (h : off / 4 ≠ n) : locate off ≠ .reg r :=
  fun hl => h ((eq_ctorIdx_of_regAt (regAt_of_locate hl)).trans (eq_ctorIdx_of_regAt hr).symm)

/-! ### Bus writes -/

/-- 10_state.md R44: a STATUS write by the one field it writes. -/
theorem State.writeStatus_eq (v : Word) : s.writeStatus v = { s with done := if v.getLsbD 1 then false else s.done } := by
  unfold State.writeStatus
  split <;> rfl

/-- 10_state.md R42: a CTRL write has its effect, whatever runs. -/
theorem busWrite_of_ctrl (h : locate off = .reg .ctrl) (v : Word) : busWrite s off v = s.writeCtrl v := by
  simp [busWrite, h, busyWrite, idleWrite]

/-- 10_state.md R44: a STATUS write has its effect, whatever runs. -/
theorem busWrite_of_status (h : locate off = .reg .status) (v : Word) : busWrite s off v = s.writeStatus v := by
  simp [busWrite, h, busyWrite, idleWrite]

/-- R88: while BUSY = 1 every other write is ignored. -/
theorem busWrite_of_busy (hb : s.busy = true) (hctrl : locate off ≠ .reg .ctrl) (hstatus : locate off ≠ .reg .status)
    (v : Word) : busWrite s off v = s := by
  rw [busWrite, if_pos hb]
  unfold busyWrite
  split
  · next h => exact absurd h hctrl
  · next h => exact absurd h hstatus
  · rfl

/-- R85: the locations that a host write can change. -/
def hostWritable : Loc → Bool
  | .reg .ctrl | .reg .cmd | .reg .status | .reg .inLen | .freq _ | .inWord _ => true
  | _ => false

/-- R85: a write anywhere else is ignored, whatever runs. -/
theorem busWrite_of_not_hostWritable (h : hostWritable (locate off) = false) (v : Word) : busWrite s off v = s := by
  unfold busWrite
  generalize locate off = l at h
  split
  · unfold busyWrite
    split <;> simp_all [hostWritable]
  · unfold idleWrite
    split <;> simp_all [hostWritable]

/-- R90: while BUSY = 0 a write to FREQ[x] sets that entry. -/
theorem busWrite_of_freq {x : Sym} (hb : s.busy = false) (h : locate off = .freq x) (v : Word) :
    busWrite s off v = { s with freq := s.freq.put x v } := by
  simp [busWrite, hb, h, idleWrite]

/-! ### Bus reads -/

/-- R84: while BUSY = 0 a read answers the value of its location. -/
theorem busRead_of_idle (hb : s.busy = false) : busRead s off = locValue s (locate off) := by
  simp [busRead, hb]

/-- R84: an idle read of a location that draws no free value changes nothing of CORE. -/
theorem step_read_of_idle {ms : List Move} {r : Word} (hm : s.moves = .read (s.cfg.base + off) :: ms)
    (hoff : off < 0x03000000) (hb : s.busy = false)
    (hv : locValue { s with moves := ms } (locate off) = (r, s.free)) :
    step s = .next { s with moves := ms, lastRead := some r } := by
  rw [step_read hm hoff, hostRead_of_busRead ((busRead_of_idle (s := { s with moves := ms }) hb).trans hv)]

/-! ### The statements -/

/-- Settles O8: CTRL and STATUS are words 1 and 3, and a busy write at any other word is ignored. -/
theorem writesWhileBusy : Obligations.WritesWhileBusy := by
  intro s ms off v hoff hm hb
  have hctrl : regAt 1 = some .ctrl := rfl
  have hstatus : regAt 3 = some .status := rfl
  rw [step_write hm hoff]
  refine ⟨fun h1 => ?_, fun h3 => ?_, fun h1 h3 => ?_⟩
  · rw [busWrite_of_ctrl (locate_reg h1 hctrl), State.writeCtrl]
  · rw [busWrite_of_status (locate_reg h3 hstatus), State.writeStatus_eq]
  · rw [busWrite_of_busy (s := { s with moves := ms }) hb (locate_ne_reg hctrl h1) (locate_ne_reg hstatus h3)]

/-- Settles O10: a FREQ write puts one entry of the table, which leaves every other entry. -/
theorem freqEntriesReadAndWrite : Obligations.FreqEntriesReadAndWrite := by
  intro s ms x v j hj hb
  have hl := locate_freq x j hj
  have hoff : 0x400 + 4 * x.toNat + j < 0x03000000 := by omega
  constructor
  · intro hm
    exact step_read_of_idle hm hoff hb (by rw [hl]; rfl)
  · intro hm
    refine ⟨{ s with moves := ms, freq := s.freq.put x v }, ?_, rfl, ?_, fun y hy => ?_⟩
    · rw [step_write hm hoff, busWrite_of_freq (s := { s with moves := ms }) hb hl]
    · exact Table.get_put_same s.freq x v
    · exact Table.get_put_ne s.freq x y v hy

/-- Settles O11: no host write reaches a location of either table. -/
theorem codebookEntriesAreReadOnly : Obligations.CodebookEntriesAreReadOnly := by
  intro s ms x w j v hw hj
  have hlen := locate_codeLen x j hj
  have hbits := locate_codeBits x w j hw hj
  have hoffLen : 0x800 + 4 * x.toNat + j < 0x03000000 := by omega
  have hoffBits : 0x2000 + 32 * x.toNat + 4 * w + j < 0x03000000 := by omega
  refine ⟨fun hb hm => ?_, fun hb hm => ?_, fun hm => ?_, fun hm => ?_⟩
  · exact step_read_of_idle hm hoffLen hb (by rw [hlen]; rfl)
  · exact step_read_of_idle hm hoffBits hb (by rw [hbits]; rfl)
  · rw [step_write hm hoffLen, busWrite_of_not_hostWritable (by rw [hlen]; rfl)]
  · rw [step_write hm hoffBits, busWrite_of_not_hostWritable (by rw [hbits]; rfl)]

end Sys2Proof.Machine
end

section
/-! PROOFS. Command words: a word is its two fields, and decoding inverts encoding (30_encoding.md section 1). -/

namespace Sys2Proof

/-- R120: bits [31:8] and bits [7:0] make up the whole word. -/
theorem mbzField_append_opcField (v : Word) : (mbzField v ++ opcField v : BitVec 32) = v :=
  (BitVec.extractLsb'_append_extractLsb'_eq_extractLsb' rfl).trans BitVec.extractLsb'_eq_self

@[simp] theorem mbzField_encode (i : Instr) : mbzField (encode i) = 0#24 := by
  cases i <;> rfl

@[simp] theorem opcField_encode (i : Instr) : opcField (encode i) = opcode i := by
  cases i <;> rfl

/-- A word is a command's word exactly when its fields are that command's. -/
theorem eq_encode_iff (v : Word) (i : Instr) : v = encode i ↔ mbzField v = 0#24 ∧ opcField v = opcode i := by
  constructor
  · rintro rfl
    exact ⟨mbzField_encode i, opcField_encode i⟩
  · rintro ⟨hmbz, hopc⟩
    rw [← mbzField_append_opcField v, hmbz, hopc, encode]

@[simp] theorem decodeOpc_opcode (i : Instr) : decodeOpc (opcode i) = .ok i := by
  cases i <;> rfl

/-- R121's map read backwards: a command is answered from its own opcode only. -/
theorem decodeOpc_eq_ok_iff (o : BitVec 8) (i : Instr) : decodeOpc o = .ok i ↔ o = opcode i := by
  constructor
  · intro h
    unfold decodeOpc at h
    split_ifs at h with h1 h2 h3 h4 h5 h6 <;> cases h <;> assumption
  · rintro rfl
    exact decodeOpc_opcode i

/-- A word decodes to a command exactly when it is the word that encodes it. -/
theorem decode_eq_ok_iff (v : Word) (i : Instr) : decode v = .ok i ↔ v = encode i := by
  rw [eq_encode_iff, ← decodeOpc_eq_ok_iff, decode]
  by_cases hmbz : mbzField v = 0#24
  · simp only [hmbz, if_true, true_and]
  · simp only [hmbz, if_false, false_and, reduceCtorEq]

/-- Settles O1: the word of each row of R121 is its command's encoding. -/
theorem opcodeMapWordsDecode : Obligations.OpcodeMapWordsDecode := fun v =>
  ⟨decode_eq_ok_iff v .count, decode_eq_ok_iff v .buildTree, decode_eq_ok_iff v .genCodes,
    decode_eq_ok_iff v .buildCodec, decode_eq_ok_iff v .encode, decode_eq_ok_iff v .decode⟩

end Sys2Proof
end

section
/-! PROOFS. COUNT (40_frequency_counter.md): with IN_LEN within the capacity it ends well, and its counters hold the
number of times each symbol occurs in the input. -/

namespace Sys2Proof.Machine

variable {s : State}

/-- 60_exceptions.md R311: an IN_LEN within the capacity is in range. -/
theorem State.lengthOk.lengthOutOfRange_eq_false (h : s.lengthOk) : s.lengthOutOfRange = false :=
  decide_eq_false (Nat.not_lt.mpr h)

/-- 20_memory.md R93: a command reads IN_LEN bytes. -/
@[simp] theorem State.input_length (s : State) : s.input.length = s.inLen.toNat :=
  Memory.readList_length _ _ _ _

/-- R150: with IN_LEN within the capacity COUNT ends well, with FREQ set to the counts of the input. -/
theorem exec_count_of_lengthOk (h : s.lengthOk) :
    exec .count s = .next (State.complete { s.afterInput with freq := countBytes s.input } none) := by
  rcases countBody_cases s with ⟨hout, -⟩ | ⟨-, hbody⟩
  · simp [h.lengthOutOfRange_eq_false] at hout
  · rw [exec_eq, bodyOf, hbody, Ended.complete_eq, finished_state, finished_error]

/-- R152: no counter of an input wraps, since IN_LEN is a 32-bit number. -/
theorem countBytes_input_toNat (s : State) (x : Sym) : ((countBytes s.input).get x).toNat = s.input.count x := by
  have hle : s.input.count x ≤ s.inLen.toNat := s.input_length ▸ List.count_le_length
  rw [countBytes_get, BitVec.toNat_ofNat, Nat.mod_eq_of_lt (hle.trans_lt s.inLen.isLt)]

/-- R153: every byte is counted at one symbol. -/
theorem sumOver_count (bs : List Byte) : sumOver (fun x => bs.count x) = bs.length := by
  rw [sumOver, ← List.sum_toFinset _ symbols_nodup, ← Multiset.coe_card]
  simp only [← Multiset.coe_count]
  exact Multiset.sum_count_eq_card fun x _ => List.mem_toFinset.mpr (mem_symbols x)

/-- Settles O31: no counter wraps, and the completion step leaves every other field as COUNT's body does. -/
theorem countCountsEverySymbol : Obligations.CountCountsEverySymbol := by
  intro s h
  refine ⟨_, exec_count_of_lengthOk h, ⟨rfl, rfl, rfl⟩, countBytes_input_toNat s, ?_, ?_, ?_, ?_⟩
  · exact ⟨fun _ => rfl, rfl, rfl, rfl, rfl, rfl⟩
  · exact ⟨rfl, rfl, rfl⟩
  · exact ⟨rfl, rfl, rfl, rfl⟩
  · exact ⟨rfl, rfl, rfl, fun _ => rfl⟩

/-- Settles O32: the counts of O31 add up to the number of bytes read, and a count is positive where its symbol occurs. -/
theorem countsAddUpToInLen : Obligations.CountsAddUpToInLen := by
  intro s h
  obtain ⟨t, ht, ⟨-, -, herr⟩, hfreq, -⟩ := countCountsEverySymbol s h
  refine ⟨t, ht, herr, ?_, fun x => ?_⟩
  · simp only [hfreq, sumOver_count, State.input_length]
  · rw [hfreq, List.one_le_count_iff]

end Sys2Proof.Machine
end

section
/-! PROOFS. The leaves of BUILD_TREE (41_tree_builder.md R172): the present symbols, in ascending order, and the two ways
the command ends (R170, R176). -/

namespace Sys2Proof.Machine

variable {freq : Table 32}

/-! ### The present symbols -/

@[simp] theorem mem_present {x : Sym} : x ∈ present freq ↔ freq.get x ≠ 0#32 := by simp [present]

theorem present_length (freq : Table 32) : (present freq).length = symbols.countP fun x => freq.get x != 0#32 :=
  List.countP_eq_length_filter.symm

theorem present_length_le (freq : Table 32) : (present freq).length ≤ 256 :=
  length_symbols ▸ List.length_filter_le _ _

theorem present_ascending (freq : Table 32) : (present freq).Pairwise fun x y => x.toNat < y.toNat :=
  symbols_ascending.sublist List.filter_sublist

/-- R176: there is a leaf exactly when some FREQ entry is not 0. -/
theorem State.hasLeaf_iff {s : State} : s.hasLeaf ↔ present s.freq ≠ [] := by
  simp only [State.hasLeaf, ← mem_present]
  exact ⟨fun ⟨_, hx⟩ => List.ne_nil_of_mem hx, List.exists_mem_of_ne_nil _⟩

/-- NSYM holds the number of leaves. -/
theorem toNat_ofNat_present_length (freq : Table 32) :
    (BitVec.ofNat 32 (present freq).length).toNat = (present freq).length := by
  have := present_length_le freq
  rw [BitVec.toNat_ofNat, Nat.mod_eq_of_lt (by omega)]

/-- In an ascending list an entry's index counts the entries below it. -/
theorem countP_toNat_lt_getElem {l : List Sym} (h : l.Pairwise fun x y => x.toNat < y.toNat) {k : Nat}
    (hk : k < l.length) : l.countP (fun y => decide (y.toNat < l[k].toNat)) = k := by
  induction l generalizing k with
  | nil => simp at hk
  | cons x l ih =>
    obtain ⟨hx, hl⟩ := List.pairwise_cons.mp h
    cases k with
    | zero =>
      refine List.countP_eq_zero.mpr fun y hy => ?_
      rcases List.mem_cons.mp hy with rfl | hy
      · simp
      · simpa using (hx y hy).le
    | succ k =>
      have hk : k < l.length := by simpa using hk
      have hlt : x.toNat < l[k].toNat := hx _ (List.getElem_mem hk)
      simp only [List.getElem_cons_succ, List.countP_cons, hlt, decide_true, if_true, ih hl hk]

/-- R172: k present symbols lie below the k-th. -/
theorem countP_below_present {k : Nat} (hk : k < (present freq).length) :
    symbols.countP (fun y => freq.get y != 0#32 && decide (y.toNat < (present freq)[k].toNat)) = k := by
  have h := countP_toNat_lt_getElem (present_ascending freq) hk
  rw [List.countP_congr (q := fun y => decide (y.toNat < (present freq)[k].toNat) && freq.get y != 0#32)
    (fun y _ => by rw [Bool.and_comm]), ← List.countP_filter]
  exact h

/-- R177: the absent symbols add nothing to the sum of FREQ. -/
theorem sum_present (freq : Table 32) :
    ((present freq).map fun x => (freq.get x).toNat).sum = sumOver fun x => (freq.get x).toNat := by
  rw [sumOver, ← List.sum_filter_bne_zero (symbols.map _), List.filter_map, present]
  congr 2
  refine List.filter_congr fun x _ => ?_
  simp [bne, BitVec.toNat_eq]

/-- R177: the sum of FREQ fits in a weight. -/
theorem sumOver_freq_lt (freq : Table 32) : (sumOver fun x => (freq.get x).toNat) < 2 ^ 40 := by
  have h : (sumOver fun x => (freq.get x).toNat) ≤ (symbols.map fun x => (freq.get x).toNat).length • (2 ^ 32 - 1) := by
    refine List.sum_le_card_nsmul _ _ fun v hv => ?_
    obtain ⟨x, -, rfl⟩ := List.mem_map.mp hv
    exact Nat.le_sub_one_of_lt (freq.get x).isLt
  rw [List.length_map, length_symbols] at h
  exact h.trans_lt (by decide)

/-! ### The leaf records -/

@[simp] theorem leaves_length (freq : Table 32) : (leaves freq).length = (present freq).length := List.length_map _

theorem leaves_getElem? {k : Nat} (hk : k < (present freq).length) :
    (leaves freq)[k]? = some (.leaf (present freq)[k] ((freq.get (present freq)[k]).setWidth 40)) := by
  simp [leaves, hk]

/-! ### How the command ends -/

/-- R170: with a leaf BUILD_TREE ends well. -/
theorem exec_buildTree_of_hasLeaf {s : State} (h : s.hasLeaf) : exec .buildTree s =
    .next ((s.invalidate.withTree (present s.freq).length (buildNodes s.freq)).complete none) := by
  rcases buildTreeBody_cases s with ⟨hnone, -⟩ | ⟨-, hbody⟩
  · exact absurd hnone (State.hasLeaf_iff.mp h)
  · rw [exec_eq, bodyOf, hbody, Ended.complete_eq, finished_state, finished_error]

/-- R176: without one it is EMPTY_INPUT. -/
theorem exec_buildTree_of_not_hasLeaf {s : State} (h : ¬ s.hasLeaf) :
    exec .buildTree s = .next (s.invalidate.complete (some .emptyInput)) := by
  rcases buildTreeBody_cases s with ⟨-, hbody⟩ | ⟨hsome, -⟩
  · rw [exec_eq, bodyOf, hbody, Ended.complete_eq, raiseErr_state, raiseErr_error]
  · exact absurd (State.hasLeaf_iff.mpr hsome) h

/-- Settles O33: the completion step of EMPTY_INPUT on the invalidated state, which keeps FREQ and OUT. -/
theorem buildTreeRefusesTheEmptyTable : Obligations.BuildTreeRefusesTheEmptyTable := by
  intro s h
  refine ⟨_, exec_buildTree_of_not_hasLeaf h, ⟨rfl, rfl, rfl⟩, ?_, ?_, rfl, ?_⟩
  · exact ⟨rfl, rfl, rfl, rfl, fun x => Table.get_zero x, fun x => Table.get_zero x⟩
  · exact ⟨fun _ => rfl, rfl, rfl, rfl, rfl, rfl⟩
  · exact ⟨rfl, rfl, rfl, fun _ => rfl⟩

end Sys2Proof.Machine
end

section
/-! PROOFS. The merges of BUILD_TREE (41_tree_builder.md R173 to R175). The invariant ties the queue to the records made so
far; from it the obligations about the tree are read off. -/

namespace Sys2Proof.Machine

variable {t : List Node} {j k p : Nat} {w : Weight}

/-! ### Appending a record -/

theorem weightAt_append_left {u : List Node} (h : k < t.length) : weightAt (t ++ u) k = weightAt t k := by
  rw [weightAt, weightAt, List.getElem?_append_left h]

theorem weightAt_concat_length (x : Node) : weightAt (t ++ [x]) t.length = (nodeWeight x).toNat := by
  simp [weightAt]

theorem childOf_append_left {u : List Node} (h : p < t.length) : childOf (t ++ u) k p ↔ childOf t k p := by
  simp only [childOf, List.getElem?_append_left h]

theorem childOf_concat_length {l r : Nat} : childOf (t ++ [.internal w l r]) k t.length ↔ k = l ∨ k = r := by
  simp [childOf]

/-- The queue at node j depends on the records before j alone. -/
theorem queuedAt_append_left {u : List Node} (h : j ≤ t.length) : queuedAt (t ++ u) j k ↔ queuedAt t j k := by
  refine and_congr_right fun _ => forall₂_congr fun p hp => ?_
  rw [childOf_append_left (hp.trans_le h)]

theorem precedesAt_append_left {u : List Node} {a b : Nat} (ha : a < t.length) (hb : b < t.length) :
    precedesAt (t ++ u) a b ↔ precedesAt t a b := by
  rw [precedesAt, precedesAt, weightAt_append_left ha, weightAt_append_left hb]

/-- R174: the children of a merge come before it. -/
theorem mergesLeast.children_lt {a b : Nat} (h : mergesLeast t j a b) : a < j ∧ b < j := by
  obtain ⟨⟨ha, -⟩, -, ⟨hb, -⟩, -⟩ := h
  exact ⟨ha, hb⟩

/-- A merge stays the least one when later records join. -/
theorem mergesLeast.append {u : List Node} {a b : Nat} (hj : j ≤ t.length) (h : mergesLeast t j a b) :
    mergesLeast (t ++ u) j a b := by
  obtain ⟨ha, hleast, hb, hne, hnext⟩ := h
  have old {k} (hk : queuedAt t j k) : k < t.length := by
    obtain ⟨hkj, -⟩ := hk
    exact hkj.trans_le hj
  simp only [mergesLeast, queuedAt_append_left hj]
  exact ⟨ha, fun k hk hka => (precedesAt_append_left (old ha) (old hk)).mpr (hleast k hk hka), hb, hne,
    fun k hk hka hkb => (precedesAt_append_left (old hb) (old hk)).mpr (hnext k hk hka hkb)⟩

/-! ### One merge of the loop -/

/-- R173: `extract_min` splits off the least entry. -/
theorem exists_extractMin (x : QEntry) (q : List QEntry) (hd : ((x :: q).map QEntry.seq).Nodup) :
    ∃ e r, extractMin x q = (e, r) ∧ (x :: q).Perm (e :: r) ∧ ∀ f ∈ r, e.precedes f = true :=
  ⟨_, _, rfl, (extractMin_perm x q).symm, extractMin_least x q hd⟩

/-- R174: with two entries in the queue the loop merges the least entry and the least of the rest. -/
theorem mergeLoop_succ {q : List QEntry} (hd : (q.map QEntry.seq).Nodup) (h2 : 2 ≤ q.length) (fuel : Nat)
    (nodes : List Node) : ∃ x y r, q.Perm (x :: y :: r) ∧ (∀ e ∈ y :: r, x.precedes e = true) ∧
      (∀ e ∈ r, y.precedes e = true) ∧
      mergeLoop (fuel + 1) nodes q = mergeLoop fuel (nodes ++ [.internal (x.weight + y.weight) x.seq y.seq])
        (r ++ [⟨x.weight + y.weight, nodes.length⟩]) := by
  cases q with
  | nil => simp at h2
  | cons x₀ q =>
    obtain ⟨x, q₁, hx, hp, hleast⟩ := exists_extractMin x₀ q hd
    cases q₁ with
    | nil => have := hp.length_eq; simp_all
    | cons y₀ q₁ =>
      have hd₁ : ((y₀ :: q₁).map QEntry.seq).Nodup := (((hp.map QEntry.seq).nodup_iff).mp hd).of_cons
      obtain ⟨y, r, hy, hp₁, hnext⟩ := exists_extractMin y₀ q₁ hd₁
      refine ⟨x, y, r, hp.trans (hp₁.cons x), fun e he => hleast e (hp₁.mem_iff.mpr he), hnext, ?_⟩
      simp only [mergeLoop, hx, hy]

theorem mergeLoop_singleton (fuel : Nat) (nodes : List Node) (x : QEntry) : mergeLoop fuel nodes [x] = nodes := by
  cases fuel <;> rfl

/-! ### The invariant of the loop -/

/-- Node j is internal and merges the two least nodes of the queue (R174). -/
def mergedAt (t : List Node) (j : Nat) : Prop :=
  ∃ w a b, t[j]? = some (Node.internal w a b) ∧ w.toNat = weightAt t a + weightAt t b ∧ mergesLeast t j a b

/-- R170, R173, R174: the records are the leaves of FREQ and then the merges; the queue holds, with its weight, each
record without a parent; and its weights add up to the sum of FREQ (R177). -/
structure Merging (freq : Table 32) (nodes : List Node) (q : List QEntry) : Prop where
  leading  : leaves freq <+: nodes
  merged   : ∀ j, (present freq).length ≤ j → j < nodes.length → mergedAt nodes j
  queued   : ∀ k, k ∈ q.map QEntry.seq ↔ queuedAt nodes nodes.length k
  weight   : ∀ e ∈ q, e.weight.toNat = weightAt nodes e.seq
  distinct : (q.map QEntry.seq).Nodup
  length   : nodes.length + q.length = 2 * (present freq).length
  total    : (q.map fun e => e.weight.toNat).sum = sumOver fun x => (freq.get x).toNat

theorem mergedAt.append {u : List Node} (hj : j < t.length) (h : mergedAt t j) : mergedAt (t ++ u) j := by
  obtain ⟨w, a, b, hrec, hw, hm⟩ := h
  obtain ⟨haj, hbj⟩ := hm.children_lt
  have ha : a < t.length := haj.trans hj
  have hb : b < t.length := hbj.trans hj
  refine ⟨w, a, b, ?_, ?_, hm.append hj.le⟩
  · rw [List.getElem?_append_left hj, hrec]
  · rw [weightAt_append_left ha, weightAt_append_left hb, hw]

variable {freq : Table 32} {nodes : List Node} {q : List QEntry}

/-- The queue's entries may stand in any order. -/
theorem Merging.perm {q' : List QEntry} (h : Merging freq nodes q) (hp : q.Perm q') : Merging freq nodes q' where
  leading := h.leading
  merged := h.merged
  queued k := by rw [← (hp.map QEntry.seq).mem_iff, h.queued]
  weight e he := h.weight e (hp.mem_iff.mpr he)
  distinct := ((hp.map QEntry.seq).nodup_iff).mp h.distinct
  length := by rw [← hp.length_eq, h.length]
  total := by rw [← (hp.map _).sum_eq, h.total]

/-- R172: the first records are the leaves. -/
theorem Merging.getElem?_leaf (h : Merging freq nodes q) (hk : k < (present freq).length) :
    nodes[k]? = some (.leaf (present freq)[k] ((freq.get (present freq)[k]).setWidth 40)) := by
  obtain ⟨u, rfl⟩ := h.leading
  rw [List.getElem?_append_left (by simpa using hk), leaves_getElem? hk]

/-- R172: no other record is a leaf. -/
theorem Merging.leaf_lt (h : Merging freq nodes q) {x : Sym} (hk : nodes[k]? = some (.leaf x w)) :
    k < (present freq).length := by
  by_contra hn
  obtain ⟨hlt, -⟩ := List.getElem?_eq_some_iff.mp hk
  obtain ⟨_, _, _, hrec, -⟩ := h.merged k (by omega) hlt
  simp [hk] at hrec

/-- R174: a parent stands among the merges, and its children were in the queue when it was made. -/
theorem Merging.of_childOf (h : Merging freq nodes q) (hc : childOf nodes k p) :
    (present freq).length ≤ p ∧ queuedAt nodes p k := by
  obtain ⟨w, l, r, hrec, hk⟩ := hc
  obtain ⟨hlt, -⟩ := List.getElem?_eq_some_iff.mp hrec
  have hp : (present freq).length ≤ p := by
    by_contra hn
    have hleaf := h.getElem?_leaf (Nat.not_le.mp hn)
    simp [hrec] at hleaf
  obtain ⟨_, a, b, hrec', -, ha, -, hb, -⟩ := h.merged p hp hlt
  rw [hrec, Option.some.injEq, Node.internal.injEq] at hrec'
  obtain ⟨-, rfl, rfl⟩ := hrec'
  rcases hk with rfl | rfl
  · exact ⟨hp, ha⟩
  · exact ⟨hp, hb⟩

/-- R175: a node has one parent at most. -/
theorem Merging.parent_unique (h : Merging freq nodes q) {p' : Nat} (hp : childOf nodes k p)
    (hp' : childOf nodes k p') : p' = p := by
  have never {i j} (hi : childOf nodes k i) (hj : childOf nodes k j) : ¬ i < j := by
    obtain ⟨-, -, horphan⟩ := h.of_childOf hj
    exact fun hij => horphan i hij hi
  exact Nat.le_antisymm (Nat.not_lt.mp (never hp hp')) (Nat.not_lt.mp (never hp' hp))

/-! ### The invariant at the start -/

theorem not_childOf_leaves : ¬ childOf (leaves freq) k p := by
  rintro ⟨w, l, r, hrec, -⟩
  obtain ⟨x, -, hx⟩ := List.mem_map.mp (List.mem_of_getElem? hrec)
  cases hx

theorem map_seq_leafQueue (t : List Node) : (leafQueue t).map QEntry.seq = List.range t.length := by
  rw [List.range_eq_range', ← List.zipIdx_map_snd, leafQueue, List.map_map]
  rfl

theorem map_weight_leafQueue (t : List Node) :
    (leafQueue t).map (fun e => e.weight.toNat) = t.map fun x => (nodeWeight x).toNat := by
  conv_rhs => rw [← List.zipIdx_map_fst 0 t, List.map_map]
  rw [leafQueue, List.map_map]
  rfl

theorem weight_of_mem_leafQueue {e : QEntry} (he : e ∈ leafQueue t) : e.weight.toNat = weightAt t e.seq := by
  obtain ⟨⟨x, k⟩, hx, rfl⟩ := List.mem_map.mp he
  rw [weightAt, List.mem_zipIdx_iff_getElem?.mp hx]

/-- R172: a leaf's weight is its FREQ, zero-extended. -/
theorem map_weight_leaves (freq : Table 32) :
    (leaves freq).map (fun x => (nodeWeight x).toNat) = (present freq).map fun x => (freq.get x).toNat := by
  rw [leaves, List.map_map]
  refine List.map_congr_left fun x _ => ?_
  exact BitVec.toNat_setWidth_of_le (by decide)

theorem merging_leaves (freq : Table 32) : Merging freq (leaves freq) (leafQueue (leaves freq)) where
  leading := List.prefix_refl _
  merged j hj hlt := absurd hlt (by rw [leaves_length]; omega)
  queued k := by
    rw [map_seq_leafQueue, List.mem_range, queuedAt]
    exact (and_iff_left fun _ _ => not_childOf_leaves).symm
  weight _ := weight_of_mem_leafQueue
  distinct := map_seq_leafQueue (leaves freq) ▸ List.nodup_range
  length := by
    rw [← List.length_map QEntry.seq, map_seq_leafQueue, List.length_range, leaves_length]
    omega
  total := by rw [map_weight_leafQueue, map_weight_leaves, sum_present]

/-! ### A merge keeps the invariant -/

section Merge

variable {x y : QEntry} {r : List QEntry}

/-- The order of two entries is that of their records. -/
theorem Merging.entry_precedesAt (h : Merging freq nodes q) {e f : QEntry} (he : e ∈ q) (hf : f ∈ q)
    (hef : e.precedes f = true) : precedesAt nodes e.seq f.seq := by
  rwa [precedesAt, ← h.weight e he, ← h.weight f hf, ← QEntry.precedes_iff]

/-- R174: an entry of the queue names a record without a parent. -/
theorem Merging.entry_queuedAt (h : Merging freq nodes q) {e : QEntry} (he : e ∈ q) :
    queuedAt nodes nodes.length e.seq :=
  (h.queued _).mp (List.mem_map_of_mem he)

theorem Merging.entry_lt (h : Merging freq nodes q) {e : QEntry} (he : e ∈ q) : e.seq < nodes.length := by
  obtain ⟨hlt, -⟩ := h.entry_queuedAt he
  exact hlt

/-- R174: the first two entries in the order of the queue are its two least nodes. -/
theorem Merging.mergesLeast_heads (h : Merging freq nodes (x :: y :: r)) (hx : ∀ e ∈ y :: r, x.precedes e = true)
    (hy : ∀ e ∈ r, y.precedes e = true) : mergesLeast nodes nodes.length x.seq y.seq := by
  have entry {k} (hk : queuedAt nodes nodes.length k) : ∃ e ∈ x :: y :: r, e.seq = k :=
    List.mem_map.mp ((h.queued k).mpr hk)
  have hne : y.seq ≠ x.seq := by
    have hd := h.distinct
    simp only [List.map_cons, List.nodup_cons, List.mem_cons, not_or] at hd
    obtain ⟨⟨hxy, -⟩, -⟩ := hd
    exact Ne.symm hxy
  refine ⟨h.entry_queuedAt (by simp), fun k hk hkx => ?_, h.entry_queuedAt (by simp), hne, fun k hk hkx hky => ?_⟩
  · obtain ⟨e, he, rfl⟩ := entry hk
    rcases List.mem_cons.mp he with rfl | her
    · exact absurd rfl hkx
    · exact h.entry_precedesAt (by simp) he (hx e her)
  · obtain ⟨e, he, rfl⟩ := entry hk
    rcases List.mem_cons.mp he with rfl | her
    · exact absurd rfl hkx
    · rcases List.mem_cons.mp her with rfl | her'
      · exact absurd rfl hky
      · exact h.entry_precedesAt (by simp) he (hy e her')

/-- R177: the sum of two weights of the queue does not wrap. -/
theorem Merging.toNat_add (h : Merging freq nodes (x :: y :: r)) :
    (x.weight + y.weight).toNat = x.weight.toNat + y.weight.toNat := by
  have htotal := h.total
  have hlt := sumOver_freq_lt freq
  simp only [List.map_cons, List.sum_cons] at htotal
  rw [BitVec.toNat_add, Nat.mod_eq_of_lt (by omega)]

/-- R174: the new node joins the queue and its two children leave it. -/
theorem Merging.queuedAt_concat (h : Merging freq nodes q) {a b : Nat} (ha : a < nodes.length) (hb : b < nodes.length) :
    queuedAt (nodes ++ [.internal w a b]) (nodes.length + 1) k ↔
      k = nodes.length ∨ (queuedAt nodes nodes.length k ∧ k ≠ a ∧ k ≠ b) := by
  have split : (∀ p, p < nodes.length + 1 → ¬ childOf (nodes ++ [.internal w a b]) k p) ↔
      (∀ p, p < nodes.length → ¬ childOf nodes k p) ∧ k ≠ a ∧ k ≠ b := by
    rw [Nat.forall_lt_succ_right, childOf_concat_length, not_or]
    refine and_congr_left fun _ => forall₂_congr fun p hp => ?_
    rw [childOf_append_left hp]
  rw [queuedAt, split, queuedAt]
  constructor
  · rintro ⟨hk, hpar, hka, hkb⟩
    rcases Nat.lt_succ_iff_lt_or_eq.mp hk with hk | hk
    · exact .inr ⟨⟨hk, hpar⟩, hka, hkb⟩
    · exact .inl hk
  · rintro (rfl | ⟨⟨hk, hpar⟩, hka, hkb⟩)
    · refine ⟨Nat.lt_succ_self _, fun p hp hc => ?_, ha.ne', hb.ne'⟩
      obtain ⟨-, hlt, -⟩ := h.of_childOf hc
      omega
    · exact ⟨hk.trans (Nat.lt_succ_self _), hpar, hka, hkb⟩

/-- R174: merging the two least entries keeps the invariant. -/
theorem Merging.merge (h : Merging freq nodes (x :: y :: r)) (hx : ∀ e ∈ y :: r, x.precedes e = true)
    (hy : ∀ e ∈ r, y.precedes e = true) :
    Merging freq (nodes ++ [.internal (x.weight + y.weight) x.seq y.seq])
      (r ++ [⟨x.weight + y.weight, nodes.length⟩]) := by
  have hxq : x.seq < nodes.length := h.entry_lt (by simp)
  have hyq : y.seq < nodes.length := h.entry_lt (by simp)
  have hsum : (x.weight + y.weight).toNat = x.weight.toNat + y.weight.toNat := h.toNat_add
  have hd := h.distinct
  have hlen := h.length
  have htotal := h.total
  have hqueued := h.queued
  simp only [List.map_cons, List.nodup_cons, List.mem_cons, not_or] at hd hqueued
  obtain ⟨⟨hxy, hxr⟩, hyr, hr⟩ := hd
  simp only [List.map_cons, List.sum_cons, List.length_cons] at hlen htotal
  constructor
  case leading => exact h.leading.trans (List.prefix_append _ _)
  case merged =>
    intro j hj hlt
    rw [List.length_append, List.length_singleton] at hlt
    rcases Nat.lt_succ_iff_lt_or_eq.mp hlt with hlt | rfl
    · exact (h.merged j hj hlt).append hlt
    · refine ⟨_, _, _, List.getElem?_concat_length, ?_, (h.mergesLeast_heads hx hy).append le_rfl⟩
      rw [weightAt_append_left hxq, weightAt_append_left hyq, hsum, h.weight x (by simp), h.weight y (by simp)]
  case queued =>
    intro k
    rw [List.length_append, List.length_singleton, h.queuedAt_concat hxq hyq, ← hqueued, List.map_append,
      List.mem_append]
    simp only [List.map_cons, List.map_nil, List.mem_singleton]
    constructor
    · rintro (hk | rfl)
      · exact .inr ⟨.inr (.inr hk), fun he => hxr (he ▸ hk), fun he => hyr (he ▸ hk)⟩
      · exact .inl rfl
    · tauto
  case weight =>
    intro e he
    rcases List.mem_append.mp he with he | he
    · rw [weightAt_append_left (h.entry_lt (by simp [he])), h.weight e (by simp [he])]
    · rw [List.mem_singleton.mp he, weightAt_concat_length]
      rfl
  case distinct =>
    rw [List.map_append, List.nodup_append]
    refine ⟨hr, by simp, fun k hk l hl => ?_⟩
    obtain rfl : l = nodes.length := by simpa using hl
    obtain ⟨hlt, -⟩ := (hqueued k).mp (.inr (.inr hk))
    exact hlt.ne
  case length =>
    simp only [List.length_append, List.length_singleton]
    omega
  case total =>
    simp only [List.map_append, List.sum_append, List.map_cons, List.map_nil, List.sum_singleton, hsum]
    omega

end Merge

/-- R175: the loop ends with one entry in the queue. -/
theorem Merging.exists_mergeLoop {fuel : Nat} (h : Merging freq nodes q) (hq : q ≠ []) (hf : q.length ≤ fuel + 1) :
    ∃ e, Merging freq (mergeLoop fuel nodes q) [e] := by
  have hpos : 0 < q.length := List.length_pos_iff.mpr hq
  induction fuel generalizing nodes q with
  | zero =>
    obtain ⟨e, rfl⟩ := List.length_eq_one_iff.mp (by omega : q.length = 1)
    exact ⟨e, h⟩
  | succ fuel ih =>
    by_cases h2 : 2 ≤ q.length
    · obtain ⟨x, y, r, hp, hx, hy, hloop⟩ := mergeLoop_succ h.distinct h2 fuel nodes
      have hlen : q.length = r.length + 2 := hp.length_eq
      rw [hloop]
      exact ih ((h.perm hp).merge hx hy) (by simp) (by simp; omega) (by simp)
    · obtain ⟨e, rfl⟩ := List.length_eq_one_iff.mp (by omega : q.length = 1)
      exact ⟨e, by rwa [mergeLoop_singleton]⟩

/-! ### The finished tree -/

/-- R170: BUILD_TREE's records meet the invariant, with one node left in the queue. -/
theorem merging_buildNodes (h : present freq ≠ []) : ∃ e, Merging freq (buildNodes freq) [e] := by
  have hq : (leafQueue (leaves freq)).length = (leaves freq).length := by simp [leafQueue]
  have hpos : 0 < (present freq).length := List.length_pos_iff.mpr h
  refine (merging_leaves freq).exists_mergeLoop ?_ (by omega)
  rw [← List.length_pos_iff, hq, leaves_length]
  exact hpos

section Finished

variable {e : QEntry} (h : Merging freq nodes [e])
include h

/-- R175: n leaves and n − 1 merges. -/
theorem Merging.nodes_length : nodes.length = 2 * (present freq).length - 1 := by
  have := h.length
  rw [List.length_singleton] at this
  omega

theorem Merging.queuedAt_iff : queuedAt nodes nodes.length k ↔ k = e.seq := by
  rw [← h.queued, List.map_singleton, List.mem_singleton]

/-- R175: the last node created is the one that is left, the root. -/
theorem Merging.root_seq : e.seq = 2 * (present freq).length - 2 := by
  have hlen := h.nodes_length
  obtain ⟨hlt, -⟩ := h.queuedAt_iff.mpr rfl
  have hlast : 2 * (present freq).length - 2 = e.seq := by
    refine h.queuedAt_iff.mp ⟨by omega, fun p hp hc => ?_⟩
    obtain ⟨-, hlt', -⟩ := h.of_childOf hc
    omega
  exact hlast.symm

/-- R175: every node but the root has a parent. -/
theorem Merging.exists_parent (hk : k < 2 * (present freq).length - 2) : ∃ p, childOf nodes k p := by
  by_contra hno
  have hlen := h.nodes_length
  have hroot : k = e.seq := h.queuedAt_iff.mp ⟨by omega, fun p _ hc => hno ⟨p, hc⟩⟩
  have := h.root_seq
  omega

/-- R172: the leaves' symbols ascend. -/
theorem Merging.leaf_ordered {i : Nat} {x y : Sym} {v : Weight} (hij : i < j) (hi : nodes[i]? = some (.leaf x v))
    (hj : nodes[j]? = some (.leaf y w)) : x.toNat < y.toNat := by
  have hin := h.leaf_lt hi
  have hjn := h.leaf_lt hj
  rw [h.getElem?_leaf hin, Option.some.injEq, Node.leaf.injEq] at hi
  rw [h.getElem?_leaf hjn, Option.some.injEq, Node.leaf.injEq] at hj
  obtain ⟨rfl, -⟩ := hi
  obtain ⟨rfl, -⟩ := hj
  exact List.pairwise_iff_getElem.mp (present_ascending freq) i j hin hjn hij

/-- R175: the records are a tree over the present symbols. -/
theorem Merging.treeOk : TreeOk (present freq).length nodes where
  pos := by
    have := h.length
    rw [List.length_singleton] at this
    omega
  atMost := present_length_le freq
  length := h.nodes_length
  leaf _ hk := ⟨_, _, h.getElem?_leaf hk⟩
  ordered _ _ _ _ _ _ hij hi hj := h.leaf_ordered hij hi hj
  internal k hk hlt := by
    obtain ⟨w, a, b, hrec, hw, hm⟩ := h.merged k hk (h.nodes_length ▸ hlt)
    obtain ⟨ha, hb⟩ := hm.children_lt
    obtain ⟨-, -, -, hne, -⟩ := hm
    exact ⟨w, a, b, hrec, ha, hb, hne.symm, hw⟩
  parent k hk := by
    obtain ⟨p, hp⟩ := h.exists_parent hk
    exact ⟨p, hp, fun _ hq => h.parent_unique hp hq⟩

end Finished

/-- R170: what BUILD_TREE leaves when there is a leaf: the records of a finished merging and their count in NSYM. -/
theorem exec_buildTree_merging {s : State} (h : s.hasLeaf) :
    ∃ t e, exec .buildTree s = .next t ∧ t.nsym.toNat = (present s.freq).length ∧ Merging s.freq t.tree [e] := by
  obtain ⟨e, he⟩ := merging_buildNodes (State.hasLeaf_iff.mp h)
  exact ⟨_, e, exec_buildTree_of_hasLeaf h, toNat_ofNat_present_length s.freq, he⟩

/-! ### The statements -/

/-- Settles O34: the finished records are a tree over the present symbols, and the rest is the invalidated state's. -/
theorem buildTreeMakesATree : Obligations.BuildTreeMakesATree := by
  intro s h
  obtain ⟨e, he⟩ := merging_buildNodes (State.hasLeaf_iff.mp h)
  have hn := toNat_ofNat_present_length s.freq
  refine ⟨_, exec_buildTree_of_hasLeaf h, ⟨rfl, rfl, rfl⟩, rfl, ?_, ?_, ?_, rfl, ?_, rfl, ?_⟩
  · exact hn.trans (present_length s.freq)
  · simp only [State.complete_nsym, State.withTree_nsym, hn]
    exact he.treeOk
  · exact ⟨fun x => Table.get_zero x, fun x => Table.get_zero x, rfl⟩
  · exact ⟨fun _ => rfl, rfl, rfl, rfl, rfl, rfl⟩
  · exact ⟨rfl, rfl, rfl, fun _ => rfl⟩

/-- Settles O35: the leaves stand first, in the order of the present symbols, and every later record is a merge. -/
theorem leavesStandInSymbolOrder : Obligations.LeavesStandInSymbolOrder := by
  intro s h
  obtain ⟨t, e, hexec, hn, hm⟩ := exec_buildTree_merging h
  refine ⟨t, hexec, fun k hk => ?_, fun x hx => ?_, fun k x w hk => ?_⟩
  · rw [hn] at hk
    exact ⟨_, mem_present.mp (List.getElem_mem hk), hm.getElem?_leaf hk, (countP_below_present hk).symm⟩
  · obtain ⟨k, hk, rfl⟩ := List.getElem_of_mem (mem_present.mpr hx)
    exact ⟨k, hn ▸ hk, hm.getElem?_leaf hk⟩
  · exact hn ▸ hm.leaf_lt hk

/-- Settles O36: every merge of the loop is recorded in its invariant as one of the two least nodes. -/
theorem eachMergeTakesTheTwoLeastNodes : Obligations.EachMergeTakesTheTwoLeastNodes := by
  intro s h
  obtain ⟨t, e, hexec, hn, hm⟩ := exec_buildTree_merging h
  refine ⟨t, hexec, fun j hj hlt => hm.merged j (hn ▸ hj) ?_⟩
  rw [hm.nodes_length, ← hn]
  exact hlt

end Sys2Proof.Machine
end

section
/-! PROOFS. GEN_CODES (42_code_table.md): how the command ends (R200, R206), which symbols a tree
codes (R201, R203), and the value of MAX_LEN (R204). -/

namespace Sys2Proof.Machine

variable {s : State} {n : Nat} {t : List Node} {codes : List (Sym × Bits)} {x : Sym}

/-! ### How the command ends -/

/-- R200: with a tree GEN_CODES ends well, with the tables of that tree. -/
theorem exec_genCodes_of_treeValid (h : s.treeValid = true) :
    exec .genCodes s = .next ((s.withCodes (treeCodes s.tree s.nsym.toNat)).complete none) := by
  rcases genCodesBody_cases s with ⟨hnone, -⟩ | ⟨-, hbody⟩
  · simp [h] at hnone
  · rw [exec_eq, bodyOf, hbody, Ended.complete_eq, finished_state, finished_error]

/-- R206: without one it is NO_TREE. -/
theorem exec_genCodes_of_not_treeValid (h : s.treeValid = false) :
    exec .genCodes s = .next (s.complete (some .noTree)) := by
  rcases genCodesBody_cases s with ⟨-, hbody⟩ | ⟨hsome, -⟩
  · rw [exec_eq, bodyOf, hbody, Ended.complete_eq, raiseErr_state, raiseErr_error]
  · simp [h] at hsome

/-- R170, R200: BUILD_TREE and then GEN_CODES leave the codes of a finished merging. -/
theorem exec_buildTree_genCodes (h : s.hasLeaf) :
    ∃ t e, exec .buildTree s = .next t ∧
      exec .genCodes t = .next ((t.withCodes (treeCodes t.tree t.nsym.toNat)).complete none) ∧
      t.nsym.toNat = (present s.freq).length ∧ Merging s.freq t.tree [e] := by
  obtain ⟨e, he⟩ := merging_buildNodes (State.hasLeaf_iff.mp h)
  exact ⟨_, e, exec_buildTree_of_hasLeaf h, exec_genCodes_of_treeValid rfl, toNat_ofNat_present_length s.freq, he⟩

/-! ### The symbols of a tree -/

/-- R201, R202: exactly the symbols with a leaf have a code. -/
theorem exists_mem_treeCodes_iff (h : TreeOk n t) :
    (∃ c, (x, c) ∈ treeCodes t n) ↔ ∃ (k : Nat) (w : Weight), t[k]? = some (.leaf x w) := by
  by_cases hn : 2 ≤ n
  · simp only [mem_treeCodes h hn, follow_eq_some_iff]
    constructor
    · rintro ⟨c, w, k, -, hk⟩; exact ⟨k, w, hk⟩
    · rintro ⟨k, w, hk⟩
      obtain ⟨c, hc⟩ := h.exists_path (k := k) (by have := h.leaf_lt hk; omega)
      exact ⟨c, w, k, hc, hk⟩
  · obtain rfl : n = 1 := by have := h.pos; omega
    obtain ⟨y, v, hy⟩ := h.leaf 0 h.pos
    rw [treeCodes_single hy]
    constructor
    · rintro ⟨c, hc⟩
      obtain ⟨rfl, -⟩ : x = y ∧ c = [false] := by simpa using hc
      exact ⟨0, v, hy⟩
    · rintro ⟨k, w, hk⟩
      obtain rfl : k = 0 := by have := h.leaf_lt hk; omega
      obtain ⟨rfl, -⟩ : y = x ∧ v = w := by simpa [hy] using hk
      exact ⟨[false], by simp⟩

/-- R172: exactly the present symbols have a leaf. -/
theorem Merging.exists_leaf_iff {freq : Table 32} {q : List QEntry} (h : Merging freq t q) :
    (∃ (k : Nat) (w : Weight), t[k]? = some (.leaf x w)) ↔ freq.get x ≠ 0#32 := by
  rw [← mem_present]
  constructor
  · rintro ⟨k, w, hk⟩
    have hlt := h.leaf_lt hk
    obtain ⟨hx, -⟩ : (present freq)[k] = x ∧ _ := by simpa [h.getElem?_leaf hlt] using hk
    exact hx ▸ List.getElem_mem hlt
  · intro hx
    obtain ⟨k, hk, rfl⟩ := List.getElem_of_mem hx
    exact ⟨k, _, h.getElem?_leaf hk⟩

/-! ### The greatest code length -/

/-- R204: the fold of `maxLenOf` answers 0 or an entry of the table, and no entry is above it. -/
theorem maxLenOf_mem_and_le (len : Table 8) :
    maxLenOf len ∈ 0 :: symbols.map (fun x => (len.get x).toNat) ∧
      ∀ m ∈ 0 :: symbols.map (fun x => (len.get x).toNat), m ≤ maxLenOf len :=
  List.max?_eq_some_iff.mp List.max?_cons'

theorem le_maxLenOf (len : Table 8) (x : Sym) : (len.get x).toNat ≤ maxLenOf len := by
  obtain ⟨-, hle⟩ := maxLenOf_mem_and_le len
  exact hle _ (List.mem_cons_of_mem _ (List.mem_map_of_mem (mem_symbols x)))

theorem exists_eq_maxLenOf (len : Table 8) : ∃ x, (len.get x).toNat = maxLenOf len := by
  obtain ⟨hmem, -⟩ := maxLenOf_mem_and_le len
  rcases List.mem_cons.mp hmem with h0 | hmem
  · exact ⟨0#8, by have := le_maxLenOf len 0#8; omega⟩
  · obtain ⟨x, -, hx⟩ := List.mem_map.mp hmem
    exact ⟨x, hx⟩

theorem maxLenOf_le (len : Table 8) : maxLenOf len ≤ 255 := by
  obtain ⟨x, hx⟩ := exists_eq_maxLenOf len
  have := (len.get x).isLt
  omega

/-- MAX_LEN holds the greatest length unchanged. -/
@[simp] theorem toNat_ofNat_maxLenOf (len : Table 8) : (BitVec.ofNat 32 (maxLenOf len)).toNat = maxLenOf len := by
  have := maxLenOf_le len
  rw [BitVec.toNat_ofNat, Nat.mod_eq_of_lt (by omega)]

/-- R204: no CODE_LEN is above MAX_LEN. -/
theorem State.codeLen_le_maxLen (h : s.maxLen = BitVec.ofNat 32 (maxLenOf s.codeLen)) (x : Sym) :
    (s.codeLen.get x).toNat ≤ s.maxLen.toNat := by
  rw [h, toNat_ofNat_maxLenOf]
  exact le_maxLenOf _ x

/-- R204: one CODE_LEN is MAX_LEN. -/
theorem State.exists_codeLen_eq_maxLen (h : s.maxLen = BitVec.ofNat 32 (maxLenOf s.codeLen)) :
    ∃ x, (s.codeLen.get x).toNat = s.maxLen.toNat := by
  rw [h, toNat_ofNat_maxLenOf]
  exact exists_eq_maxLenOf _

theorem PrefixCode.length_le_maxLenOf (h : PrefixCode codes) {c : Bits} (hx : (x, c) ∈ codes) :
    c.length ≤ maxLenOf (lenTable codes) :=
  h.lenTable_get hx ▸ le_maxLenOf _ x

/-- R204: MAX_LEN is not 0, since no codeword is empty. -/
theorem PrefixCode.one_le_maxLenOf (h : PrefixCode codes) : 1 ≤ maxLenOf (lenTable codes) := by
  obtain ⟨⟨x, c⟩, hx⟩ := List.exists_mem_of_ne_nil _ h.nonempty
  obtain ⟨hpos, -⟩ := h.length hx
  exact hpos.trans (h.length_le_maxLenOf hx)

theorem PrefixCode.exists_length_eq_maxLenOf (h : PrefixCode codes) :
    ∃ x c, (x, c) ∈ codes ∧ c.length = maxLenOf (lenTable codes) := by
  obtain ⟨x, hx⟩ := exists_eq_maxLenOf (lenTable codes)
  have hne : (lenTable codes).get x ≠ 0#8 := by
    intro h0
    have := h.one_le_maxLenOf
    simp [← hx, h0] at this
  obtain ⟨c, hc⟩ := h.lenTable_get_ne_zero.mp hne
  exact ⟨x, c, hc, h.lenTable_get hc ▸ hx⟩

/-- 41_tree_builder.md R181: a codeword of a tree of two leaves or more is shorter than their number. -/
theorem treeCodes_length_lt (h : TreeOk n t) (hn : 2 ≤ n) {c : Bits} (hx : (x, c) ∈ treeCodes t n) : c.length < n := by
  obtain ⟨w, hc⟩ := (mem_treeCodes h hn).mp hx
  obtain ⟨j, hj, hleaf⟩ := follow_eq_some_iff.mp hc
  exact hj.length_lt h (h.leaf_lt hleaf)

/-- R202, R204: one leaf or two get one bit each. -/
theorem treeCodes_length_le_one (h : TreeOk n t) (hn : n ≤ 2) {c : Bits} (hx : (x, c) ∈ treeCodes t n) :
    c.length ≤ 1 := by
  rcases Nat.lt_or_eq_of_le hn with h1 | rfl
  · obtain rfl : n = 1 := by have := h.pos; omega
    obtain ⟨y, w, hy⟩ := h.leaf 0 h.pos
    obtain ⟨-, rfl⟩ : x = y ∧ c = [false] := by simpa [treeCodes_single hy] using hx
    exact le_rfl
  · exact Nat.le_of_lt_succ (treeCodes_length_lt h le_rfl hx)

/-- A path of at most one bit leads to the root or to a child of the root. -/
theorem PathTo.eq_or_childOf {root j : Nat} {p : Bits} (hp : PathTo t root p j) (hlen : p.length ≤ 1) :
    j = root ∨ childOf t j root := by
  cases hp with
  | root => exact .inl rfl
  | child b hp hi hj =>
    cases hp with
    | root => exact .inr (childOf_of_bit hi hj)
    | child => simp at hlen

/-- R204: the root has two children, so one leaf of three or more has a path of two bits or more. -/
theorem TreeOk.exists_two_le_path (h : TreeOk n t) (hn : 3 ≤ n) :
    ∃ k p, k < n ∧ PathTo t (2 * n - 2) p k ∧ 2 ≤ p.length := by
  obtain ⟨w, l, r, hroot⟩ := h.root_internal (by omega)
  obtain ⟨k, hk, hl, hr⟩ : ∃ k < 3, k ≠ l ∧ k ≠ r := by
    by_contra! hall
    have h0 := hall 0
    have h1 := hall 1
    have h2 := hall 2
    omega
  obtain ⟨p, hp⟩ := h.exists_path (k := k) (by omega)
  refine ⟨k, p, by omega, hp, ?_⟩
  by_contra hlen
  rcases hp.eq_or_childOf (by omega) with hk' | ⟨w', l', r', hroot', hc⟩
  · omega
  · rw [hroot, Option.some.injEq, Node.internal.injEq] at hroot'
    obtain ⟨-, rfl, rfl⟩ := hroot'
    exact hc.elim hl hr

/-- R204: MAX_LEN is 1 exactly for one leaf or two. -/
theorem maxLenOf_treeCodes_eq_one_iff (h : TreeOk n t) : maxLenOf (lenTable (treeCodes t n)) = 1 ↔ n ≤ 2 := by
  have hcode := treeCodes_prefixCode h
  constructor
  · intro hmax
    by_contra hn
    obtain ⟨k, p, hk, hp, hlen⟩ := h.exists_two_le_path (by omega)
    obtain ⟨x, w, hx⟩ := h.leaf k hk
    have hmem := (mem_treeCodes h (by omega)).mpr ⟨w, follow_eq_some_iff.mpr ⟨k, hp, hx⟩⟩
    have := hcode.length_le_maxLenOf hmem
    omega
  · intro hn
    obtain ⟨x, c, hc, hlen⟩ := hcode.exists_length_eq_maxLenOf
    exact le_antisymm (hlen ▸ treeCodes_length_le_one h hn hc) hcode.one_le_maxLenOf

/-! ### The statements -/

/-- Settles O40: the tables hold the codes of the tree, whose codewords are the leaves' paths. -/
theorem genCodesBindsEachLeafToItsPath : Obligations.GenCodesBindsEachLeafToItsPath := by
  intro s hv h
  have hcode := treeCodes_prefixCode h
  refine ⟨_, exec_genCodes_of_treeValid hv, ⟨rfl, rfl, rfl⟩, rfl, ?_, ?_, ?_, ?_, ?_, ?_, ?_, rfl, ?_, ?_⟩
  · intro hn p x w hp
    have hmem := (mem_treeCodes h hn).mpr ⟨w, hp⟩
    exact ⟨hcode.lenTable_get hmem, hcode.bitsTable_get hmem⟩
  · intro hn x w hx
    have hmem : (x, [false]) ∈ treeCodes s.tree s.nsym.toNat := by simp [hn, treeCodes_single hx]
    exact ⟨lenTable_get_of_mem hcode.nodup hmem, bitsTable_get_of_mem hcode.nodup hmem⟩
  · intro k x w hk hx
    obtain ⟨p, hp⟩ := h.exists_path (k := k) (by omega)
    exact ⟨p, follow_eq_some_iff.mpr ⟨k, hp, hx⟩⟩
  · intro x hno
    have hx : x ∉ (treeCodes s.tree s.nsym.toNat).map Prod.fst := by
      intro hx
      obtain ⟨⟨_, c⟩, hc, rfl⟩ := List.mem_map.mp hx
      obtain ⟨k, w, hk⟩ := (exists_mem_treeCodes_iff h).mp ⟨c, hc⟩
      exact hno k w hk
    exact ⟨lenTable_get_of_not_mem _ x hx, bitsTable_get_of_not_mem _ x hx⟩
  · exact State.codeLen_le_maxLen rfl
  · exact State.exists_codeLen_eq_maxLen rfl
  · exact ⟨fun _ => rfl, rfl, rfl, rfl, rfl, rfl⟩
  · exact ⟨rfl, rfl, rfl⟩
  · exact ⟨rfl, rfl, rfl, fun _ => rfl⟩

/-- Settles O41: the coded symbols are the tree's, which are the present ones, and their codes are a PrefixCode. -/
theorem generatedCodebookIsTotalAndPrefixFree : Obligations.GeneratedCodebookIsTotalAndPrefixFree := by
  intro s h
  obtain ⟨t, e, ht, hu, hn, hm⟩ := exec_buildTree_genCodes h
  have hok : TreeOk t.nsym.toNat t.tree := hn ▸ hm.treeOk
  have hcode := treeCodes_prefixCode hok
  refine ⟨t, _, ht, hu, rfl, fun x => ?_, hcode.codebookBuilt rfl rfl rfl⟩
  calc (lenTable (treeCodes t.tree t.nsym.toNat)).get x ≠ 0#8
    _ ↔ ∃ c, (x, c) ∈ treeCodes t.tree t.nsym.toNat := hcode.lenTable_get_ne_zero
    _ ↔ ∃ (k : Nat) (w : Weight), t.tree[k]? = some (.leaf x w) := exists_mem_treeCodes_iff hok
    _ ↔ s.freq.get x ≠ 0#32 := hm.exists_leaf_iff

/-- Settles O42: MAX_LEN holds `maxLenOf` of the tree's lengths. -/
theorem maxLenIsTheGreatestCodeLength : Obligations.MaxLenIsTheGreatestCodeLength := by
  intro s h
  obtain ⟨t, e, ht, hu, hn, hm⟩ := exec_buildTree_genCodes h
  have hok : TreeOk t.nsym.toNat t.tree := hn ▸ hm.treeOk
  refine ⟨t, _, ht, hu, rfl, State.codeLen_le_maxLen rfl, State.exists_codeLen_eq_maxLen rfl, ?_⟩
  simp only [State.complete_maxLen, State.complete_nsym, State.withCodes_maxLen, State.withCodes_nsym,
    toNat_ofNat_maxLenOf]
  exact ⟨(treeCodes_prefixCode hok).one_le_maxLenOf, maxLenOf_le _, maxLenOf_treeCodes_eq_one_iff hok⟩

/-- Settles O39: NO_TREE is the completion step alone. -/
theorem genCodesRefusesWithoutATree : Obligations.GenCodesRefusesWithoutATree :=
  fun _ h => ⟨_, exec_genCodes_of_not_treeValid h, rfl⟩

/-- Settles O45: GEN_CODES keeps TREE, TREE_VALID and NSYM, all that it reads. -/
theorem genCodesAgainWritesTheSame : Obligations.GenCodesAgainWritesTheSame :=
  fun _ h => ⟨_, _, exec_genCodes_of_treeValid h, exec_genCodes_of_treeValid h, rfl, rfl, rfl, rfl, rfl⟩

end Sys2Proof.Machine
end

section
/-! PROOFS. ENCODE (43_encoder.md): how the command ends (R231, R232, R235), what an error leaves (R237), and the stream
that a success writes (R234, R236). -/

namespace Sys2Proof.Machine

variable {s t : State}

/-! ### How the command ends -/

/-- 60_exceptions.md R311: an IN_LEN above the capacity is out of range. -/
theorem State.lengthOutOfRange_eq_true (h : ¬ s.lengthOk) : s.lengthOutOfRange = true :=
  decide_eq_true (Nat.lt_of_not_le h)

/-- R231: the check over the whole input finds the bytes without a codeword. -/
theorem hasUnknown_input_iff : hasUnknown s.codeLen s.input = true ↔ ∃ x ∈ s.input, ¬ s.coded x := by
  simp [hasUnknown, State.coded]

/-- With every input byte coded, R231's check finds nothing. -/
theorem hasUnknown_input_eq_false (h : ∀ x, x ∈ s.input → s.coded x) : hasUnknown s.codeLen s.input = false := by
  rw [Bool.eq_false_iff, ne_eq, hasUnknown_input_iff]
  rintro ⟨x, hx, hno⟩
  exact hno (h x hx)

/-- R230: ENCODE ends as its body does, with the completion bookkeeping. -/
theorem exec_encode_of_body {r : Ended} (h : encodeBody s = r) : exec .encode s = .next r.complete := by
  rw [exec_eq, bodyOf, h]

theorem encodeBody_of_not_lengthOk (h : ¬ s.lengthOk) : encodeBody s = codecError .lengthRange s := by
  rw [encodeBody, if_pos (State.lengthOutOfRange_eq_true h)]

/-- R231: an input byte without a codeword is found before the capacity is looked at. -/
theorem encodeBody_of_unknown (h : s.lengthOk) (hx : ∃ x ∈ s.input, ¬ s.coded x) :
    encodeBody s = codecError .unknownSymbol s.afterInput := by
  rw [encodeBody, h.lengthOutOfRange_eq_false, if_neg Bool.false_ne_true, if_pos (hasUnknown_input_iff.mpr hx)]

/-- R232, R235: with every input byte coded, the capacity decides between OUTPUT_OVERFLOW and the stream of the codewords
in input order. -/
theorem encodeBody_of_coded (h : s.lengthOk) (hx : ∀ x, x ∈ s.input → s.coded x) :
    encodeBody s = if s.cfg.outCap < 1 + payloadBytes (s.input.flatMap s.code).length
      then codecError .outputOverflow s.afterInput else finished (s.afterInput.withStream (s.input.flatMap s.code)) := by
  rw [encodeBody, h.lengthOutOfRange_eq_false, if_neg Bool.false_ne_true, hasUnknown_input_eq_false hx,
    if_neg Bool.false_ne_true]
  rfl

/-- R232: a stream within OUT_CAP is written. -/
theorem exec_encode_of_fits (h : s.lengthOk) (hx : ∀ x, x ∈ s.input → s.coded x)
    (hcap : 1 + payloadBytes (s.input.flatMap s.code).length ≤ s.cfg.outCap) :
    exec .encode s = .next ((s.afterInput.withStream (s.input.flatMap s.code)).complete none) :=
  exec_encode_of_body ((encodeBody_of_coded h hx).trans (if_neg (Nat.not_lt.mpr hcap)))

/-! ### What an error leaves -/

/-- R237: an error zeroes the result registers, fills OUT with some values and leaves the rest. -/
theorem codecFailed_codecError (e : Err) (s : State) : codecFailed e.code s (codecError e s).complete := by
  refine ⟨⟨rfl, rfl, rfl⟩, rfl, rfl, rfl, fun a ha => ?_, ⟨fun _ => rfl, rfl, rfl, rfl, rfl, rfl⟩, rfl, ⟨rfl, rfl, rfl⟩,
    rfl, rfl, rfl, rfl⟩
  simp [Ended.complete_eq, Memory.read?_havoc, ha]

/-- Reading IN moves the draw counter only, which no claim about an error names. -/
theorem codecFailed_afterInput {code : BitVec 8} : codecFailed code s.afterInput t ↔ codecFailed code s t := Iff.rfl

/-! ### The stream in OUT -/

/-- 00_scope.md R15: bit j of a byte's string is its bit 7 − j. -/
theorem byteToBits_getElem? (b : Byte) {j : Nat} (hj : j < 8) : (byteToBits b)[j]? = some (b.getLsbD (7 - j)) := by
  rw [byteToBits, getElem?_bitsOf, if_pos hj, BitVec.getLsbD]

/-- R234: bit 8k + j of a bit string is bit 7 − j of its byte k. -/
theorem getElem?_eq_byteAt_bit {P : Bits} {k j : Nat} (hk : 8 * k + 8 ≤ P.length) (hj : j < 8) :
    P[8 * k + j]? = some ((byteAt P k).getLsbD (7 - j)) := by
  have hbyte : byteToBits (byteAt P k) = (P.drop (8 * k)).take 8 :=
    byteToBits_ofNat_val (by rw [List.length_take, List.length_drop]; omega)
  rw [← byteToBits_getElem? _ hj, hbyte, List.getElem?_take_of_lt hj, List.getElem?_drop]

/-- R234: the header byte. -/
theorem packedStream_getElem?_zero (c : Bits) : (packedStream c)[0]? = some (BitVec.ofNat 8 (padLen c.length)) := rfl

/-- R234: the payload's bytes follow. -/
theorem packedStream_getElem?_succ (c : Bits) {k : Nat} (hk : k < payloadBytes c.length) :
    (packedStream c)[1 + k]? = some (byteAt (padded c) k) := by
  rw [Nat.add_comm, packedStream, List.getElem?_cons_succ, bitsToBytes, List.getElem?_map, List.getElem?_range hk,
    Option.map_some]

/-- 20_memory.md R95: OUT holds the stream, and its bytes past the stream are as before. -/
theorem State.withStream_read? (s : State) (c : Bits) (a : Nat) :
    (s.withStream c).outBuf.read? a =
      if a < 1 + payloadBytes c.length then (packedStream c)[a]? else s.outBuf.read? a := by
  rw [State.withStream, State.withResults_outBuf, State.writeOut_outBuf, Memory.read?_writeList, length_packedStream]
  simp

/-- R236: no result register is narrowed, since a stream of at most 2^24 bytes has fewer than 2^32 bits. -/
theorem State.withStream_results_toNat (s : State) {c : Bits} (h : 1 + payloadBytes c.length ≤ 2 ^ 24) :
    (s.withStream c).outLen.toNat = 1 + payloadBytes c.length ∧ (s.withStream c).payloadBits.toNat = c.length ∧
      (s.withStream c).pad.toNat = padLen c.length := by
  have hp := padLen_lt c.length
  have hsum := add_padLen c.length
  rw [State.withStream]
  refine ⟨?_, ?_, ?_⟩
  · rw [State.withResults_outLen, BitVec.toNat_ofNat, Nat.mod_eq_of_lt (by omega)]
  · rw [State.withResults_payloadBits, BitVec.toNat_ofNat, Nat.mod_eq_of_lt (by omega)]
  · rw [State.withResults_pad, BitVec.toNat_ofNat, Nat.mod_eq_of_lt hp]

/-- R240: a success touches nothing but OUT and the result registers. -/
theorem sameButOutput_withStream (s : State) (c : Bits) :
    sameButOutput s ((s.afterInput.withStream c).complete none) :=
  ⟨⟨fun _ => rfl, rfl, rfl, rfl, rfl, rfl⟩, rfl, ⟨rfl, rfl, rfl⟩, rfl, rfl, rfl, rfl⟩

/-- 00_scope.md R10: a legal OUT_CAP is at most 2^24. -/
theorem outCap_le_of_wf {c : Config} (h : c.wf = true) : c.outCap ≤ 2 ^ 24 := by
  simp only [Config.wf, Config.maxCap, Bool.and_eq_true, decide_eq_true_eq] at h
  obtain ⟨⟨-, hout⟩, -⟩ := h
  exact of_decide_eq_true hout

/-! ### The statements -/

/-- Settles O51: p is R233's, N is R230's, and a legal OUT_CAP bounds the stream that the result registers measure. -/
theorem encodeWritesThePackedStream : Obligations.EncodeWritesThePackedStream := by
  rintro s hwf hlen hx c rfl hcap
  rw [← payloadBytes_eq] at hcap
  have hexec := exec_encode_of_fits hlen hx hcap
  generalize s.input.flatMap s.code = c at hcap hexec ⊢
  have hread := State.withStream_read? s.afterInput c
  obtain ⟨houtLen, hbits, hpad⟩ := State.withStream_results_toNat s.afterInput (hcap.trans (outCap_le_of_wf hwf))
  refine ⟨_, padLen c.length, payloadBytes c.length, hexec, ⟨rfl, rfl, rfl⟩, padLen_lt _, add_padLen _, houtLen, hbits,
    hpad, ?_, fun k hk => ⟨byteAt (padded c) k, ?_, fun j hj => ?_⟩, fun a ha => ?_, sameButOutput_withStream s c⟩
  · exact ((hread 0).trans (if_pos (by omega))).trans (packedStream_getElem?_zero c)
  · exact ((hread (1 + k)).trans (if_pos (by omega))).trans (packedStream_getElem?_succ c hk)
  · exact getElem?_eq_byteAt_bit (P := padded c) (by rw [length_padded]; omega) hj
  · exact (hread a).trans (if_neg (Nat.not_lt.mpr ha))

/-- Settles O52: each error is a branch of ENCODE's body. -/
theorem encodeErrorsInOrder : Obligations.EncodeErrorsInOrder := by
  intro s
  refine ⟨fun hlen => ?_, fun hlen hx => ?_, fun hlen hx hcap => ?_⟩
  · exact ⟨_, exec_encode_of_body (encodeBody_of_not_lengthOk hlen), codecFailed_codecError _ _⟩
  · exact ⟨_, exec_encode_of_body (encodeBody_of_unknown hlen hx), codecFailed_afterInput.mp (codecFailed_codecError _ _)⟩
  · rw [← payloadBytes_eq] at hcap
    exact ⟨_, exec_encode_of_body ((encodeBody_of_coded hlen hx).trans (if_pos hcap)),
      codecFailed_afterInput.mp (codecFailed_codecError _ _)⟩

/-- Settles O53: the empty input is in range and coded whatever the codebook, and its payload is empty. -/
theorem encodeOfTheEmptyInput : Obligations.EncodeOfTheEmptyInput := by
  intro s hcap h0
  have hin : s.input = [] := List.eq_nil_of_length_eq_zero (by rw [State.input_length, h0]; rfl)
  have hlen : s.lengthOk := by rw [State.lengthOk, h0]; exact Nat.zero_le _
  have hexec := exec_encode_of_fits hlen (by simp [hin]) (by simpa [hin, payloadBytes_eq] using hcap)
  rw [hin, List.flatMap_nil] at hexec
  have hread := State.withStream_read? s.afterInput []
  exact ⟨_, hexec, ⟨rfl, rfl, rfl⟩, hread 0, rfl, rfl, rfl, fun a ha => (hread a).trans (if_neg (Nat.not_lt.mpr ha)),
    sameButOutput_withStream s []⟩

end Sys2Proof.Machine
end

section
/-! PROOFS. DECODE (44_decoder.md): the header and the payload of a stream (R261, R262), what matching finds (R263, R269),
how the command ends (R264, R265) and what a success writes (R266). -/

namespace Sys2Proof.Machine

variable {s : State} {body : List Byte} {p : Byte} {payload : Bits} {out xs : List Sym}

/-! ### The stream -/

/-- R261: a header above 7 or above the bits that follow it is refused. -/
theorem unpackStream_of_bad_header (h : 7 < p.toNat ∨ 8 * body.length < p.toNat) : unpackStream (p :: body) = none := by
  simp only [unpackStream, length_bytesToBits]
  split_ifs with h7 hlen
  · rfl
  · rfl
  · exact absurd h (not_or.mpr ⟨h7, hlen⟩)

/-- R262: any other header counts the padding bits, which are dropped. -/
theorem unpackStream_of_header (h7 : p.toNat ≤ 7) (hlen : p.toNat ≤ 8 * body.length) :
    unpackStream (p :: body) = some (p.toNat, (bytesToBits body).take (8 * body.length - p.toNat)) := by
  simp only [unpackStream, length_bytesToBits]
  rw [if_neg (Nat.not_lt.mpr h7), if_neg (Nat.not_lt.mpr hlen)]

/-- R262: what a stream unpacks to is measured by its own length. -/
theorem unpackStream_measure {ys : List Byte} {n : Nat} (h : unpackStream ys = some (n, payload)) :
    n ≤ 7 ∧ payload.length ≤ 8 * ys.length := by
  cases ys with
  | nil => cases h
  | cons p body =>
    by_cases hbad : 7 < p.toNat ∨ 8 * body.length < p.toNat
    · rw [unpackStream_of_bad_header hbad] at h
      cases h
    · obtain ⟨h7, hlen⟩ : p.toNat ≤ 7 ∧ p.toNat ≤ 8 * body.length := by omega
      rw [unpackStream_of_header h7 hlen] at h
      cases h
      rw [List.length_take, length_bytesToBits, List.length_cons]
      omega

/-! ### Matching -/

/-- R264: what matching answers without a candidate left is a decomposition into codewords. -/
theorem eq_flatMap_code_of_greedy (h : greedy s.book payload [] = (out, [])) :
    (∀ x ∈ out, s.coded x) ∧ payload = out.flatMap s.code := by
  obtain ⟨hcoded, hbits⟩ := greedy_sound s.codeLen s.codeBits payload []
  rw [← State.book, h] at hcoded hbits
  exact ⟨hcoded, hbits.trans (List.append_nil _)⟩

/-- R269: with a prefixFree codebook matching finds the decomposition there is. -/
theorem greedy_flatMap_code (hpf : s.prefixFree) (hout : ∀ x ∈ out, s.coded x) :
    greedy s.book (out.flatMap s.code) [] = (out, []) := by
  have h := greedy_flatMap hpf out hout []
  simp only [greedy, List.append_nil] at h
  exact h

/-- R272: with a prefixFree codebook, if the codewords of `xs` begin with those of `out`, then `xs` begins with `out`. -/
theorem isPrefix_of_flatMap_code (hpf : s.prefixFree) (hout : ∀ x ∈ out, s.coded x) (hxs : ∀ x ∈ xs, s.coded x)
    (h : out.flatMap s.code <+: xs.flatMap s.code) : out <+: xs := by
  obtain ⟨rest, hrest⟩ := h
  have hsplit := greedy_flatMap hpf out hout rest
  have hwhole := greedy_flatMap_code hpf hxs
  rw [← hrest, State.book] at hwhole
  obtain ⟨happ, -⟩ := Prod.mk.inj (hsplit.symm.trans hwhole)
  exact ⟨_, happ⟩

/-! ### How the command ends -/

/-- R260: DECODE ends as its body does, with the completion bookkeeping. -/
theorem exec_decode_of_body {r : Ended} (h : decodeBody s = r) : exec .decode s = .next r.complete := by
  rw [exec_eq, bodyOf, h]

/-- R267: an error of DECODE's body, raised before or after IN was read. -/
theorem exec_decode_of_codecError {e : Err} (h : decodeBody s = codecError e s ∨ decodeBody s = codecError e s.afterInput) :
    ∃ t, exec .decode s = .next t ∧ codecFailed e.code s t := by
  rcases h with h | h
  · exact ⟨_, exec_decode_of_body h, codecFailed_codecError e s⟩
  · exact ⟨_, exec_decode_of_body h, codecFailed_afterInput.mp (codecFailed_codecError e s.afterInput)⟩

theorem decodeBody_of_not_lengthOk (h : ¬ s.lengthOk) : decodeBody s = codecError .lengthRange s := by
  rw [decodeBody, if_pos (State.lengthOutOfRange_eq_true h)]

/-- IN_LEN is 0 exactly when the stream is empty. -/
theorem State.inLen_eq_zero_iff : s.inLen = 0#32 ↔ s.input = [] := by
  rw [← List.length_eq_zero_iff, State.input_length, BitVec.toNat_eq]
  rfl

/-- R261: the empty stream is MALFORMED_STREAM, and IN is not read. -/
theorem decodeBody_of_input_nil (h : s.lengthOk) (hin : s.input = []) : decodeBody s = codecError .malformedStream s := by
  rw [decodeBody, h.lengthOutOfRange_eq_false, if_neg Bool.false_ne_true, if_pos (State.inLen_eq_zero_iff.mpr hin)]

/-- R260: any other stream within IN_CAP is decoded. -/
theorem decodeBody_of_input_ne_nil (h : s.lengthOk) (hin : s.input ≠ []) :
    decodeBody s = decodeStream s.afterInput s.input := by
  rw [decodeBody, h.lengthOutOfRange_eq_false, if_neg Bool.false_ne_true, if_neg (State.inLen_eq_zero_iff.not.mpr hin)]

/-- R261: a stream that does not unpack is MALFORMED_STREAM. -/
theorem exec_decode_of_unpackStream_none (h : s.lengthOk) (hu : unpackStream s.input = none) :
    ∃ t, exec .decode s = .next t ∧ codecFailed 3#8 s t := by
  refine exec_decode_of_codecError (e := .malformedStream) ?_
  by_cases hin : s.input = []
  · exact .inl (decodeBody_of_input_nil h hin)
  · right
    rw [decodeBody_of_input_ne_nil h hin, decodeStream, hu]

section Unpacked

variable {n : Nat} (h : s.lengthOk) (hu : unpackStream s.input = some (n, payload))
include h hu

/-- R263: a stream that unpacks is matched against the codebook. -/
theorem decodeBody_of_unpackStream {r : List Sym × Bits} (hr : greedy s.book payload [] = r) :
    decodeBody s =
      if !r.2.isEmpty then codecError .malformedStream s.afterInput
      else if s.cfg.outCap < r.1.length then codecError .outputOverflow s.afterInput
      else finished (s.afterInput.withSymbols r.1 payload.length n) := by
  have hin : s.input ≠ [] := fun hin => by simp [hin, unpackStream] at hu
  subst hr
  rw [decodeBody_of_input_ne_nil h hin, decodeStream, hu]
  rfl

/-- R264: a payload that is no concatenation of codewords is MALFORMED_STREAM. -/
theorem exec_decode_of_unmatched (hno : ¬ ∃ out : List Sym, (∀ x ∈ out, s.coded x) ∧ payload = out.flatMap s.code) :
    ∃ t, exec .decode s = .next t ∧ codecFailed 3#8 s t := by
  refine exec_decode_of_codecError (e := .malformedStream) (.inr ?_)
  rcases hr : greedy s.book payload [] with ⟨out, _ | ⟨c, cand⟩⟩
  · exact absurd ⟨out, eq_flatMap_code_of_greedy hr⟩ hno
  · rw [decodeBody_of_unpackStream h hu hr]
    rfl

/-- R265: once the whole payload is matched, the capacity decides between OUTPUT_OVERFLOW and the symbols. -/
theorem decodeBody_of_matched (hr : greedy s.book payload [] = (out, [])) :
    decodeBody s =
      if s.cfg.outCap < out.length then codecError .outputOverflow s.afterInput
      else finished (s.afterInput.withSymbols out payload.length n) := by
  rw [decodeBody_of_unpackStream h hu hr, List.isEmpty_nil, Bool.not_true, if_neg Bool.false_ne_true]

/-- R265: a complete decode of more than OUT_CAP symbols is OUTPUT_OVERFLOW. -/
theorem exec_decode_of_overflow (hr : greedy s.book payload [] = (out, [])) (hcap : s.cfg.outCap < out.length) :
    ∃ t, exec .decode s = .next t ∧ codecFailed 5#8 s t :=
  exec_decode_of_codecError (e := .outputOverflow) (.inr ((decodeBody_of_matched h hu hr).trans (if_pos hcap)))

/-- R266: a complete decode of at most OUT_CAP symbols is written. -/
theorem exec_decode_of_fits (hr : greedy s.book payload [] = (out, [])) (hcap : out.length ≤ s.cfg.outCap) :
    exec .decode s = .next ((s.afterInput.withSymbols out payload.length n).complete none) :=
  exec_decode_of_body ((decodeBody_of_matched h hu hr).trans (if_neg (Nat.not_lt.mpr hcap)))

end Unpacked

/-! ### What a success writes -/

/-- 20_memory.md R95: OUT holds the symbols, and its bytes past them are as before. -/
theorem State.withSymbols_read? (s : State) (out : List Sym) (m n a : Nat) :
    (s.withSymbols out m n).outBuf.read? a = if a < out.length then out[a]? else s.outBuf.read? a := by
  rw [State.withSymbols, State.withResults_outBuf, State.writeOut_outBuf, Memory.read?_writeList]
  simp

/-- R273: a success touches nothing but OUT and the result registers. -/
theorem sameButOutput_withSymbols (s : State) (out : List Sym) (m n : Nat) :
    sameButOutput s ((s.afterInput.withSymbols out m n).complete none) :=
  ⟨⟨fun _ => rfl, rfl, rfl, rfl, rfl, rfl⟩, rfl, ⟨rfl, rfl, rfl⟩, rfl, rfl, rfl, rfl⟩

/-- 00_scope.md R10: the bounds of legal capacities. -/
theorem capacities_of_wf {c : Config} (h : c.wf = true) :
    (1 ≤ c.inCap ∧ c.inCap ≤ 2 ^ 24) ∧ 1 ≤ c.outCap ∧ c.outCap ≤ 2 ^ 24 := by
  simp only [Config.wf, Config.maxCap, Bool.and_eq_true, and_assoc] at h
  obtain ⟨hin, hin', hout, hout', -⟩ := h
  exact ⟨⟨of_decide_eq_true hin, of_decide_eq_true hin'⟩, of_decide_eq_true hout, of_decide_eq_true hout'⟩

/-- R266: what DECODE leaves when it succeeds: `out` in OUT, the lengths in the result registers, and all else as before. -/
structure DecodedTo (out : List Sym) (payloadLen padLen : Nat) (s t : State) : Prop where
  completed   : completedWith 0#8 t
  outLen      : t.outLen.toNat = out.length
  payloadBits : t.payloadBits.toNat = payloadLen
  pad         : t.pad.toNat = padLen
  written     : ∀ i, i < out.length → t.outBuf.read? i = out[i]?
  unwritten   : ∀ a, out.length ≤ a → t.outBuf.read? a = s.outBuf.read? a
  frame       : sameButOutput s t

/-- R266, R269: with a prefixFree codebook DECODE succeeds on the codewords of at most OUT_CAP symbols. Legal capacities
keep the result registers from narrowing. -/
theorem exec_decode_of_concatenation {n : Nat} (hwf : s.cfg.wf = true) (h : s.lengthOk) (hpf : s.prefixFree)
    (hu : unpackStream s.input = some (n, payload)) (hout : ∀ x ∈ out, s.coded x) (hpay : payload = out.flatMap s.code)
    (hcap : out.length ≤ s.cfg.outCap) : ∃ t, exec .decode s = .next t ∧ DecodedTo out payload.length n s t := by
  have hr : greedy s.book payload [] = (out, []) := hpay ▸ greedy_flatMap_code hpf hout
  have hread := State.withSymbols_read? s.afterInput out payload.length n
  obtain ⟨⟨-, hinCap⟩, -, houtCap⟩ := capacities_of_wf hwf
  obtain ⟨hn, hlen⟩ := unpackStream_measure hu
  rw [State.input_length] at hlen
  rw [State.lengthOk] at h
  refine ⟨_, exec_decode_of_fits h hu hr hcap, ⟨rfl, rfl, rfl⟩, ?_, ?_, ?_, fun i hi => ?_, fun a ha => ?_,
    sameButOutput_withSymbols s out payload.length n⟩
  · exact Nat.mod_eq_of_lt (a := out.length) (by omega)
  · exact Nat.mod_eq_of_lt (a := payload.length) (by omega)
  · exact Nat.mod_eq_of_lt (a := n) (by omega)
  · exact (hread i).trans (if_pos hi)
  · exact (hread a).trans (if_neg (Nat.not_lt.mpr ha))

/-! ### The statements -/

/-- Settles O54: the header counts the dropped bits, and matching finds the one decomposition of the rest. -/
theorem decodeReturnsTheSymbols : Obligations.DecodeReturnsTheSymbols := by
  intro s p body out hwf hlen hpf hin h7 hp hout hpay hcap
  have hu := hin ▸ unpackStream_of_header h7 hp
  obtain ⟨t, ht, hd⟩ := exec_decode_of_concatenation hwf hlen hpf hu hout hpay hcap
  have hbits : ((bytesToBits body).take (8 * body.length - p.toNat)).length = 8 * body.length - p.toNat := by simp
  exact ⟨t, ht, hd.completed, hd.outLen, hd.payloadBits.trans hbits, hd.pad, hd.written, hd.unwritten, hd.frame⟩

/-- Settles O55: each check of DECODE's body comes after the ones that the statement names before it. -/
theorem decodeErrorsInOrder : Obligations.DecodeErrorsInOrder := by
  intro s
  refine ⟨fun hlen => ?_, fun hlen hin => ?_, fun p body hlen hin => ⟨fun hbad => ?_, fun h7 hp hpf => ?_⟩⟩
  · exact exec_decode_of_codecError (.inl (decodeBody_of_not_lengthOk hlen))
  · exact exec_decode_of_unpackStream_none hlen (hin ▸ rfl)
  · exact exec_decode_of_unpackStream_none hlen (hin ▸ unpackStream_of_bad_header hbad)
  · have hu := hin ▸ unpackStream_of_header h7 hp
    refine ⟨exec_decode_of_unmatched hlen hu, fun out hout hpay hcap => ?_⟩
    exact exec_decode_of_overflow hlen hu (hpay ▸ greedy_flatMap_code hpf hout) hcap

/-- Settles O57: the empty payload is matched at once, and without codewords no other payload is a concatenation. -/
theorem decodeWithNoPayloadOrNoCodebook : Obligations.DecodeWithNoPayloadOrNoCodebook := by
  intro s hlen
  refine ⟨fun hin => ?_, fun p body hempty hin hbody => ?_⟩
  · have hu : unpackStream s.input = some (0, []) := by rw [hin]; rfl
    exact ⟨_, exec_decode_of_fits hlen hu rfl (Nat.zero_le _), ⟨rfl, rfl, rfl⟩, rfl, rfl, rfl, fun _ => rfl,
      sameButOutput_withSymbols s [] 0 0⟩
  · obtain ⟨hnone, -⟩ := hempty
    by_cases hbad : 7 < p.toNat ∨ 8 * body.length < p.toNat
    · exact exec_decode_of_unpackStream_none hlen (hin ▸ unpackStream_of_bad_header hbad)
    · obtain ⟨h7, hp⟩ : p.toNat ≤ 7 ∧ p.toNat ≤ 8 * body.length := by omega
      refine exec_decode_of_unmatched hlen (hin ▸ unpackStream_of_header h7 hp) ?_
      rintro ⟨out, hout, hpay⟩
      obtain rfl : out = [] := List.eq_nil_iff_forall_not_mem.mpr fun x hx => hout x hx (hnone x)
      have hpos := List.length_pos_iff.mpr hbody
      have hlen := congrArg List.length hpay
      rw [List.length_take, length_bytesToBits, List.flatMap_nil, List.length_nil] at hlen
      omega

end Sys2Proof.Machine
end

section
/-! PROOFS. The codec as a whole (44_decoder.md R271, R272): the bytes a command reads from a written IN, the codebook that
BUILD_CODEC leaves, the stream that ENCODE leaves, and what DECODE makes of it and of its beginning. -/

namespace Sys2Proof.Machine

variable {s t : State} {c : Bits}

/-! ### The bytes read from IN -/

theorem State.input_ne_nil (h : 1 ≤ s.inLen.toNat) : s.input ≠ [] :=
  List.ne_nil_of_length_pos (s.input_length ▸ h)

/-- 20_memory.md R94: a command reads a written byte as last written. -/
theorem State.inputWritten.getElem?_input (h : s.inputWritten) {i : Nat} (hi : i < s.inLen.toNat) :
    s.input[i]? = s.inBuf.read? i := by
  obtain ⟨b, hb⟩ := Option.isSome_iff_exists.mp (h i hi)
  rw [hb]
  exact Memory.readList_get_written hi (by rw [Nat.zero_add, hb])

/-- R94: a command whose IN holds the first bytes of `bs` reads them. -/
theorem State.input_eq_take {bs : List Byte} (hle : s.inLen.toNat ≤ bs.length)
    (h : ∀ i, i < s.inLen.toNat → s.inBuf.read? i = bs[i]?) : s.input = bs.take s.inLen.toNat := by
  have hw : s.inputWritten := fun i hi => by simp [h i hi, hi.trans_le hle]
  refine List.ext_getElem? fun i => ?_
  by_cases hi : i < s.inLen.toNat
  · rw [hw.getElem?_input hi, h i hi, List.getElem?_take_of_lt hi]
  · rw [List.getElem?_eq_none (by rw [State.input_length]; omega),
      List.getElem?_eq_none (by rw [List.length_take]; omega)]

/-- R94: a written input reads the same as long as the host leaves it. -/
theorem sameHostSide.input_eq (h : sameHostSide s t) (hw : s.inputWritten) : t.input = s.input := by
  obtain ⟨hbuf, hlen, -⟩ := h
  have hs : s.inLen.toNat = s.input.length := s.input_length.symm
  rw [← hlen] at hs
  refine (State.input_eq_take hs.le fun i hi => ?_).trans (List.take_of_length_le hs.ge)
  rw [hlen] at hi
  rw [hbuf, hw.getElem?_input hi]

/-! ### The codebook of the tables -/

/-- 10_state.md R58: the codebook is a function of CODE_LEN and CODE_BITS. -/
theorem State.coded_congr (hlen : t.codeLen = s.codeLen) : t.coded = s.coded := by
  funext x
  rw [State.coded, hlen, State.coded]

theorem State.code_congr (hlen : t.codeLen = s.codeLen) (hbits : t.codeBits = s.codeBits) : t.code = s.code := by
  funext x
  rw [State.code, hlen, hbits, State.code]

/-- R56: the codewords of a non-empty input are not empty. -/
theorem flatMap_code_ne_nil {xs : List Sym} (hne : xs ≠ []) (hxs : ∀ x ∈ xs, s.coded x) : xs.flatMap s.code ≠ [] := by
  obtain ⟨x, hx⟩ := List.exists_mem_of_ne_nil xs hne
  exact fun hnil => (codeOf_ne_nil _ _ x).mpr (hxs x hx) (List.flatMap_eq_nil_iff.mp hnil x hx)

/-! ### BUILD_CODEC -/

/-- The state in which BUILD_CODEC runs its second body (45_build_codec.md R290). -/
def State.counted (s : State) : State := { s.afterInput with freq := countBytes s.input }

/-- 40_frequency_counter.md R151: a byte of the input has a leaf. -/
theorem State.counted_hasLeaf (hne : s.input ≠ []) : s.counted.hasLeaf := by
  obtain ⟨x, hx⟩ := List.exists_mem_of_ne_nil _ hne
  refine ⟨x, fun h0 => ?_⟩
  have hcount : ((countBytes s.input).get x).toNat = s.input.count x := countBytes_input_toNat s x
  have hpos : 0 < s.input.count x := List.count_pos_iff.mpr hx
  rw [← hcount, show (countBytes s.input).get x = 0#32 from h0] at hpos
  exact absurd hpos (by decide)

/-- 41_tree_builder.md R170: the state that BUILD_TREE's body leaves when there is a leaf. -/
def State.treeBuilt (s : State) : State := s.invalidate.withTree (present s.freq).length (buildNodes s.freq)

/-- 42_code_table.md R200: the state that GEN_CODES's body leaves when there is a tree. -/
def State.codesGenerated (s : State) : State := s.withCodes (treeCodes s.tree s.nsym.toNat)

theorem countBody_of_lengthOk (h : s.lengthOk) : countBody s = finished s.counted := by
  rcases countBody_cases s with ⟨hout, -⟩ | ⟨-, hbody⟩
  · simp [h.lengthOutOfRange_eq_false] at hout
  · exact hbody

theorem buildTreeBody_of_hasLeaf (h : s.hasLeaf) : buildTreeBody s = finished s.treeBuilt := by
  rcases buildTreeBody_cases s with ⟨hnone, -⟩ | ⟨-, hbody⟩
  · exact absurd hnone (State.hasLeaf_iff.mp h)
  · exact hbody

theorem genCodesBody_of_treeValid (h : s.treeValid = true) : genCodesBody s = finished s.codesGenerated := by
  rcases genCodesBody_cases s with ⟨hnone, -⟩ | ⟨-, hbody⟩
  · simp [h] at hnone
  · exact hbody

/-- R290: with a leaf to count BUILD_CODEC runs all three bodies. -/
theorem exec_buildCodec_of_counted_hasLeaf (h : s.lengthOk) (hleaf : s.counted.hasLeaf) :
    exec .buildCodec s = .next (s.counted.treeBuilt.codesGenerated.complete none) := by
  rw [exec_eq, bodyOf, buildCodecBody, countBody_of_lengthOk h, andThen_finished, buildTreeBody_of_hasLeaf hleaf,
    andThen_finished, genCodesBody_of_treeValid (s := s.counted.treeBuilt) rfl, Ended.complete_eq, finished_state,
    finished_error]

/-- R58: BUILD_TREE and GEN_CODES leave a prefixFree codebook. -/
theorem State.codebookBuilt_of_hasLeaf (h : s.hasLeaf) : (s.treeBuilt.codesGenerated.complete none).codebookBuilt := by
  obtain ⟨e, he⟩ := merging_buildNodes (State.hasLeaf_iff.mp h)
  have hcode := treeCodes_prefixCode (toNat_ofNat_present_length s.freq ▸ he.treeOk)
  exact hcode.codebookBuilt rfl rfl rfl

/-- R290: on a non-empty input BUILD_CODEC ends well with a prefixFree codebook. -/
theorem exec_buildCodec_of_input_ne_nil (h : s.lengthOk) (hne : s.input ≠ []) :
    ∃ t, exec .buildCodec s = .next t ∧ t.errCode = 0#8 ∧ t.codebookBuilt ∧ sameHostSide s t := by
  have hleaf := State.counted_hasLeaf hne
  exact ⟨_, exec_buildCodec_of_counted_hasLeaf h hleaf, rfl, State.codebookBuilt_of_hasLeaf hleaf, fun _ => rfl, rfl, rfl,
    rfl, rfl, rfl⟩

/-! ### ENCODE's stream -/

/-- 43_encoder.md R231, R235: ENCODE ends without an error only as `exec_encode_of_fits` says. -/
theorem exec_encode_eq_of_errCode_zero (hexec : exec .encode s = .next t) (h0 : t.errCode = 0#8) :
    (∀ x, x ∈ s.input → s.coded x) ∧ 1 + payloadBytes (s.input.flatMap s.code).length ≤ s.cfg.outCap ∧
      t = (s.afterInput.withStream (s.input.flatMap s.code)).complete none := by
  have never {e : Err} : ¬ ∃ u, exec .encode s = .next u ∧ codecFailed e.code s u := by
    rintro ⟨u, hu, ⟨-, -, hcode⟩, -⟩
    rw [hexec, Host.Outcome.next.injEq] at hu
    rw [← hu, h0] at hcode
    cases e <;> exact absurd hcode (by decide)
  obtain ⟨hrange, hunknown, hover⟩ := encodeErrorsInOrder s
  have hlen : s.lengthOk := by_contra fun h => never (e := .lengthRange) (hrange h)
  have hcoded : ∀ x, x ∈ s.input → s.coded x := by
    by_contra! h
    exact never (e := .unknownSymbol) (hunknown hlen h)
  have hcap : 1 + payloadBytes (s.input.flatMap s.code).length ≤ s.cfg.outCap := by
    by_contra! h
    exact never (e := .outputOverflow) (hover hlen hcoded (payloadBytes_eq _ ▸ h))
  rw [exec_encode_of_fits hlen hcoded hcap, Host.Outcome.next.injEq] at hexec
  exact ⟨hcoded, hcap, hexec.symm⟩

/-- R234, R236: a success of ENCODE codes every input byte and leaves in OUT, measured by OUT_LEN and PAD, the stream of
their codewords. -/
theorem stream_of_exec_encode (hwf : s.cfg.wf = true) (hexec : exec .encode s = .next t) (h0 : t.errCode = 0#8) :
    (∀ x, x ∈ s.input → s.coded x) ∧ t.outLen.toNat = 1 + payloadBytes (s.input.flatMap s.code).length ∧
      t.pad.toNat = padLen (s.input.flatMap s.code).length ∧
      (∀ i, i < t.outLen.toNat → t.outBuf.read? i = (packedStream (s.input.flatMap s.code))[i]?) ∧ sameButOutput s t := by
  obtain ⟨hcoded, hcap, rfl⟩ := exec_encode_eq_of_errCode_zero hexec h0
  obtain ⟨houtLen, -, hpad⟩ := State.withStream_results_toNat s.afterInput (hcap.trans (outCap_le_of_wf hwf))
  refine ⟨hcoded, houtLen, hpad, fun i hi => ?_, sameButOutput_withStream s _⟩
  rw [State.complete_outLen, houtLen] at hi
  exact (State.withStream_read? s.afterInput _ i).trans (if_pos hi)

/-- 00_scope.md R15: whole bytes of a bit string. -/
theorem bytesToBits_take (k : Nat) (bs : List Byte) : bytesToBits (bs.take k) = (bytesToBits bs).take (8 * k) := by
  have hsplit : bytesToBits (bs.take k) ++ bytesToBits (bs.drop k) = bytesToBits bs := by
    rw [bytesToBits, bytesToBits, bytesToBits, ← List.flatMap_append, List.take_append_drop]
  rcases Nat.le_total k bs.length with hk | hk
  · rw [← hsplit, List.take_left' (by rw [length_bytesToBits, List.length_take, Nat.min_eq_left hk])]
  · rw [List.take_of_length_le hk, List.take_of_length_le (by rw [length_bytesToBits]; omega)]

/-- R272: the header of a stream and its first k payload bytes unpack to the first 8k − p bits of the payload. -/
theorem unpackStream_take_packedStream {k : Nat} (hk : k ≤ payloadBytes c.length) :
    unpackStream ((packedStream c).take (1 + k)) =
      if 8 * k < padLen c.length then none else some (padLen c.length, c.take (8 * k - padLen c.length)) := by
  have hp := padLen_lt c.length
  have hsum := add_padLen c.length
  have hbits : bytesToBits ((bitsToBytes (payloadBytes c.length) (padded c)).take k) = (padded c).take (8 * k) := by
    rw [bytesToBits_take, bytesToBits_bitsToBytes _ _ (length_padded c)]
  have hheader : (BitVec.ofNat 8 (padLen c.length)).toNat = padLen c.length := Nat.mod_eq_of_lt (by omega)
  have hlen : ((bitsToBytes (payloadBytes c.length) (padded c)).take k).length = k := by simpa using hk
  rw [packedStream, Nat.add_comm 1 k, List.take_succ_cons]
  split_ifs with hlt
  · exact unpackStream_of_bad_header (.inr (by rw [hheader, hlen]; exact hlt))
  · rw [unpackStream_of_header (by omega) (by omega), hheader, hlen, hbits, List.take_take, padded,
      List.take_append_of_le_length (by omega), Nat.min_eq_left (Nat.sub_le _ _)]

/-! ### A copy of the stream -/

/-- R271, R272: `u` is ready to DECODE what ENCODE left in `t`: with the parameters and the codebook of `t`, its IN holds
the first bytes, at least one, of the stream in the OUT of `t`. -/
structure CopyOf (t u : State) : Prop where
  cfg      : u.cfg = t.cfg
  codeLen  : u.codeLen = t.codeLen
  codeBits : u.codeBits = t.codeBits
  pos      : 1 ≤ u.inLen.toNat
  le       : u.inLen.toNat ≤ t.outLen.toNat
  bytes    : ∀ i, i < u.inLen.toNat → u.inBuf.read? i = t.outBuf.read? i

section Copy

variable {u : State} (hwf : s.cfg.wf = true) (hexec : exec .encode s = .next t) (h0 : t.errCode = 0#8)
  (hcopy : CopyOf t u)
include hwf hexec h0 hcopy

/-- The copy has the parameters and the codebook that ENCODE ran with. -/
theorem CopyOf.cfg_coded_code : u.cfg = s.cfg ∧ u.coded = s.coded ∧ u.code = s.code := by
  obtain ⟨-, -, -, -, ⟨-, -, -, hcfg, -⟩, -, -, hlen, hbits, -⟩ := stream_of_exec_encode hwf hexec h0
  exact ⟨hcopy.cfg.trans hcfg, State.coded_congr (hcopy.codeLen.trans hlen),
    State.code_congr (hcopy.codeLen.trans hlen) (hcopy.codeBits.trans hbits)⟩

/-- R262: with p the header and m the payload bits of the copy, it unpacks to the first m − p bits of ENCODE's payload. -/
theorem CopyOf.unpackStream_input {m : Nat} (hm : m = 8 * (u.inLen.toNat - 1)) : unpackStream u.input =
    if m < t.pad.toNat then none else some (t.pad.toNat, (s.input.flatMap s.code).take (m - t.pad.toNat)) := by
  obtain ⟨-, houtLen, hpad, hread, -⟩ := stream_of_exec_encode hwf hexec h0
  have hle := hcopy.le
  have hpos := hcopy.pos
  have hinput : u.input = (packedStream (s.input.flatMap s.code)).take u.inLen.toNat := by
    refine State.input_eq_take ?_ fun i hi => ?_
    · rw [length_packedStream, ← houtLen]
      exact hle
    · rw [hcopy.bytes i hi, hread i (hi.trans_le hle)]
  rw [hinput, hpad, hm, ← unpackStream_take_packedStream (by omega), Nat.add_sub_cancel' hpos]

/-- R271, R272: DECODE of a copy whose payload bits are the codewords of the first k input bytes gives those bytes. -/
theorem CopyOf.exec_decode (hpf : s.prefixFree) (hlen : u.lengthOk) (hcap : s.inLen.toNat ≤ s.cfg.outCap) {m k : Nat}
    (hm : m = 8 * (u.inLen.toNat - 1)) (hpm : t.pad.toNat ≤ m)
    (hk : (s.input.take k).flatMap s.code = (s.input.flatMap s.code).take (m - t.pad.toNat)) :
    ∃ d, exec .decode u = .next d ∧
      DecodedTo (s.input.take k) ((s.input.flatMap s.code).take (m - t.pad.toNat)).length t.pad.toNat u d := by
  obtain ⟨hcoded, -⟩ := stream_of_exec_encode hwf hexec h0
  obtain ⟨hcfg, hucoded, hucode⟩ := hcopy.cfg_coded_code hwf hexec h0
  have hu := (hcopy.unpackStream_input hwf hexec h0 hm).trans (if_neg (Nat.not_lt.mpr hpm))
  have hupf : u.prefixFree := by
    rw [State.prefixFree, hucoded, hucode]
    exact hpf
  have hfits : (s.input.take k).length ≤ u.cfg.outCap := by
    rw [hcfg]
    exact (List.length_take_le' _ _).trans (s.input_length ▸ hcap)
  exact exec_decode_of_concatenation (hcfg ▸ hwf) hlen hupf hu
    (fun x hx => hucoded ▸ hcoded x (List.mem_of_mem_take hx)) (hucode ▸ hk.symm) hfits

/-- R272: DECODE of a copy that is cut within its header's padding, or within a codeword, is MALFORMED_STREAM. -/
theorem CopyOf.exec_decode_malformed (hpf : s.prefixFree) (hlen : u.lengthOk) {m : Nat}
    (hm : m = 8 * (u.inLen.toNat - 1))
    (hcut : m < t.pad.toNat ∨ ∀ k, k ≤ s.inLen.toNat →
      (s.input.take k).flatMap s.code ≠ (s.input.flatMap s.code).take (m - t.pad.toNat)) :
    ∃ d, exec .decode u = .next d ∧ codecFailed 3#8 u d := by
  obtain ⟨hcoded, -⟩ := stream_of_exec_encode hwf hexec h0
  obtain ⟨-, hucoded, hucode⟩ := hcopy.cfg_coded_code hwf hexec h0
  have hu := hcopy.unpackStream_input hwf hexec h0 hm
  by_cases hpm : m < t.pad.toNat
  · exact exec_decode_of_unpackStream_none hlen (hu.trans (if_pos hpm))
  · refine exec_decode_of_unmatched hlen (hu.trans (if_neg hpm)) ?_
    rw [hucoded, hucode]
    rintro ⟨out, hout, hpay⟩
    have hpre : out <+: s.input := isPrefix_of_flatMap_code hpf hout hcoded (hpay ▸ List.take_prefix _ _)
    refine hcut.resolve_left hpm out.length (s.input_length ▸ hpre.length_le) ?_
    rw [← List.prefix_iff_eq_take.mp hpre, hpay]

/-- R271: DECODE of the whole stream gives the input that ENCODE read. -/
theorem CopyOf.exec_decode_all (hpf : s.prefixFree) (hlen : u.lengthOk) (hcap : s.inLen.toNat ≤ s.cfg.outCap)
    (hall : u.inLen = t.outLen) :
    ∃ d, exec .decode u = .next d ∧ DecodedTo s.input (s.input.flatMap s.code).length t.pad.toNat u d := by
  obtain ⟨-, houtLen, hpad, -⟩ := stream_of_exec_encode hwf hexec h0
  have hsum := add_padLen (s.input.flatMap s.code).length
  have hbits : (s.input.flatMap s.code).take (8 * (u.inLen.toNat - 1) - t.pad.toNat) = s.input.flatMap s.code :=
    List.take_of_length_le (by rw [hall]; omega)
  have h := hcopy.exec_decode hwf hexec h0 hpf hlen hcap (k := s.input.length) rfl (by rw [hall]; omega)
  rw [List.take_length, hbits] at h
  exact h rfl

end Copy

/-! ### The empty input -/

/-- R271: the empty input's stream, one byte 0, decodes to nothing with any codebook. -/
theorem decode_encode_of_empty (hwf : s.cfg.wf = true) (h : s.inLen = 0#32) :
    ∃ t, exec .encode s = .next t ∧ t.errCode = 0#8 ∧ ∀ u : State, u.cfg = t.cfg → u.inLen = t.outLen →
      (∀ i, i < t.outLen.toNat → u.inBuf.read? i = t.outBuf.read? i) →
      ∃ d, exec .decode u = .next d ∧ d.errCode = 0#8 ∧ d.outLen = 0#32 := by
  obtain ⟨⟨hinCap, -⟩, houtCap, -⟩ := capacities_of_wf hwf
  obtain ⟨t, ht, ⟨-, -, h0⟩, hbyte, houtLen, -, -, -, ⟨-, -, -, hcfg, -⟩, -⟩ := encodeOfTheEmptyInput s houtCap h
  refine ⟨t, ht, h0, fun u hucfg hinLen hcopy => ?_⟩
  rw [houtLen] at hinLen hcopy
  have hlen : u.lengthOk := by
    rw [State.lengthOk, hinLen, hucfg, hcfg]
    exact hinCap
  have hinput : u.input = [0#8] := by
    refine (State.input_eq_take (bs := [0#8]) (by rw [hinLen]; rfl) fun i hi => ?_).trans (by rw [hinLen]; rfl)
    rw [hinLen] at hi
    obtain rfl : i = 0 := Nat.lt_one_iff.mp hi
    exact (hcopy 0 hi).trans hbyte
  obtain ⟨hzero, -⟩ := decodeWithNoPayloadOrNoCodebook u hlen
  obtain ⟨d, hd, ⟨-, -, hd0⟩, hdLen, -⟩ := hzero hinput
  exact ⟨d, hd, hd0, hdLen⟩

/-- R272: without that byte nothing is left, which is malformed. -/
theorem decode_encode_of_empty_truncated (hwf : s.cfg.wf = true) (h : s.inLen = 0#32) :
    ∃ t, exec .encode s = .next t ∧ t.errCode = 0#8 ∧ ∀ u : State, u.cfg = t.cfg → u.inLen.toNat + 1 = t.outLen.toNat →
      ∃ d, exec .decode u = .next d ∧ codecFailed 3#8 u d := by
  obtain ⟨-, houtCap, -⟩ := capacities_of_wf hwf
  obtain ⟨t, ht, ⟨-, -, h0⟩, -, houtLen, -⟩ := encodeOfTheEmptyInput s houtCap h
  refine ⟨t, ht, h0, fun u _ hinLen => ?_⟩
  rw [houtLen] at hinLen
  have hzero : u.inLen.toNat = 0 := Nat.succ.inj hinLen
  have hlen : u.lengthOk := by
    rw [State.lengthOk, hzero]
    exact Nat.zero_le _
  have hinput : u.input = [] := List.eq_nil_of_length_eq_zero (u.input_length.trans hzero)
  exact exec_decode_of_unpackStream_none hlen (hinput ▸ rfl)

/-! ### The statements -/

/-- Settles O58: BUILD_CODEC leaves a prefixFree codebook and the written input, so DECODE undoes ENCODE. -/
theorem encodeThenDecodeRoundTrips : Obligations.EncodeThenDecodeRoundTrips := by
  refine ⟨fun s hwf hlen hpos hw => ?_, fun s => decode_encode_of_empty⟩
  obtain ⟨a, ha, ha0, ⟨-, -, -, hpf, -⟩, hside⟩ := exec_buildCodec_of_input_ne_nil hlen (State.input_ne_nil hpos)
  obtain ⟨b, hb⟩ : ∃ b, exec .encode a = .next b := ⟨_, exec_eq .encode a⟩
  refine ⟨a, b, ha, hb, ha0, fun hb0 hin hout c hcfg hcodeLen hcodeBits hinLen hcopy => ?_⟩
  have hinput := hside.input_eq hw
  obtain ⟨-, hainLen, -, hacfg, -⟩ := hside
  rw [← hacfg] at hwf hin hout
  rw [← hainLen] at hout
  obtain ⟨-, hoLen, -, -, ⟨-, -, -, hbcfg, -⟩, -⟩ := stream_of_exec_encode hwf hb hb0
  have hc : CopyOf b c := ⟨hcfg, hcodeLen, hcodeBits, by rw [hinLen]; omega, by rw [hinLen], hinLen ▸ hcopy⟩
  have hclen : c.lengthOk := by
    rw [State.lengthOk, hcfg, hbcfg, hinLen]
    exact hin
  obtain ⟨d, hd, hdec⟩ := hc.exec_decode_all hwf hb hb0 hpf hclen hout hinLen
  rw [hinput] at hdec
  obtain ⟨-, -, hd0⟩ := hdec.completed
  refine ⟨d, hd, hd0, BitVec.eq_of_toNat_eq (hdec.outLen.trans s.input_length), fun i hi => ?_⟩
  rw [hdec.written i (s.input_length ▸ hi), hw.getElem?_input hi]

/-- Settles O59: the cut payload ends at a codeword boundary or it does not, and what is left of [0x00] is empty. -/
theorem truncatedStreamDecodesToAPrefix : Obligations.TruncatedStreamDecodesToAPrefix := by
  refine ⟨fun s hwf hlen hpos hw hpf => ?_, fun s => decode_encode_of_empty_truncated⟩
  obtain ⟨b, hb⟩ : ∃ b, exec .encode s = .next b := ⟨_, exec_eq .encode s⟩
  refine ⟨b, hb, fun hb0 hin hout c hcfg hcodeLen hcodeBits hinLen hcopy m p hm hp => ?_⟩
  subst hp
  obtain ⟨hcoded, hoLen, -, -, ⟨-, -, -, hbcfg, -⟩, -⟩ := stream_of_exec_encode hwf hb hb0
  have hpayload := List.length_pos_iff.mpr (flatMap_code_ne_nil (State.input_ne_nil hpos) hcoded)
  rw [payloadBytes_eq] at hoLen
  have hc : CopyOf b c := ⟨hcfg, hcodeLen, hcodeBits, by omega, by omega, hcopy⟩
  have hclen : c.lengthOk := by
    rw [State.lengthOk, hcfg, hbcfg]
    omega
  obtain ⟨d, hd⟩ : ∃ d, exec .decode c = .next d := ⟨_, exec_eq .decode c⟩
  refine ⟨d, hd, fun k hk hpm heq => ?_, fun hcut => ?_⟩
  · obtain ⟨d', hd', hdec⟩ := hc.exec_decode hwf hb hb0 hpf hclen hout hm hpm heq
    obtain rfl : d' = d := Host.Outcome.next.inj (hd'.symm.trans hd)
    obtain ⟨-, -, hd0⟩ := hdec.completed
    have htake : (s.input.take k).length = k := by
      rw [List.length_take, State.input_length, Nat.min_eq_left hk]
    refine ⟨hd0, hdec.outLen.trans htake, fun i hi => ?_⟩
    rw [hdec.written i (htake.symm ▸ hi), List.getElem?_take_of_lt hi, hw.getElem?_input (hi.trans_le hk)]
  · obtain ⟨d', hd', hfail⟩ := hc.exec_decode_malformed hwf hb hb0 hpf hclen hm hcut
    obtain rfl : d' = d := Host.Outcome.next.inj (hd'.symm.trans hd)
    exact hfail

end Sys2Proof.Machine
end

section
/-! PROOFS. Illegal command words (45_build_codec.md R295): the words outside 1 to 6 have no command, and the engine's turn
completes them with ILLEGAL_COMMAND. -/

namespace Sys2Proof.Machine

/-- 30_encoding.md R121: the command words are 1 to 6. -/
theorem encode_toNat_bounds (i : Instr) : 1 ≤ (encode i).toNat ∧ (encode i).toNat ≤ 6 := by
  cases i <;> decide

/-- 30_encoding.md R124: a word outside 1 to 6 decodes to no command. -/
theorem exists_decode_eq_error {v : Word} (h : v.toNat = 0 ∨ 7 ≤ v.toNat) : ∃ r, decode v = .error r := by
  cases hd : decode v with
  | error r => exact ⟨r, rfl⟩
  | ok i =>
    obtain ⟨hlow, hhigh⟩ := encode_toNat_bounds i
    rw [← (decode_eq_ok_iff v i).mp hd] at hlow hhigh
    omega

/-- R295: the completion step of a word without a command is the bookkeeping with ILLEGAL_COMMAND. -/
theorem engineStep_of_decode_error {s : State} {r : Reject} (h : decode s.curCmd = .error r) :
    engineStep s = .next (s.complete (some .illegalCommand)) := by
  rw [engineStep, h]
  rfl

/-- Settles O22: the bookkeeping sets ERR_CODE, BUSY and DONE, and STATUS.ERR and IRQ are read from them. -/
theorem illegalWordCompletesWithCodeFour : Obligations.IllegalWordCompletesWithCodeFour := by
  intro s ms hb hm hv
  obtain ⟨r, hr⟩ := exists_decode_eq_error hv
  have hstep : step s = .next (State.complete { s with moves := ms } (some .illegalCommand)) :=
    (step_of_engine hb hm).trans (engineStep_of_decode_error hr)
  exact ⟨_, hstep, rfl, Bool.true_and _, rfl⟩

end Sys2Proof.Machine
end

section
/-! PROOFS. BUILD_CODEC (45_build_codec.md): the two ways it fails beside the success (R291), that it is the three commands
in turn (R292), and that its result depends on the input alone (R293). -/

namespace Sys2Proof.Machine

variable {s u : State}

/-! ### How the commands fail -/

/-- 60_exceptions.md R310: no error has the code of success. -/
theorem Err.code_ne_zero (e : Err) : e.code ≠ 0#8 := by
  cases e <;> decide

/-- R150: COUNT checks the length before it writes. -/
theorem countBody_of_not_lengthOk (h : ¬ s.lengthOk) : countBody s = raiseErr .lengthRange s := by
  rw [countBody, if_pos (State.lengthOutOfRange_eq_true h)]

theorem exec_count_of_not_lengthOk (h : ¬ s.lengthOk) : exec .count s = .next (s.complete (some .lengthRange)) := by
  rw [exec_eq, bodyOf, countBody_of_not_lengthOk h, Ended.complete_eq, raiseErr_state, raiseErr_error]

/-- 41_tree_builder.md R176: without a leaf BUILD_TREE's body ends on the invalidated state. -/
theorem buildTreeBody_of_not_hasLeaf (h : ¬ s.hasLeaf) : buildTreeBody s = raiseErr .emptyInput s.invalidate := by
  rcases buildTreeBody_cases s with ⟨-, hbody⟩ | ⟨hsome, -⟩
  · exact hbody
  · exact absurd (State.hasLeaf_iff.mpr hsome) h

/-- 40_frequency_counter.md R151: every counter of the empty input is 0. -/
theorem State.counted_freq_get_of_input_nil (hin : s.input = []) (x : Sym) : s.counted.freq.get x = 0#32 := by
  rw [State.counted, hin, countBytes_get, List.count_nil]

theorem State.not_counted_hasLeaf (hin : s.input = []) : ¬ s.counted.hasLeaf := by
  rintro ⟨x, hx⟩
  exact hx (State.counted_freq_get_of_input_nil hin x)

/-- R291: LENGTH_RANGE is the bookkeeping alone. -/
theorem exec_buildCodec_of_not_lengthOk (h : ¬ s.lengthOk) :
    exec .buildCodec s = .next (s.complete (some .lengthRange)) := by
  rw [exec_eq, bodyOf, buildCodecBody, countBody_of_not_lengthOk h, andThen_raiseErr, andThen_raiseErr,
    Ended.complete_eq, raiseErr_state, raiseErr_error]

/-- R291: on the empty input BUILD_TREE's body raises, after COUNT's has cleared the counters. -/
theorem exec_buildCodec_of_input_nil (h : s.lengthOk) (hin : s.input = []) :
    exec .buildCodec s = .next (s.counted.invalidate.complete (some .emptyInput)) := by
  rw [exec_eq, bodyOf, buildCodecBody, countBody_of_lengthOk h, andThen_finished,
    buildTreeBody_of_not_hasLeaf (State.not_counted_hasLeaf hin), andThen_raiseErr, Ended.complete_eq, raiseErr_state,
    raiseErr_error]

/-! ### What the result depends on -/

/-- R150: FREQ is a function of the input. -/
theorem State.counted_freq_congr (h : s.input = u.input) : s.counted.freq = u.counted.freq :=
  congrArg countBytes h

/-- 41_tree_builder.md R178: BUILD_TREE's tree and leaf count are functions of FREQ. -/
theorem State.treeBuilt_congr (h : s.freq = u.freq) :
    s.treeBuilt.tree = u.treeBuilt.tree ∧ s.treeBuilt.nsym = u.treeBuilt.nsym := by
  simp only [State.treeBuilt, State.withTree_tree, State.withTree_nsym, h, and_self]

/-- 42_code_table.md R200: GEN_CODES's tables and MAX_LEN are functions of TREE and NSYM. -/
theorem State.codesGenerated_congr (htree : s.tree = u.tree) (hnsym : s.nsym = u.nsym) :
    sameCodes s.codesGenerated u.codesGenerated := by
  simp only [sameCodes, State.codesGenerated, State.withCodes, htree, hnsym, and_self]

/-! ### The statements -/

/-- Settles O47: the completion steps between the bodies write nothing that a later body reads, so in each of the ways
BUILD_CODEC ends it and the three commands write the same fields. -/
theorem buildCodecIsTheThreeInTurn : Obligations.BuildCodecIsTheThreeInTurn := by
  intro s
  by_cases h : s.lengthOk
  · have ha : exec .count s = .next (s.counted.complete none) := exec_count_of_lengthOk h
    by_cases hin : s.input = []
    · have hb := exec_buildTree_of_not_hasLeaf (s := s.counted.complete none) (State.not_counted_hasLeaf hin)
      exact ⟨_, _, _, _, ha, hb, exec_eq .genCodes _, exec_buildCodec_of_input_nil h hin, fun hne => absurd rfl hne,
        fun _ _ => rfl, fun _ h0 => absurd h0 (Err.code_ne_zero .emptyInput)⟩
    · have hleaf := State.counted_hasLeaf hin
      have hb := exec_buildTree_of_hasLeaf (s := s.counted.complete none) hleaf
      exact ⟨_, _, _, _, ha, hb, exec_genCodes_of_treeValid rfl, exec_buildCodec_of_counted_hasLeaf h hleaf,
        fun hne => absurd rfl hne, fun _ hne => absurd rfl hne, fun _ _ => ⟨rfl, rfl⟩⟩
  · exact ⟨_, _, _, _, exec_count_of_not_lengthOk h, exec_eq .buildTree _, exec_eq .genCodes _,
      exec_buildCodec_of_not_lengthOk h, fun _ => rfl, fun h0 => absurd h0 (Err.code_ne_zero .lengthRange),
      fun h0 => absurd h0 (Err.code_ne_zero .lengthRange)⟩

/-- Settles O50: BUILD_CODEC ends in one of three ways, and each clause is about one of them. -/
theorem buildCodecPartialEffects : Obligations.BuildCodecPartialEffects := by
  intro s
  by_cases h : s.lengthOk
  · by_cases hin : s.input = []
    · refine ⟨_, exec_buildCodec_of_input_nil h hin, fun hlt => absurd h (Nat.not_le.mpr hlt), fun _ => ?_,
        fun _ hne => absurd (State.inLen_eq_zero_iff.mpr hin) hne⟩
      refine ⟨⟨rfl, rfl, rfl⟩, State.counted_freq_get_of_input_nil hin, ?_, ?_, ?_⟩
      · exact ⟨rfl, rfl, rfl, rfl, fun x => Table.get_zero x, fun x => Table.get_zero x⟩
      · exact ⟨fun _ => rfl, rfl, rfl, rfl, rfl, rfl⟩
      · exact ⟨rfl, rfl, rfl, fun _ => rfl⟩
    · exact ⟨_, exec_buildCodec_of_counted_hasLeaf h (State.counted_hasLeaf hin),
        fun hlt => absurd h (Nat.not_le.mpr hlt), fun h0 => absurd (State.inLen_eq_zero_iff.mp h0) hin, fun _ _ => rfl⟩
  · refine ⟨_, exec_buildCodec_of_not_lengthOk h, fun _ => rfl, fun h0 => absurd ?_ h, fun hlen => absurd hlen h⟩
    rw [State.lengthOk, h0]
    exact Nat.zero_le _

/-- Settles O48: equal inputs give equal counts, equal counts equal trees, and equal trees equal tables. -/
theorem buildCodecDependsOnTheInputAlone : Obligations.BuildCodecDependsOnTheInputAlone := by
  intro s u hs hu heq
  have hfreq := State.counted_freq_congr heq
  by_cases hin : s.input = []
  · exact ⟨_, _, exec_buildCodec_of_input_nil hs hin, exec_buildCodec_of_input_nil hu (heq ▸ hin), rfl, hfreq, rfl, rfl,
      fun hfalse => absurd hfalse Bool.false_ne_true, rfl, rfl, rfl, rfl⟩
  · obtain ⟨htree, hnsym⟩ := State.treeBuilt_congr hfreq
    exact ⟨_, _, exec_buildCodec_of_counted_hasLeaf hs (State.counted_hasLeaf hin),
      exec_buildCodec_of_counted_hasLeaf hu (State.counted_hasLeaf (heq ▸ hin)), rfl, hfreq, hnsym, rfl,
      fun _ => htree, State.codesGenerated_congr htree hnsym⟩

end Sys2Proof.Machine
end

section
/-! PROOFS. What a step can do, read backwards from the state it leaves: the engine's completion (60_exceptions.md R319), its
idle turn (R335), a host transaction (20_memory.md R84, R85) or the reset input; and what each does to BUSY and IRQ. -/

namespace Sys2Proof.Machine

variable {s t u : State} {off : Nat} {v : Word}

/-! ### The engine keeps the host's side -/

theorem sameHostSide.refl (s : State) : sameHostSide s s := ⟨fun _ => rfl, rfl, rfl, rfl, rfl, rfl⟩

theorem sameHostSide.trans (h : sameHostSide s t) (h' : sameHostSide t u) : sameHostSide s u := by
  obtain ⟨hin, hlen, hirq, hcfg, hmoves, hread⟩ := h
  obtain ⟨hin', hlen', hirq', hcfg', hmoves', hread'⟩ := h'
  exact ⟨fun a => (hin' a).trans (hin a), hlen'.trans hlen, hirq'.trans hirq, hcfg'.trans hcfg, hmoves'.trans hmoves,
    hread'.trans hread⟩

theorem countBody_sameHostSide (s : State) : sameHostSide s (countBody s).state := by
  rcases countBody_cases s with ⟨-, hbody⟩ | ⟨-, hbody⟩ <;> rw [hbody] <;> exact sameHostSide.refl s

theorem buildTreeBody_sameHostSide (s : State) : sameHostSide s (buildTreeBody s).state := by
  rcases buildTreeBody_cases s with ⟨-, hbody⟩ | ⟨-, hbody⟩ <;> rw [hbody] <;> exact sameHostSide.refl s

theorem genCodesBody_sameHostSide (s : State) : sameHostSide s (genCodesBody s).state := by
  rcases genCodesBody_cases s with ⟨-, hbody⟩ | ⟨-, hbody⟩ <;> rw [hbody] <;> exact sameHostSide.refl s

/-- 45_build_codec.md R290: bodies in turn keep the host's side as each of them does. -/
theorem andThen_sameHostSide {r : Ended} {body : State → Ended} (hr : sameHostSide s r.state)
    (hbody : ∀ u, sameHostSide u (body u).state) : sameHostSide s (r.andThen body).state := by
  unfold Ended.andThen
  split
  · exact hr.trans (hbody r.state)
  · exact hr

theorem buildCodecBody_sameHostSide (s : State) : sameHostSide s (buildCodecBody s).state :=
  andThen_sameHostSide (andThen_sameHostSide (countBody_sameHostSide s) buildTreeBody_sameHostSide)
    genCodesBody_sameHostSide

/-- 43_encoder.md R240: ENCODE's errors and its stream are in OUT and the result registers. -/
theorem encodeBody_sameHostSide (s : State) : sameHostSide s (encodeBody s).state := by
  by_cases h : s.lengthOk
  · by_cases hx : ∀ x, x ∈ s.input → s.coded x
    · rw [encodeBody_of_coded h hx]
      split <;> exact sameHostSide.refl s
    · rw [encodeBody_of_unknown h (by simpa using hx)]
      exact sameHostSide.refl s
  · rw [encodeBody_of_not_lengthOk h]
    exact sameHostSide.refl s

theorem decodeStream_sameHostSide (s : State) (ys : List Byte) : sameHostSide s (decodeStream s ys).state := by
  unfold decodeStream
  split
  · exact sameHostSide.refl s
  · dsimp only
    split_ifs <;> exact sameHostSide.refl s

/-- 44_decoder.md R273: DECODE's errors and its symbols are in OUT and the result registers. -/
theorem decodeBody_sameHostSide (s : State) : sameHostSide s (decodeBody s).state := by
  unfold decodeBody
  split_ifs
  · exact sameHostSide.refl s
  · exact sameHostSide.refl s
  · exact decodeStream_sameHostSide s.afterInput s.input

theorem bodyOf_sameHostSide (i : Instr) (s : State) : sameHostSide s (bodyOf i s).state := by
  cases i with
  | count => exact countBody_sameHostSide s
  | buildTree => exact buildTreeBody_sameHostSide s
  | genCodes => exact genCodesBody_sameHostSide s
  | buildCodec => exact buildCodecBody_sameHostSide s
  | encode => exact encodeBody_sameHostSide s
  | decode => exact decodeBody_sameHostSide s

/-- R319: the engine's step, of a legal word or not, is the bookkeeping on a state that keeps the host's side. -/
theorem exists_engineStep_eq (s : State) : ∃ u e, engineStep s = .next (u.complete e) ∧ sameHostSide s u := by
  cases hd : decode s.curCmd with
  | ok i => exact ⟨_, _, by rw [engineStep, hd]; exact exec_eq i s, bodyOf_sameHostSide i s⟩
  | error r => exact ⟨s, _, engineStep_of_decode_error hd, sameHostSide.refl s⟩

/-- R335: the engine's turn while BUSY = 0. -/
theorem step_of_idle {ms : List Move} (hb : s.busy = false) (h : s.moves = [] ∧ ms = [] ∨ s.moves = .engine :: ms) :
    step s = .next { s with moves := ms } := by
  have hnot : ¬ s.busy = true := by simp [hb]
  rcases h with ⟨h, rfl⟩ | h
  · rw [step_of_moves_nil h, engineTurn, if_neg hnot, ← h]
  · rw [step_of_moves_cons h, takeMove, engineTurn, if_neg hnot]

/-! ### Every step -/

/-- The moves that lead from `s` to a next state, with what each makes of `s`. -/
inductive StepTo (s : State) : State → Prop where
  /-- The engine's turn while BUSY = 0 (R335). -/
  | idle {ms : List Move} (hm : s.moves = [] ∧ ms = [] ∨ s.moves = .engine :: ms) (hb : s.busy = false) :
      StepTo s { s with moves := ms }
  /-- The engine's turn while BUSY = 1 (R319). -/
  | completion {ms : List Move} {t : State} (hm : s.moves = [] ∧ ms = [] ∨ s.moves = .engine :: ms)
      (hb : s.busy = true) (ht : engineStep { s with moves := ms } = .next t) : StepTo s t
  /-- The reset input (70_reset_and_hazards.md R350). -/
  | reset {ms : List Move} (hm : s.moves = .reset :: ms) : StepTo s (State.resetInput { s with moves := ms })
  /-- A host read in the window (20_memory.md R84). -/
  | read {ms : List Move} {off : Nat} (hm : s.moves = .read (s.cfg.base + off) :: ms) (hoff : off < 0x03000000) :
      StepTo s (hostRead { s with moves := ms } off)
  /-- A host write in the window (20_memory.md R85). -/
  | write {ms : List Move} {off : Nat} {v : Word} (hm : s.moves = .write (s.cfg.base + off) v :: ms)
      (hoff : off < 0x03000000) : StepTo s (busWrite { s with moves := ms } off v)

/-- 20_memory.md R81: a host address is outside the window, or it is BASE plus an offset. -/
theorem windowOffset_cases (c : Config) (addr : Nat) :
    windowOffset c addr = none ∨ ∃ off, off < 0x03000000 ∧ addr = c.base + off := by
  by_cases h : addr < c.base ∨ c.base + 0x03000000 ≤ addr
  · exact .inl ((windowOffset_eq_none c addr).mpr h)
  · exact .inr ⟨addr - c.base, by omega, by omega⟩

theorem stepTo_of_engineTurn {ms : List Move} (hm : s.moves = [] ∧ ms = [] ∨ s.moves = .engine :: ms)
    (h : step s = .next t) : StepTo s t := by
  cases hb : s.busy with
  | false =>
    rw [step_of_idle hb hm] at h
    cases h
    exact .idle hm hb
  | true => exact .completion hm hb ((step_of_engine hb hm).symm.trans h)

/-- A step that answers a next state is one of the five. -/
theorem stepTo_of_step (h : step s = .next t) : StepTo s t := by
  rcases step_eq s with ⟨hm, -⟩ | ⟨m, ms, hm, hs⟩
  · exact stepTo_of_engineTurn (.inl ⟨hm, rfl⟩) h
  · cases m with
    | engine => exact stepTo_of_engineTurn (.inr hm) h
    | reset =>
      cases hs.symm.trans h
      exact .reset hm
    | read addr =>
      rcases windowOffset_cases s.cfg addr with hnone | ⟨off, hoff, rfl⟩
      · simp [hs, takeMove, hnone] at h
      · cases (step_read hm hoff).symm.trans h
        exact .read hm hoff
    | write addr v =>
      rcases windowOffset_cases s.cfg addr with hnone | ⟨off, hoff, rfl⟩
      · simp [hs, takeMove, hnone] at h
      · cases (step_write hm hoff).symm.trans h
        exact .write hm hoff

/-! ### Bus writes and the flags -/

/-- R318: while BUSY = 0 a CMD write is the issue step. -/
theorem busWrite_of_cmd (hb : s.busy = false) (h : locate off = .reg .cmd) (v : Word) : busWrite s off v = s.issue v := by
  simp [busWrite, hb, h, idleWrite]

/-- R85: a host write sets IRQ_EN, clears DONE or issues a command, each at its register, or it writes at most IN_LEN, FREQ
and IN. -/
theorem busWrite_cases (s : State) (off : Nat) (v : Word) :
    (locate off = .reg .ctrl ∧ busWrite s off v = s.writeCtrl v) ∨
    (locate off = .reg .status ∧ busWrite s off v = s.writeStatus v) ∨
    (s.busy = false ∧ locate off = .reg .cmd ∧ busWrite s off v = s.issue v) ∨
    (∃ inLen freq inBuf, busWrite s off v = { s with inLen := inLen, freq := freq, inBuf := inBuf }) := by
  by_cases hctrl : locate off = .reg .ctrl
  · exact .inl ⟨hctrl, busWrite_of_ctrl hctrl v⟩
  by_cases hstatus : locate off = .reg .status
  · exact .inr (.inl ⟨hstatus, busWrite_of_status hstatus v⟩)
  by_cases hb : s.busy = true
  · exact .inr (.inr (.inr ⟨_, _, _, busWrite_of_busy hb hctrl hstatus v⟩))
  by_cases hcmd : locate off = .reg .cmd
  · have hidle : s.busy = false := Bool.eq_false_iff.mpr hb
    exact .inr (.inr (.inl ⟨hidle, hcmd, busWrite_of_cmd hidle hcmd v⟩))
  · refine .inr (.inr (.inr ?_))
    rw [busWrite, if_neg hb]
    unfold idleWrite
    split
    · next h => exact absurd h hctrl
    · next h => exact absurd h hcmd
    · next h => exact absurd h hstatus
    all_goals exact ⟨_, _, _, rfl⟩

/-- R325: IRQ is high exactly while DONE and IRQ_EN are. -/
theorem State.irq_iff : s.irq = true ↔ s.done = true ∧ s.irqEn = true := Bool.and_eq_true_iff

/-- R44: a STATUS write raises no IRQ. -/
theorem State.irq_of_writeStatus (h : (s.writeStatus v).irq = true) : s.irq = true := by
  rw [State.irq_iff, State.writeStatus_done, State.writeStatus_irqEn] at h
  obtain ⟨hdone, hen⟩ := h
  split at hdone
  · cases hdone
  · exact State.irq_iff.mpr ⟨hdone, hen⟩

/-- R335: a host write that starts work is a CMD write. -/
theorem busWrite_starts_work (hb : s.busy = false) (h : (busWrite s off v).busy = true) :
    locate off = .reg .cmd ∧ (busWrite s off v).curCmd = v := by
  rcases busWrite_cases s off v with ⟨-, hw⟩ | ⟨-, hw⟩ | ⟨-, hcmd, hw⟩ | ⟨_, _, _, hw⟩
  · simp [hw, hb] at h
  · simp [hw, hb] at h
  · exact ⟨hcmd, by rw [hw, State.issue_curCmd]⟩
  · simp [hw, hb] at h

/-- R325: a host write that raises IRQ is a CTRL write that sets IRQ_EN while DONE = 1. -/
theorem busWrite_raises_irq (hs : s.irq = false) (h : (busWrite s off v).irq = true) :
    locate off = .reg .ctrl ∧ s.done = true ∧ s.irqEn = false ∧ v.getLsbD 0 = true := by
  have hno : ¬ s.irq = true := by simp [hs]
  rcases busWrite_cases s off v with ⟨hctrl, hw⟩ | ⟨-, hw⟩ | ⟨-, -, hw⟩ | ⟨_, _, _, hw⟩ <;> rw [hw] at h
  · obtain ⟨hdone, hv⟩ := State.irq_iff.mp h
    exact ⟨hctrl, hdone, Bool.eq_false_iff.mpr fun hen => hno (State.irq_iff.mpr ⟨hdone, hen⟩), hv⟩
  · exact absurd (State.irq_of_writeStatus h) hno
  · cases h
  · exact absurd h hno

/-! ### IRQ over a step -/

/-- R326: every completion leaves IRQ = IRQ_EN. -/
theorem exists_step_of_completion {ms : List Move} (hb : s.busy = true)
    (hm : s.moves = [] ∧ ms = [] ∨ s.moves = .engine :: ms) :
    ∃ t, step s = .next t ∧ t.busy = false ∧ t.done = true ∧ t.moves = ms ∧ t.irq = s.irqEn := by
  obtain ⟨u, e, hu, -, -, hen, -, hmoves, -⟩ := exists_engineStep_eq { s with moves := ms }
  exact ⟨_, (step_of_engine hb hm).trans hu, rfl, rfl, hmoves, (Bool.true_and _).trans hen⟩

/-- R325: IRQ rises when a command completes or at a CTRL write, and at no other step. -/
theorem step_raises_irq (h : step s = .next t) (hs : s.irq = false) (ht : t.irq = true) :
    (s.busy = true ∧ t.busy = false ∧ s.irqEn = true ∧ t.done = true) ∨
    (s.done = true ∧ s.irqEn = false ∧
      ∃ ms v off, s.moves = .write (s.cfg.base + off) v :: ms ∧ off / 4 = 1 ∧ v.getLsbD 0 = true) := by
  have hno : ¬ s.irq = true := by simp [hs]
  cases stepTo_of_step h with
  | idle _ _ => exact absurd ht hno
  | completion hm hb _ =>
    obtain ⟨t', ht', hbusy, hdone, -, hirq⟩ := exists_step_of_completion hb hm
    cases h.symm.trans ht'
    exact .inl ⟨hb, hbusy, hirq.symm.trans ht, hdone⟩
  | reset _ => cases ht
  | read _ _ => exact absurd ht hno
  | @write ms off v hm _ =>
    obtain ⟨hctrl, hdone, hen, hv⟩ := busWrite_raises_irq (s := { s with moves := ms }) hs ht
    exact .inr ⟨hdone, hen, _, _, _, hm, eq_ctorIdx_of_regAt (regAt_of_locate hctrl), hv⟩

/-! ### The statements -/

/-- Settles O7: CMD is word 2, where an idle write is the issue step and a busy one is ignored. -/
theorem cmdWriteIssuesTheCommand : Obligations.CmdWriteIssuesTheCommand := by
  intro s ms v j hj hm
  have hcmd : locate (0x008 + j) = .reg .cmd := locate_reg (n := 2) (by omega) rfl
  rw [step_write hm (by omega)]
  constructor
  · intro hb
    exact ⟨_, congrArg _ (busWrite_of_cmd (s := { s with moves := ms }) hb hcmd v), rfl, rfl⟩
  · intro hb
    rw [busWrite_of_busy (s := { s with moves := ms }) hb (by simp [hcmd]) (by simp [hcmd])]

/-- Settles O23: of the moves a step can take, only a host write makes an idle CORE busy, and only at CMD. -/
theorem idleCoreWaitsForACmdWrite : Obligations.IdleCoreWaitsForACmdWrite := by
  refine ⟨fun s hb => ⟨fun hm => ?_, fun ms hm => step_of_idle hb (.inr hm)⟩, fun s t h hs ht => ?_⟩
  · rw [step_of_idle hb (.inl ⟨hm, rfl⟩), ← hm]
  · cases stepTo_of_step h with
    | idle _ hb => simp [hs] at ht
    | completion _ hb _ => simp [hs] at hb
    | reset _ => simp at ht
    | read _ _ => simp [hs] at ht
    | @write ms off v hm _ =>
      obtain ⟨hcmd, hv⟩ := busWrite_starts_work (s := { s with moves := ms }) hs ht
      exact ⟨_, _, _, hm, eq_ctorIdx_of_regAt (regAt_of_locate hcmd), hv⟩

/-- Settles O24: the completion step, the three register writes, and IRQ's rises over all the moves of a step. -/
theorem irqFollowsDoneAndIrqEn : Obligations.IrqFollowsDoneAndIrqEn := by
  refine ⟨fun s => State.irq_iff, fun s ms hb hm => ?_, fun s ms v hm => ?_, fun s t => step_raises_irq,
    fun s ms v hm hv => ?_, fun s ms v hm hb => ?_⟩
  · obtain ⟨t, ht, -, -, hmoves, hirq⟩ := exists_step_of_completion hb hm
    exact ⟨t, ht, hmoves, hirq⟩
  · refine ⟨_, step_write hm (by decide), ?_⟩
    rw [busWrite_of_ctrl (locate_reg (n := 1) rfl rfl)]
    rfl
  · refine ⟨_, step_write hm (by decide), ?_⟩
    rw [busWrite_of_status (locate_reg (n := 3) rfl rfl), State.irq, State.writeStatus_done, if_pos hv, Bool.false_and]
  · refine ⟨_, step_write hm (by decide), ?_⟩
    rw [busWrite_of_cmd (s := { s with moves := ms }) hb (locate_reg (n := 2) rfl rfl)]
    rfl

end Sys2Proof.Machine
end

section
/-! PROOFS. LENGTH_RANGE (60_exceptions.md R311): the four commands that read IN check the length first, and the two that
do not never raise it. -/

namespace Sys2Proof.Machine

variable {s : State}

/-- 41_tree_builder.md R176: EMPTY_INPUT is BUILD_TREE's one error. -/
theorem exec_buildTree_errCode (s : State) :
    ∃ t, exec .buildTree s = .next t ∧ (t.errCode = 0#8 ∨ t.errCode = 1#8) := by
  by_cases h : s.hasLeaf
  · exact ⟨_, exec_buildTree_of_hasLeaf h, .inl rfl⟩
  · exact ⟨_, exec_buildTree_of_not_hasLeaf h, .inr rfl⟩

/-- 42_code_table.md R206: NO_TREE is GEN_CODES's one error. -/
theorem exec_genCodes_errCode (s : State) : ∃ t, exec .genCodes s = .next t ∧ (t.errCode = 0#8 ∨ t.errCode = 7#8) := by
  cases h : s.treeValid with
  | true => exact ⟨_, exec_genCodes_of_treeValid h, .inl rfl⟩
  | false => exact ⟨_, exec_genCodes_of_not_treeValid h, .inr rfl⟩

/-- 43_encoder.md R237: ENCODE's LENGTH_RANGE has the effects of its other errors. -/
theorem exec_encode_of_not_lengthOk (h : ¬ s.lengthOk) : ∃ t, exec .encode s = .next t ∧ codecFailed 6#8 s t :=
  ⟨_, exec_encode_of_body (encodeBody_of_not_lengthOk h), codecFailed_codecError .lengthRange s⟩

/-- 44_decoder.md R267: so has DECODE's. -/
theorem exec_decode_of_not_lengthOk (h : ¬ s.lengthOk) : ∃ t, exec .decode s = .next t ∧ codecFailed 6#8 s t :=
  exec_decode_of_codecError (e := .lengthRange) (.inl (decodeBody_of_not_lengthOk h))

/-- Settles O29: each of the four bodies ends at the length check, and the other two have one error each, of another
code. -/
theorem lengthRangeIsCheckedFirst : Obligations.LengthRangeIsCheckedFirst := by
  constructor
  · intro s hlt
    have h : ¬ s.lengthOk := Nat.not_le.mpr hlt
    exact ⟨⟨_, exec_count_of_not_lengthOk h, rfl⟩, ⟨_, exec_buildCodec_of_not_lengthOk h, rfl⟩,
      exec_encode_of_not_lengthOk h, exec_decode_of_not_lengthOk h⟩
  · intro s
    obtain ⟨t, ht, htcode⟩ := exec_buildTree_errCode s
    obtain ⟨u, hu, hucode⟩ := exec_genCodes_errCode s
    refine ⟨t, u, ht, hu, ?_, ?_⟩
    · rcases htcode with h | h <;> rw [h] <;> decide
    · rcases hucode with h | h <;> rw [h] <;> decide

end Sys2Proof.Machine
end

section
/-! PROOFS. Reset (70_reset_and_hazards.md R350, R351): the values it leaves, and the idle engine after it; and what keeps TREE
and the codebook (R364). -/

namespace Sys2Proof.Machine

variable {s t : State}

/-! ### The reset values -/

theorem resetValues_resetOf (c : Config) : resetValues (State.resetOf c) :=
  ⟨rfl, rfl, rfl, rfl, rfl, rfl, rfl, rfl, rfl, rfl, rfl, rfl, Table.get_zero, Table.get_zero, Table.get_zero,
    Memory.read?_nil, Memory.read?_nil⟩

/-- R350: the fields that the reset input takes from the state before it are not among the reset values. -/
theorem resetValues_resetInput (s : State) : resetValues s.resetInput := resetValues_resetOf s.cfg

theorem resetValues.busy_eq_false (h : resetValues t) : t.busy = false := by
  obtain ⟨hbusy, -⟩ := h
  exact hbusy

/-- The reset input is the whole of its step. -/
theorem step_of_reset {ms : List Move} (hm : s.moves = .reset :: ms) :
    step s = .next (State.resetInput { s with moves := ms }) := step_of_moves_cons hm

/-! ### TREE and the codebook -/

/-- R364: of its four cases, a host write clears DONE, sets IRQ_EN, issues a command or writes at most IN_LEN, FREQ and IN. -/
theorem busWrite_sameTree_sameCodes (s : State) (off : Nat) (v : Word) :
    sameTree s (busWrite s off v) ∧ sameCodes s (busWrite s off v) := by
  rcases busWrite_cases s off v with ⟨-, hw⟩ | ⟨-, hw⟩ | ⟨-, -, hw⟩ | ⟨_, _, _, hw⟩ <;> rw [hw]
  · exact ⟨⟨rfl, rfl, rfl⟩, rfl, rfl, rfl, rfl⟩
  · rw [State.writeStatus_eq]
    exact ⟨⟨rfl, rfl, rfl⟩, rfl, rfl, rfl, rfl⟩
  · exact ⟨⟨rfl, rfl, rfl⟩, rfl, rfl, rfl, rfl⟩
  · exact ⟨⟨rfl, rfl, rfl⟩, rfl, rfl, rfl, rfl⟩

/-- 20_memory.md R99: a host read moves the draw counter and the host's word. -/
theorem hostRead_sameTree_sameCodes (s : State) (off : Nat) :
    sameTree s (hostRead s off) ∧ sameCodes s (hostRead s off) := ⟨⟨rfl, rfl, rfl⟩, rfl, rfl, rfl, rfl⟩

/-- 10_state.md R62: COUNT writes FREQ or nothing, and then the completion bookkeeping. -/
theorem exec_count_sameTree_sameCodes (s : State) : ∃ t, exec .count s = .next t ∧ sameTree s t ∧ sameCodes s t := by
  by_cases h : s.lengthOk
  · exact ⟨_, exec_count_of_lengthOk h, ⟨rfl, rfl, rfl⟩, rfl, rfl, rfl, rfl⟩
  · exact ⟨_, exec_count_of_not_lengthOk h, ⟨rfl, rfl, rfl⟩, rfl, rfl, rfl, rfl⟩

/-! ### The statements -/

/-- Settles O20: a transaction that answers is in the window, where it is one bus read or one bus write. -/
theorem transactionsAndCountKeepTreeAndCodebook : Obligations.TransactionsAndCountKeepTreeAndCodebook := by
  refine ⟨fun s t ms addr v hm h => ?_, exec_count_sameTree_sameCodes⟩
  rcases hm with hm | hm <;> rcases windowOffset_cases s.cfg addr with hout | ⟨off, hoff, rfl⟩
  · simp [step_of_moves_cons hm, takeMove, hout] at h
  · cases (step_read hm hoff).symm.trans h
    exact hostRead_sameTree_sameCodes { s with moves := ms } off
  · simp [step_of_moves_cons hm, takeMove, hout] at h
  · cases (step_write hm hoff).symm.trans h
    exact busWrite_sameTree_sameCodes { s with moves := ms } off v

/-- Settles O4: the reset input leaves what reset does, and keeps the parameters. -/
theorem resetLeavesTheSpecifiedValues : Obligations.ResetLeavesTheSpecifiedValues :=
  ⟨resetValues_resetOf, resetValues_resetOf Config.vectors, fun _ _ hm =>
    ⟨_, step_of_reset hm, resetValues_resetInput _, rfl, rfl⟩⟩

/-- Settles O5: BUSY = 0 after the reset input, so the engine's next turn is an idle one (60_exceptions.md R335). -/
theorem resetInputAbandonsTheCommand : Obligations.ResetInputAbandonsTheCommand := by
  intro s ms _ hm
  have ht : resetValues (State.resetInput { s with moves := ms }) := resetValues_resetInput _
  refine ⟨_, step_of_reset hm, ht, rfl, ?_, ?_⟩
  · rintro rfl
    exact step_of_idle ht.busy_eq_false (.inl ⟨rfl, rfl⟩)
  · rintro ns rfl
    exact ⟨_, step_of_idle ht.busy_eq_false (.inr rfl), ht, rfl⟩

end Sys2Proof.Machine
end

section
/-! PROOFS. The invariant (Sys2Proof/Safety.lean): it holds at reset (70_reset_and_hazards.md R350), and each update that a
step is made of keeps it. -/

namespace Sys2Proof.Machine

variable {s t : State} {off : Nat} {v : Word}

/-! ### Reset -/

/-- MAX_LEN of the empty codebook. -/
theorem maxLenOf_zero : maxLenOf (Table.zero 8) = 0 := by
  obtain ⟨x, hx⟩ := exists_eq_maxLenOf (Table.zero 8)
  rw [← hx, Table.get_zero]
  rfl

/-- R58, case (a): without a codebook the tables and MAX_LEN are 0. -/
theorem State.codesInv_of_zero (hv : s.codesValid = false) (hlen : s.codeLen = Table.zero 8)
    (hbits : s.codeBits = Table.zero 256) (hmax : s.maxLen = 0#32) : s.codesInv := by
  simp only [State.codesInv, hv, Bool.false_eq_true, if_false]
  refine ⟨hlen, hbits, hmax.trans ?_⟩
  rw [show lenTable [] = Table.zero 8 from rfl, maxLenOf_zero]

theorem State.resetOf_inv {c : Config} (h : c.wf = true) : (State.resetOf c).Inv where
  params := h
  buffers := ⟨List.Pairwise.nil, by simp [State.resetOf, Memory.below], List.Pairwise.nil,
    by simp [State.resetOf, Memory.below]⟩
  lifecycle := ⟨fun hb => absurd hb Bool.false_ne_true, Nat.zero_le 7⟩
  results := ⟨Nat.zero_le _, fun a ha => absurd ha (Nat.not_lt_zero a), rfl⟩
  tree := ⟨fun hv => absurd hv Bool.false_ne_true, fun _ => ⟨rfl, rfl⟩⟩
  codes := State.codesInv_of_zero rfl rfl rfl rfl

/-- Settles O6: the empty buffers and the zero tables are those of a CORE without a tree. -/
theorem resetMeetsTheInvariant : Obligations.ResetMeetsTheInvariant :=
  ⟨fun _ => State.resetOf_inv, State.resetOf_inv (by decide)⟩

/-! ### What a completion step adds -/

/-- The parts of the invariant that say nothing of BUSY, DONE and ERR_CODE. -/
structure State.DataInv (s : State) : Prop where
  params  : s.cfg.wf = true
  buffers : s.buffersInv
  results : s.resultsInv
  tree    : s.treeInv
  codes   : s.codesInv

theorem State.Inv.data (h : s.Inv) : s.DataInv := ⟨h.params, h.buffers, h.results, h.tree, h.codes⟩

/-- 60_exceptions.md R319: after a completion BUSY = 0 and ERR_CODE is a result code. -/
theorem State.DataInv.complete (h : s.DataInv) (e : Option Err) : (s.complete e).Inv where
  params := h.params
  buffers := h.buffers
  lifecycle := ⟨fun hb => absurd hb Bool.false_ne_true, resultCode_le e⟩
  results := h.results
  tree := h.tree
  codes := h.codes

/-- FREQ and the draw counter are not in the invariant. -/
theorem State.DataInv.counted (h : s.DataInv) : s.counted.DataInv :=
  ⟨h.params, h.buffers, h.results, h.tree, h.codes⟩

theorem State.DataInv.afterInput (h : s.DataInv) : s.afterInput.DataInv :=
  ⟨h.params, h.buffers, h.results, h.tree, h.codes⟩

/-! ### BUILD_TREE and GEN_CODES -/

/-- 41_tree_builder.md R171: invalidating leaves no tree and no codebook. -/
theorem State.DataInv.invalidate (h : s.DataInv) : s.invalidate.DataInv where
  params := h.params
  buffers := h.buffers
  results := h.results
  tree := ⟨fun hv => absurd hv Bool.false_ne_true, fun _ => ⟨rfl, rfl⟩⟩
  codes := State.codesInv_of_zero rfl rfl rfl rfl

/-- 41_tree_builder.md R170, R175: a built tree is valid, beside no codebook. -/
theorem State.DataInv.treeBuilt (h : s.DataInv) (hleaf : s.hasLeaf) : s.treeBuilt.DataInv where
  params := h.params
  buffers := h.buffers
  results := h.results
  tree := by
    obtain ⟨e, he⟩ := merging_buildNodes (State.hasLeaf_iff.mp hleaf)
    refine ⟨fun _ => ?_, fun hv => absurd hv.symm Bool.false_ne_true⟩
    exact toNat_ofNat_present_length s.freq ▸ he.treeOk
  codes := State.codesInv_of_zero rfl rfl rfl rfl

/-- 42_code_table.md R200: the tables generated are TREE's. -/
theorem State.DataInv.codesGenerated (h : s.DataInv) (hv : s.treeValid = true) : s.codesGenerated.DataInv where
  params := h.params
  buffers := h.buffers
  results := h.results
  tree := by
    obtain ⟨hok, -⟩ := h.tree
    exact ⟨hok, fun hno => absurd hv (Bool.eq_false_iff.mp hno)⟩
  codes := ⟨rfl, rfl, rfl⟩

theorem State.DataInv.countBody (h : s.DataInv) : (countBody s).state.DataInv := by
  by_cases hlen : s.lengthOk
  · rw [countBody_of_lengthOk hlen]
    exact h.counted
  · rw [countBody_of_not_lengthOk hlen]
    exact h

theorem State.DataInv.buildTreeBody (h : s.DataInv) : (buildTreeBody s).state.DataInv := by
  by_cases hleaf : s.hasLeaf
  · rw [buildTreeBody_of_hasLeaf hleaf]
    exact h.treeBuilt hleaf
  · rw [buildTreeBody_of_not_hasLeaf hleaf]
    exact h.invalidate

theorem State.DataInv.genCodesBody (h : s.DataInv) : (genCodesBody s).state.DataInv := by
  rcases genCodesBody_cases s with ⟨-, hbody⟩ | ⟨hv, hbody⟩ <;> rw [hbody]
  · exact h
  · exact h.codesGenerated hv

/-- 45_build_codec.md R290: bodies in turn keep what each of them keeps. -/
theorem State.DataInv.andThen {r : Ended} {body : State → Ended} (hr : r.state.DataInv)
    (hbody : ∀ u : State, u.DataInv → (body u).state.DataInv) : (r.andThen body).state.DataInv := by
  unfold Ended.andThen
  split
  · exact hbody r.state hr
  · exact hr

theorem State.DataInv.buildCodecBody (h : s.DataInv) : (buildCodecBody s).state.DataInv :=
  (h.countBody.andThen fun _ hu => hu.buildTreeBody).andThen fun _ hu => hu.genCodesBody

/-! ### ENCODE and DECODE -/

/-- Results that fit: at most OUT_CAP bytes written from OUT[0], and a payload that its padding fills to whole bytes. -/
theorem State.DataInv.withOutput (h : s.DataInv) {bs : List Byte} {m n : Nat} (hcap : bs.length ≤ s.cfg.outCap)
    (hm : m < 2 ^ 32) (hn : n < 8) (hwhole : (m + n) % 8 = 0) :
    ((s.writeOut bs).withResults bs.length m (BitVec.ofNat 3 n)).DataInv where
  params := h.params
  buffers := by
    obtain ⟨hinWf, hinBelow, houtWf, houtBelow⟩ := h.buffers
    exact ⟨hinWf, hinBelow, Memory.wf_writeList houtWf 0 bs, Memory.below_writeList houtBelow 0 bs (by simpa using hcap)⟩
  results := by
    have hle : (BitVec.ofNat 32 bs.length).toNat ≤ bs.length := Nat.mod_le _ _
    refine ⟨hle.trans hcap, fun a ha => ?_, ?_⟩
    · have ha : a < bs.length := ha.trans_le hle
      simp [State.writeOut, Memory.read?_writeList, ha]
    · change (m % 2 ^ 32 + n % 2 ^ 3) % 8 = 0
      rwa [Nat.mod_eq_of_lt hm, Nat.mod_eq_of_lt hn]
  tree := h.tree
  codes := h.codes

/-- 60_exceptions.md R321: an error's results are 0, and OUT stays within its capacity. -/
theorem State.DataInv.codecError (h : s.DataInv) (e : Err) : (codecError e s).state.DataInv where
  params := h.params
  buffers := by
    obtain ⟨hinWf, hinBelow, -⟩ := h.buffers
    exact ⟨hinWf, hinBelow, Memory.wf_havoc _ _, Memory.below_havoc _ _⟩
  results := ⟨Nat.zero_le _, fun a ha => absurd ha (Nat.not_lt_zero a), rfl⟩
  tree := h.tree
  codes := h.codes

/-- 43_encoder.md R233, R235: a stream within a legal OUT_CAP fits the result registers. -/
theorem State.DataInv.withStream (h : s.DataInv) {c : Bits} (hcap : 1 + payloadBytes c.length ≤ s.cfg.outCap) :
    (s.withStream c).DataInv := by
  have hsum := add_padLen c.length
  have hle := outCap_le_of_wf h.params
  have := h.withOutput (bs := packedStream c) (m := c.length) (by rwa [length_packedStream]) (by omega)
    (padLen_lt c.length) (by omega)
  rwa [length_packedStream] at this

theorem State.DataInv.encodeBody (h : s.DataInv) : (encodeBody s).state.DataInv := by
  by_cases hlen : s.lengthOk
  · by_cases hx : ∀ x, x ∈ s.input → s.coded x
    · rw [encodeBody_of_coded hlen hx]
      split
      · exact h.afterInput.codecError _
      · next hcap => exact h.afterInput.withStream (Nat.not_lt.mp hcap)
    · rw [encodeBody_of_unknown hlen (by simpa using hx)]
      exact h.afterInput.codecError _
  · rw [encodeBody_of_not_lengthOk hlen]
    exact h.codecError _

/-- 44_decoder.md R262, read backwards: a stream that unpacks is a header, which counts the padding, and a body. -/
theorem eq_cons_of_unpackStream {ys : List Byte} {n : Nat} {payload : Bits} (h : unpackStream ys = some (n, payload)) :
    ∃ (p : Byte) (body : List Byte), ys = p :: body ∧ n = p.toNat ∧ p.toNat ≤ 8 * body.length ∧
      payload = (bytesToBits body).take (8 * body.length - p.toNat) := by
  cases ys with
  | nil => cases h
  | cons p body =>
    by_cases hbad : 7 < p.toNat ∨ 8 * body.length < p.toNat
    · rw [unpackStream_of_bad_header hbad] at h
      cases h
    · obtain ⟨h7, hlen⟩ : p.toNat ≤ 7 ∧ p.toNat ≤ 8 * body.length := by omega
      rw [unpackStream_of_header h7 hlen] at h
      cases h
      exact ⟨p, body, rfl, rfl, hlen, rfl⟩

/-- 44_decoder.md R262: the payload and the padding that a stream unpacks to make up whole bytes. -/
theorem unpackStream_whole_bytes {ys : List Byte} {n : Nat} {payload : Bits}
    (h : unpackStream ys = some (n, payload)) : (payload.length + n) % 8 = 0 := by
  obtain ⟨p, body, -, rfl, hlen, rfl⟩ := eq_cons_of_unpackStream h
  rw [List.length_take, length_bytesToBits]
  omega

theorem State.DataInv.decodeBody (h : s.DataInv) : (decodeBody s).state.DataInv := by
  by_cases hlen : s.lengthOk
  · by_cases hin : s.input = []
    · rw [decodeBody_of_input_nil hlen hin]
      exact h.codecError _
    · cases hu : unpackStream s.input with
      | none =>
        rw [decodeBody_of_input_ne_nil hlen hin, decodeStream, hu]
        exact h.afterInput.codecError _
      | some r =>
        obtain ⟨n, payload⟩ := r
        rw [decodeBody_of_unpackStream hlen hu rfl]
        split_ifs with hcand hcap
        · exact h.afterInput.codecError _
        · exact h.afterInput.codecError _
        · obtain ⟨hn, hle⟩ := unpackStream_measure hu
          obtain ⟨⟨-, hinCap⟩, -⟩ := capacities_of_wf h.params
          rw [State.input_length] at hle
          rw [State.lengthOk] at hlen
          exact h.afterInput.withOutput (Nat.not_lt.mp hcap) (by omega) (by omega) (unpackStream_whole_bytes hu)
  · rw [decodeBody_of_not_lengthOk hlen]
    exact h.codecError _

/-! ### A step -/

theorem State.DataInv.bodyOf (h : s.DataInv) (i : Instr) : (bodyOf i s).state.DataInv := by
  cases i with
  | count => exact h.countBody
  | buildTree => exact h.buildTreeBody
  | genCodes => exact h.genCodesBody
  | buildCodec => exact h.buildCodecBody
  | encode => exact h.encodeBody
  | decode => exact h.decodeBody

/-- R319: a completion step, of a legal word or not, keeps the invariant. -/
theorem State.DataInv.engineStep (h : s.DataInv) (ht : engineStep s = .next t) : t.Inv := by
  cases hd : decode s.curCmd with
  | ok i =>
    rw [Machine.engineStep, hd] at ht
    cases (exec_eq i s).symm.trans ht
    exact (h.bodyOf i).complete _
  | error r =>
    cases (engineStep_of_decode_error hd).symm.trans ht
    exact h.complete _

/-- 20_memory.md R86: a host write leaves IN or sets lanes of one of its words. -/
theorem busWrite_inBuf (s : State) (off : Nat) (v : Word) :
    (busWrite s off v).inBuf = s.inBuf ∨ ∃ k, (busWrite s off v).inBuf = s.inBuf.writeWord s.cfg.inCap k v := by
  unfold busWrite
  split
  · unfold busyWrite
    split
    · exact .inl rfl
    · exact .inl (State.writeStatus_inBuf s v)
    · exact .inl rfl
  · unfold idleWrite
    split
    · exact .inl rfl
    · exact .inl rfl
    · exact .inl (State.writeStatus_inBuf s v)
    · exact .inl rfl
    · exact .inl rfl
    · next k _ => exact .inr ⟨k, rfl⟩
    · exact .inl rfl

/-- 20_memory.md R63, R86: a host write keeps IN in canonical form and within IN_CAP. -/
theorem busWrite_inBuf_wf_below (h : s.buffersInv) (off : Nat) (v : Word) :
    (busWrite s off v).inBuf.wf ∧ (busWrite s off v).inBuf.below s.cfg.inCap := by
  obtain ⟨hwf, hbelow, -⟩ := h
  rcases busWrite_inBuf s off v with hw | ⟨k, hw⟩ <;> rw [hw]
  · exact ⟨hwf, hbelow⟩
  · exact ⟨Memory.wf_writeWord hwf _ k v, Memory.below_writeWord hbelow k v⟩

/-- 60_exceptions.md R318: a host write keeps the invariant. Only issuing a command sets BUSY, and it clears DONE and
ERR_CODE. -/
theorem State.Inv.busWrite (h : s.Inv) (off : Nat) (v : Word) : (busWrite s off v).Inv := by
  obtain ⟨-, -, hout⟩ := h.buffers
  obtain ⟨hwf, hbelow⟩ := busWrite_inBuf_wf_below h.buffers off v
  rcases busWrite_cases s off v with ⟨-, hw⟩ | ⟨-, hw⟩ | ⟨-, -, hw⟩ | ⟨_, _, _, hw⟩ <;> rw [hw] at hwf hbelow ⊢
  · exact ⟨h.params, h.buffers, h.lifecycle, h.results, h.tree, h.codes⟩
  · rw [State.writeStatus_eq]
    obtain ⟨hbusy, hcode⟩ := h.lifecycle
    refine ⟨h.params, h.buffers, ⟨fun hb => ?_, hcode⟩, h.results, h.tree, h.codes⟩
    obtain ⟨hdone, herr⟩ := hbusy hb
    exact ⟨by simp [hdone], herr⟩
  · exact ⟨h.params, h.buffers, ⟨fun _ => ⟨rfl, rfl⟩, Nat.zero_le 7⟩, h.results, h.tree, h.codes⟩
  · exact ⟨h.params, ⟨hwf, hbelow, hout⟩, h.lifecycle, h.results, h.tree, h.codes⟩

/-- The moves to come, the host's word and the draw counter are not in the invariant. -/
theorem State.Inv.hostSide (h : s.Inv) (ms : List Move) (r : Option Word) (n : Nat) :
    State.Inv { s with moves := ms, lastRead := r, free := n } :=
  ⟨h.params, h.buffers, h.lifecycle, h.results, h.tree, h.codes⟩

/-- Settles O26: each of the five ways a step can go keeps the invariant. -/
theorem stepKeepsTheInvariant : Obligations.StepKeepsTheInvariant := by
  intro s t h hstep
  have taken (ms : List Move) : State.Inv { s with moves := ms } := h.hostSide ms s.lastRead s.free
  cases stepTo_of_step hstep with
  | @idle ms _ _ => exact taken ms
  | @completion ms _ _ _ ht => exact (taken ms).data.engineStep ht
  | reset _ =>
    have := State.resetOf_inv h.params
    exact this.hostSide _ _ _
  | @read ms off _ _ => exact h.hostSide ms _ _
  | @write ms off v _ _ => exact (taken ms).busWrite off v

end Sys2Proof.Machine
end

section
/-! PROOFS. The binary tree that TREE's records span and the lengths of its codes: sums over the symbols as sums over the
codes, and Kraft's equality (42_code_table.md R208). -/

namespace Sys2Proof.Machine

variable {n : Nat} {t u : List Node} {k : Nat} {b : BinTree} {cs : List (Sym × Bits)}

/-! ### Sums over the symbols -/

/-- A sum over all symbols is one over any list that misses none of its terms. -/
theorem sumOver_eq_sum_map {l : List Sym} (hd : l.Nodup) {f : Sym → Nat} (h0 : ∀ x, x ∉ l → f x = 0) :
    sumOver f = (l.map f).sum := by
  rw [sumOver, ← List.sum_toFinset f symbols_nodup, ← List.sum_toFinset f hd]
  refine (Finset.sum_subset (fun x _ => by simp) fun x _ hx => h0 x ?_).symm
  simpa using hx

/-- A sum over the coded symbols of a term in the code length. -/
theorem PrefixCode.sumOver_eq (h : PrefixCode cs) {f : Sym → Nat} {g : Sym × Bits → Nat}
    (h0 : ∀ x, (lenTable cs).get x = 0#8 → f x = 0)
    (hg : ∀ e ∈ cs, ((lenTable cs).get e.1).toNat = e.2.length → f e.1 = g e) :
    sumOver f = (cs.map g).sum := by
  rw [sumOver_eq_sum_map h.nodup fun x hx => h0 x (lenTable_get_of_not_mem cs x hx), List.map_map]
  congr 1
  exact List.map_congr_left fun e he => hg e he (h.lenTable_get he)

/-- R208: Σ FREQ · CODE_LEN over the codes. -/
theorem PrefixCode.weightedLength_eq (h : PrefixCode cs) (freq : Table 32) :
    weightedLength freq (lenTable cs) = (cs.map fun e => (freq.get e.1).toNat * e.2.length).sum := by
  refine h.sumOver_eq (fun x hx => by rw [hx]; rfl) fun e _ hlen => ?_
  rw [hlen]

/-! ### The tree below a record -/

/-- Record k and the records below it are the binary tree `b`. -/
inductive Spans (t : List Node) : Nat → BinTree → Prop where
  | leaf {k : Nat} {x : Sym} {w : Weight} : t[k]? = some (.leaf x w) → Spans t k (.leaf x)
  | node {k l r : Nat} {w : Weight} {b c : BinTree} : t[k]? = some (.internal w l r) → Spans t l b → Spans t r c →
      Spans t k (.node b c)

/-- Later records change nothing below record k. -/
theorem Spans.append (h : Spans t k b) : Spans (t ++ u) k b := by
  have old {j : Nat} {x : Node} (hj : t[j]? = some x) : (t ++ u)[j]? = some x := by
    obtain ⟨hlt, -⟩ := List.getElem?_eq_some_iff.mp hj
    rw [List.getElem?_append_left hlt, hj]
  induction h with
  | leaf hk => exact .leaf (old hk)
  | node hk _ _ ihb ihc => exact .node (old hk) ihb ihc

/-- R60: every record of a tree spans a binary tree, since its children come before it. -/
theorem TreeOk.exists_spans (h : TreeOk n t) (hk : k < 2 * n - 1) : ∃ b, Spans t k b := by
  induction k using Nat.strong_induction_on with
  | _ k ih =>
    by_cases hn : k < n
    · obtain ⟨x, w, hx⟩ := h.leaf k hn
      exact ⟨_, .leaf hx⟩
    · obtain ⟨w, l, r, hi, hl, hr, -⟩ := h.internal k (Nat.not_lt.mp hn) hk
      obtain ⟨b, hb⟩ := ih l hl (hl.trans hk)
      obtain ⟨c, hc⟩ := ih r hr (hr.trans hk)
      exact ⟨_, .node hi hb hc⟩

/-! ### The codes of a binary tree -/

/-- The leaves of a binary tree with their paths, below a path to its root (42_code_table.md R201). -/
def BinTree.codes : BinTree → Bits → List (Sym × Bits)
  | .leaf x, path => [(x, path)]
  | .node l r, path => l.codes (path ++ [false]) ++ r.codes (path ++ [true])

/-- R201: the walk from record k lists the codes of the tree that k spans. -/
theorem Spans.walk_eq (h : TreeOk n t) (hb : Spans t k b) {d : Nat} (hd : k < d) (path : Bits) :
    walk t d k path = b.codes path := by
  induction hb generalizing d path with
  | leaf hk =>
    obtain ⟨d, rfl⟩ := Nat.exists_eq_add_of_lt hd
    rw [walk, hk]
    rfl
  | node hk _ _ ihb ihc =>
    obtain ⟨-, -, hl, hr, -⟩ := h.of_internal hk
    cases d with
    | zero => omega
    | succ d =>
      rw [walk, hk, BinTree.codes, ← ihb (d := d) (by omega), ← ihc (d := d) (by omega)]

/-- R201: with two leaves or more the codes are those of the tree that the root spans. -/
theorem Spans.treeCodes_eq (h : TreeOk n t) (hn : 2 ≤ n) (hb : Spans t (2 * n - 2) b) : treeCodes t n = b.codes [] := by
  rw [treeCodes_of_two_le h hn, hb.walk_eq h (by rw [h.length]; omega)]

theorem BinTree.map_fst_codes (b : BinTree) (path : Bits) : (b.codes path).map Prod.fst = b.syms := by
  induction b generalizing path with
  | leaf x => rfl
  | node l r ihl ihr => rw [codes, List.map_append, ihl, ihr, syms]

/-- The path to the root is no longer than the path to a leaf. -/
theorem BinTree.exists_mem_codes (b : BinTree) (path : Bits) : ∃ e ∈ b.codes path, path.length ≤ e.2.length := by
  induction b generalizing path with
  | leaf x => exact ⟨(x, path), List.mem_singleton_self _, le_rfl⟩
  | node l r ihl _ =>
    obtain ⟨e, he, hle⟩ := ihl (path ++ [false])
    rw [List.length_append] at hle
    exact ⟨e, List.mem_append_left _ he, le_of_add_le_left hle⟩

/-- R208: Kraft's equality, times 2^M: each node hands half of its share to each child. -/
theorem BinTree.kraft_codes (b : BinTree) {path : Bits} {M : Nat} (h : ∀ e ∈ b.codes path, e.2.length ≤ M) :
    ((b.codes path).map fun e => 2 ^ (M - e.2.length)).sum = 2 ^ (M - path.length) := by
  induction b generalizing path with
  | leaf x => simp [codes]
  | node l r ihl ihr =>
    have hl : ∀ e ∈ l.codes (path ++ [false]), e.2.length ≤ M := fun e he => h e (List.mem_append_left _ he)
    have hr : ∀ e ∈ r.codes (path ++ [true]), e.2.length ≤ M := fun e he => h e (List.mem_append_right _ he)
    obtain ⟨e, he, hle⟩ := l.exists_mem_codes (path ++ [false])
    have hM := hle.trans (hl e he)
    rw [List.length_append, List.length_singleton] at hM
    have hsucc : M - path.length = M - (path.length + 1) + 1 := by omega
    rw [codes, List.map_append, List.sum_append, ihl hl, ihr hr, List.length_append, List.length_append,
      List.length_singleton, List.length_singleton, hsucc, Nat.pow_succ, Nat.mul_two]

/-- R208: the weighted path length is Σ FREQ · length over the codes. -/
theorem BinTree.cost_eq_sum_codes (freq : Table 32) (b : BinTree) (path : Bits) :
    b.cost freq path.length = ((b.codes path).map fun e => (freq.get e.1).toNat * e.2.length).sum := by
  induction b generalizing path with
  | leaf x => simp [codes, cost]
  | node l r ihl ihr =>
    rw [codes, List.map_append, List.sum_append, ← ihl, ← ihr, cost, List.length_append, List.length_append,
      List.length_singleton, List.length_singleton]

/-- R208 (1), over the codes of a tree: a single leaf's one bit leaves half of the share unused. -/
theorem kraft_treeCodes (h : TreeOk n t) : ((treeCodes t n).map fun e => 2 ^ (255 - e.2.length)).sum =
    if n = 1 then 2 ^ 254 else 2 ^ 255 := by
  split_ifs with hn
  · subst hn
    obtain ⟨x, w, hx⟩ := h.leaf 0 h.pos
    simp [treeCodes_single hx]
  · have hn : 2 ≤ n := by have := h.pos; omega
    obtain ⟨b, hb⟩ := h.exists_spans (k := 2 * n - 2) (by omega)
    have hcode := treeCodes_prefixCode h
    rw [hb.treeCodes_eq h hn] at hcode ⊢
    refine b.kraft_codes fun e he => ?_
    obtain ⟨-, hle⟩ := hcode.length he
    exact hle

/-! ### The statements -/

/-- Settles O44: the coded symbols' lengths are those of the tree's codes, which meet Kraft's equality. -/
theorem codeLengthsMeetKraftWithEquality : Obligations.CodeLengthsMeetKraftWithEquality := by
  intro s h
  obtain ⟨t, e, ht, hu, hn, hm⟩ := exec_buildTree_genCodes h
  have hok : TreeOk t.nsym.toNat t.tree := hn ▸ hm.treeOk
  have hcode := treeCodes_prefixCode hok
  refine ⟨t, _, ht, hu, rfl, Eq.trans ?_ (kraft_treeCodes hok)⟩
  refine hcode.sumOver_eq (fun x hx => if_pos hx) fun e he hlen => ?_
  exact (if_neg (hcode.lenTable_get_ne_zero.mpr ⟨e.2, he⟩)).trans (by rw [← hlen]; rfl)

/-- Settles O43: a codeword of a tree of n ≥ 2 leaves is not empty and shorter than n. -/
theorem codeLengthsAreBelowTheLeafCount : Obligations.CodeLengthsAreBelowTheLeafCount := by
  intro s h
  obtain ⟨t, e, ht, hu, hn, hm⟩ := exec_buildTree_genCodes h
  have hok : TreeOk t.nsym.toNat t.tree := hn ▸ hm.treeOk
  have hcode := treeCodes_prefixCode hok
  refine ⟨t, _, ht, hu, rfl, fun h2 x hx => ?_⟩
  obtain ⟨c, hc⟩ := (exists_mem_treeCodes_iff hok).mpr (hm.exists_leaf_iff.mpr hx)
  obtain ⟨hpos, hle⟩ := hcode.length hc
  have hlt := treeCodes_length_lt hok h2 hc
  simp only [State.complete_codeLen, State.withCodes_codeLen, State.complete_nsym, State.withCodes_nsym,
    hcode.lenTable_get hc]
  omega

end Sys2Proof.Machine
end

section
/-! PROOFS. What BUILD_TREE and BUILD_CODEC leave, read off FREQ: the weights (41_tree_builder.md R177, R178), the codebook of
the input (45_build_codec.md R290) and its payload length (42_code_table.md R208). -/

namespace Sys2Proof.Machine

variable {s : State} {x : Sym}

/-! ### Weights -/

/-- R177: the root weighs the sum of FREQ. -/
theorem Merging.weightAt_root {freq : Table 32} {nodes : List Node} {e : QEntry} (h : Merging freq nodes [e]) :
    weightAt nodes (2 * (present freq).length - 2) = sumOver fun x => (freq.get x).toNat := by
  rw [← h.root_seq, ← h.weight e (List.mem_singleton_self e), ← h.total, List.map_singleton, List.sum_singleton]

/-- R177: an internal record weighs the exact sum of its children. -/
theorem Merging.internal_weight {freq : Table 32} {nodes : List Node} {q : List QEntry} (h : Merging freq nodes q)
    {j a b : Nat} {w : Weight} (hj : nodes[j]? = some (.internal w a b)) :
    w.toNat = weightAt nodes a + weightAt nodes b := by
  obtain ⟨hlt, -⟩ := List.getElem?_eq_some_iff.mp hj
  obtain ⟨hn, -⟩ := h.of_childOf (k := a) ⟨w, a, b, hj, .inl rfl⟩
  obtain ⟨w', a', b', hrec, hw, -⟩ := h.merged j hn hlt
  rw [hj, Option.some.injEq, Node.internal.injEq] at hrec
  obtain ⟨rfl, rfl, rfl⟩ := hrec
  exact hw

/-! ### BUILD_CODEC of a non-empty input -/

/-- 40_frequency_counter.md R153: the counts of the input add up to IN_LEN. -/
theorem State.sumOver_counted (s : State) : sumOver (fun x => (s.counted.freq.get x).toNat) = s.inLen.toNat := by
  have hget (x : Sym) : (s.counted.freq.get x).toNat = s.input.count x := countBytes_input_toNat s x
  simp only [hget, sumOver_count, State.input_length]

/-- 40_frequency_counter.md R151: exactly the bytes of the input have a count. -/
theorem State.counted_freq_ne_zero : s.counted.freq.get x ≠ 0#32 ↔ x ∈ s.input := by
  have hget : (s.counted.freq.get x).toNat = s.input.count x := countBytes_input_toNat s x
  rw [← List.count_pos_iff, ← hget, Nat.pos_iff_ne_zero, not_iff_not, BitVec.toNat_eq]
  rfl

/-- R203: BUILD_TREE and GEN_CODES give exactly the symbols with FREQ ≠ 0 a codeword. -/
theorem State.coded_codesGenerated (h : s.hasLeaf) : s.treeBuilt.codesGenerated.coded x ↔ s.freq.get x ≠ 0#32 := by
  obtain ⟨e, he⟩ := merging_buildNodes (State.hasLeaf_iff.mp h)
  have hok : TreeOk s.treeBuilt.nsym.toNat s.treeBuilt.tree := toNat_ofNat_present_length s.freq ▸ he.treeOk
  calc s.treeBuilt.codesGenerated.coded x
    _ ↔ ∃ c, (x, c) ∈ treeCodes s.treeBuilt.tree s.treeBuilt.nsym.toNat := (treeCodes_prefixCode hok).lenTable_get_ne_zero
    _ ↔ ∃ (k : Nat) (w : Weight), s.treeBuilt.tree[k]? = some (.leaf x w) := exists_mem_treeCodes_iff hok
    _ ↔ s.freq.get x ≠ 0#32 := he.exists_leaf_iff

/-- Σ over the bytes of a list is Σ over the symbols, each as often as it occurs. -/
theorem sum_map_eq_sumOver (bs : List Byte) (f : Sym → Nat) : (bs.map f).sum = sumOver fun x => bs.count x * f x := by
  have hd := List.nodup_dedup bs
  have h0 : ∀ x, x ∉ bs.dedup → bs.count x * f x = 0 := fun x hx => by
    rw [List.count_eq_zero.mpr (mt List.mem_dedup.mpr hx), Nat.zero_mul]
  have hset : bs.dedup.toFinset = bs.toFinset := by ext x; simp
  rw [sumOver_eq_sum_map hd h0, ← List.sum_toFinset _ hd, hset, Finset.sum_list_map_count]
  rfl

/-! ### The statements -/

/-- Settles O37: the queue's last entry is the root, and the counts of an input add up to its length. -/
theorem rootWeightIsTheSumOfFreq : Obligations.RootWeightIsTheSumOfFreq := by
  refine ⟨fun s h => ?_, fun s hlen hpos => ?_⟩
  · obtain ⟨t, e, hexec, hn, hm⟩ := exec_buildTree_merging h
    exact ⟨t, hexec, fun j w a b => hm.internal_weight, hn ▸ hm.weightAt_root⟩
  · have hleaf := State.counted_hasLeaf (State.input_ne_nil hpos)
    obtain ⟨e, he⟩ := merging_buildNodes (State.hasLeaf_iff.mp hleaf)
    refine ⟨_, exec_buildCodec_of_counted_hasLeaf hlen hleaf, ?_⟩
    rw [← State.sumOver_counted, ← he.weightAt_root, ← toNat_ofNat_present_length]
    rfl

/-- Settles O38: BUILD_TREE's tree and leaf count are functions of FREQ. -/
theorem treeDependsOnFreqAlone : Obligations.TreeDependsOnFreqAlone := by
  intro s u hfreq h
  have hu : u.hasLeaf := by rwa [State.hasLeaf, ← hfreq]
  obtain ⟨htree, hnsym⟩ := State.treeBuilt_congr hfreq
  exact ⟨_, _, exec_buildTree_of_hasLeaf h, exec_buildTree_of_hasLeaf hu, htree, hnsym⟩

/-- Settles O49: the counted symbols are the input's bytes, and the tree over them gives each of them a codeword. -/
theorem buildCodecCoversTheInput : Obligations.BuildCodecCoversTheInput := by
  intro s hlen hpos
  have hleaf := State.counted_hasLeaf (State.input_ne_nil hpos)
  obtain ⟨e, he⟩ := merging_buildNodes (State.hasLeaf_iff.mp hleaf)
  refine ⟨_, exec_buildCodec_of_counted_hasLeaf hlen hleaf, ⟨rfl, rfl, rfl⟩, rfl, ?_, countBytes_input_toNat s,
    fun x => ?_, State.codebookBuilt_of_hasLeaf hleaf, ?_, ?_⟩
  · exact toNat_ofNat_present_length s.counted.freq ▸ he.treeOk
  · exact (State.coded_codesGenerated hleaf).trans State.counted_freq_ne_zero
  · simp [sameHostSide, State.codesGenerated, State.treeBuilt, State.counted]
  · simp [sameOutput, State.codesGenerated, State.treeBuilt, State.counted]

/-- Settles O60: the payload has CODE_LEN bits for each byte of the input, which occurs FREQ times. -/
theorem payloadBitsAreTheWeightedLength : Obligations.PayloadBitsAreTheWeightedLength := by
  intro s hwf hlen hpos hw
  obtain ⟨a, ha, -, -, -, hcount, -, -, hside, -⟩ := buildCodecCoversTheInput s hlen hpos
  rw [← hside.input_eq hw] at hcount
  obtain ⟨b, hb⟩ : ∃ b, exec .encode a = .next b := ⟨_, exec_eq .encode a⟩
  refine ⟨a, b, ha, hb, fun hb0 => ?_⟩
  obtain ⟨-, -, -, hcfg, -⟩ := hside
  obtain ⟨-, hcap, rfl⟩ := exec_encode_eq_of_errCode_zero hb hb0
  obtain ⟨-, hbits, -⟩ := State.withStream_results_toNat a.afterInput (hcap.trans (outCap_le_of_wf (hcfg ▸ hwf)))
  rw [State.complete_payloadBits, hbits, List.length_flatMap, sum_map_eq_sumOver, weightedLength]
  simp only [hcount, State.code, length_codeOf]

end Sys2Proof.Machine
end

section
/-! PROOFS. Huffman's optimality (41_tree_builder.md R180). A binary tree is compared by its leaves' weights and depths alone:
Kraft's equality lets the two least weights stand at the greatest depth, where merging them takes off exactly what one merge
of BUILD_TREE adds. -/

namespace Sys2Proof.Machine

/-! ### Weights at depths -/

/-- Σ weight · depth. -/
def pathCost (P : List (Nat × Nat)) : Nat := (P.map fun p => p.1 * p.2).sum

/-- Kraft's equality for depths, times 2^L for any L that none of them exceeds: they are the depths of a binary tree's
leaves. -/
def Kraft (ds : List Nat) : Prop := ∀ L, (∀ d ∈ ds, d ≤ L) → (ds.map fun d => 2 ^ (L - d)).sum = 2 ^ L

variable {P Q : List (Nat × Nat)} {ds es ws : List Nat} {a c L l : Nat}

theorem Kraft.perm (h : Kraft ds) (hp : ds.Perm es) : Kraft es := fun L hL => by
  rw [← (hp.map _).sum_eq]
  exact h L fun d hd => hL d (hp.mem_iff.mp hd)

/-- Raising the bound by one doubles the sum. -/
theorem sum_two_pow_succ (h : ∀ d ∈ ds, d ≤ L) :
    (ds.map fun d => 2 ^ (L + 1 - d)).sum = 2 * (ds.map fun d => 2 ^ (L - d)).sum := by
  rw [← List.sum_map_mul_left]
  refine congrArg List.sum (List.map_congr_left fun d hd => ?_)
  rw [Nat.succ_sub (h d hd), Nat.pow_succ, Nat.mul_comm]

/-- Two leaves at least lie at the greatest depth, since the shares of all others are even. -/
theorem Kraft.exists_deepest (h : Kraft (L :: ds)) (hne : ds ≠ []) (hmax : ∀ d ∈ ds, d ≤ L) : L ∈ ds ∧ 1 ≤ L := by
  have hsum := h L (by simpa using hmax)
  rw [List.map_cons, List.sum_cons, Nat.sub_self, Nat.pow_zero] at hsum
  obtain ⟨d, hd⟩ := List.exists_mem_of_ne_nil ds hne
  have hpos : 0 < (ds.map fun d => 2 ^ (L - d)).sum :=
    (Nat.two_pow_pos (L - d)).trans_le (List.le_sum_of_mem (List.mem_map_of_mem hd))
  have hL : L ≠ 0 := by
    rintro rfl
    omega
  refine ⟨?_, Nat.one_le_iff_ne_zero.mpr hL⟩
  by_contra hno
  have heven : 2 ∣ (ds.map fun d => 2 ^ (L - d)).sum := by
    refine List.dvd_sum fun m hm => ?_
    obtain ⟨d, hd, rfl⟩ := List.mem_map.mp hm
    have hlt : d < L := lt_of_le_of_ne (hmax d hd) fun he => hno (he ▸ hd)
    exact dvd_pow_self 2 (by omega)
  have hpow : 2 ∣ 2 ^ L := dvd_pow_self 2 hL
  omega

/-- Two leaves at depth L make way for their parent, one level up. -/
theorem Kraft.merge (h : Kraft ((L + 1) :: (L + 1) :: ds)) : Kraft (L :: ds) := by
  intro M hM
  rw [List.forall_mem_cons] at hM
  obtain ⟨hL, hds⟩ := hM
  have hsum := h (M + 1) (by simpa [hL] using fun d hd => (hds d hd).trans (Nat.le_succ M))
  simp only [List.map_cons, List.sum_cons, sum_two_pow_succ hds, Nat.add_sub_add_right, Nat.pow_succ] at hsum ⊢
  omega

/-! ### The exchange -/

/-- A weight of the list can be put first. -/
theorem exists_perm_cons (h : (P.map Prod.fst).Perm (a :: ws)) :
    ∃ l Q, P.Perm ((a, l) :: Q) ∧ (Q.map Prod.fst).Perm ws := by
  obtain ⟨⟨w, l⟩, hp, rfl⟩ := List.mem_map.mp (h.mem_iff.mpr (List.mem_cons_self))
  have hperm := List.perm_cons_erase hp
  exact ⟨l, _, hperm, ((hperm.map Prod.fst).symm.trans h).cons_inv⟩

/-- The least weight changes places with a deepest one, at no cost. -/
theorem exists_least_deepest (hleast : ∀ w ∈ Q.map Prod.fst, a ≤ w) (hL : L ∈ l :: Q.map Prod.snd) (hmax : l ≤ L) :
    ∃ Q', (Q'.map Prod.fst).Perm (Q.map Prod.fst) ∧ (L :: Q'.map Prod.snd).Perm (l :: Q.map Prod.snd) ∧
      a * L + pathCost Q' ≤ a * l + pathCost Q := by
  rcases List.mem_cons.mp hL with rfl | hL
  · exact ⟨Q, .refl _, .refl _, le_rfl⟩
  · obtain ⟨⟨x, L⟩, hx, rfl⟩ := List.mem_map.mp hL
    have hperm := List.perm_cons_erase hx
    generalize Q.erase _ = R at hperm
    refine ⟨(x, l) :: R, ?_, ?_, ?_⟩
    · exact (hperm.map Prod.fst).symm
    · exact (List.Perm.swap _ _ _).trans ((hperm.map Prod.snd).symm.cons l)
    · have hax : a ≤ x := hleast x (List.mem_map_of_mem hx)
      have hswap : a * L + x * l ≤ a * l + x * L := mul_add_mul_le_mul_add_mul hax hmax
      rw [pathCost, pathCost, (hperm.map _).sum_eq]
      simp only [List.map_cons, List.sum_cons]
      omega

/-- R180: in a tree over the weights `a`, `c` and `ws`, with `a` and `c` the least, the two can be merged into one leaf of
weight a + c, which takes at least a + c off the cost. -/
theorem exists_merged (hk : Kraft (P.map Prod.snd)) (hP : (P.map Prod.fst).Perm (a :: c :: ws))
    (ha : ∀ w ∈ c :: ws, a ≤ w) (hc : ∀ w ∈ ws, c ≤ w) :
    ∃ P', Kraft (P'.map Prod.snd) ∧ (P'.map Prod.fst).Perm ((a + c) :: ws) ∧ pathCost P' + (a + c) ≤ pathCost P := by
  obtain ⟨l, Q, hPQ, hQ⟩ := exists_perm_cons hP
  obtain ⟨L, hL, hmax⟩ : ∃ L ∈ l :: Q.map Prod.snd, ∀ d ∈ l :: Q.map Prod.snd, d ≤ L :=
    ⟨_, List.max?_eq_some_iff.mp List.max?_cons'⟩
  obtain ⟨Q', hQ', hdepth, hcost⟩ := exists_least_deepest (fun w hw => ha w (hQ.mem_iff.mp hw)) hL (hmax l (by simp))
  obtain ⟨m, R, hQR, hR⟩ := exists_perm_cons (hQ'.trans hQ)
  have hk₁ : Kraft (L :: m :: R.map Prod.snd) :=
    hk.perm ((hPQ.map Prod.snd).trans (hdepth.symm.trans ((hQR.map Prod.snd).cons L)))
  have hmax₁ : ∀ d ∈ m :: R.map Prod.snd, d ≤ L := fun d hd =>
    hmax d (hdepth.mem_iff.mp (List.mem_cons_of_mem L ((hQR.map Prod.snd).mem_iff.mpr hd)))
  obtain ⟨hL₁, hpos⟩ := hk₁.exists_deepest (by simp) hmax₁
  obtain ⟨R', hR', hdepth', hcost'⟩ := exists_least_deepest (fun w hw => hc w (hR.mem_iff.mp hw)) hL₁ (hmax₁ m (by simp))
  obtain ⟨L, rfl⟩ := Nat.exists_eq_add_of_le' hpos
  refine ⟨(a + c, L) :: R', (hk₁.perm (hdepth'.symm.cons (L + 1))).merge, (hR'.trans hR).cons (a + c), ?_⟩
  have hP' : pathCost P = a * l + pathCost Q := (hPQ.map _).sum_eq
  have hQ'' : pathCost Q' = c * m + pathCost R := (hQR.map _).sum_eq
  have hnew : pathCost ((a + c, L) :: R') + (a + c) = a * (L + 1) + (c * (L + 1) + pathCost R') := by
    simp only [pathCost, List.map_cons, List.sum_cons]
    ring
  omega

/-! ### A binary tree as weights at depths -/

/-- The sum of the leaves' FREQ. -/
def BinTree.weight (freq : Table 32) (b : BinTree) : Nat := (b.syms.map fun x => (freq.get x).toNat).sum

/-- The leaves' FREQ and depths. -/
def BinTree.profile (freq : Table 32) (b : BinTree) : List (Nat × Nat) :=
  (b.codes []).map fun e => ((freq.get e.1).toNat, e.2.length)

variable {freq : Table 32} {b : BinTree}

/-- A tree one level deeper costs its weight more. -/
theorem BinTree.cost_succ (b : BinTree) (d : Nat) : b.cost freq (d + 1) = b.cost freq d + b.weight freq := by
  induction b generalizing d with
  | leaf x => simp [cost, weight, syms, Nat.mul_succ]
  | node l r ihl ihr =>
    simp only [cost, ihl, ihr, weight, syms, List.map_append, List.sum_append]
    omega

/-- R174: a merge adds the two weights to the cost. -/
theorem BinTree.cost_node (l r : BinTree) :
    (BinTree.node l r).cost freq 0 = l.cost freq 0 + r.cost freq 0 + (l.weight freq + r.weight freq) := by
  rw [cost, cost_succ, cost_succ]
  omega

theorem BinTree.kraft_profile (b : BinTree) : Kraft ((b.profile freq).map Prod.snd) := by
  intro L hL
  simp only [profile, List.map_map] at hL ⊢
  refine b.kraft_codes (path := []) fun e he => hL _ ?_
  exact List.mem_map_of_mem he

theorem BinTree.map_fst_profile (b : BinTree) :
    (b.profile freq).map Prod.fst = b.syms.map fun x => (freq.get x).toNat := by
  rw [← b.map_fst_codes [], profile, List.map_map, List.map_map]
  rfl

theorem BinTree.pathCost_profile (b : BinTree) : pathCost (b.profile freq) = b.cost freq 0 := by
  rw [pathCost, profile, List.map_map]
  exact (b.cost_eq_sum_codes freq []).symm

/-! ### The merges -/

/-- Each entry of the queue spans its tree, and its weight is the sum of that tree's leaves. -/
def Grown (freq : Table 32) (nodes : List Node) (q : List QEntry) (f : Nat → BinTree) : Prop :=
  ∀ e ∈ q, Spans nodes e.seq (f e.seq) ∧ e.weight.toNat = (f e.seq).weight freq

/-- What the merges made so far cost. -/
def queueCost (freq : Table 32) (f : Nat → BinTree) (q : List QEntry) : Nat :=
  (q.map fun e => (f e.seq).cost freq 0).sum

variable {nodes : List Node} {q : List QEntry} {x y : QEntry} {r : List QEntry} {f : Nat → BinTree}

/-- R174: a merge makes one tree of two. -/
theorem Grown.merge (hm : Merging freq nodes (x :: y :: r)) (hg : Grown freq nodes (x :: y :: r) f) :
    ∃ f', Grown freq (nodes ++ [.internal (x.weight + y.weight) x.seq y.seq])
        (r ++ [⟨x.weight + y.weight, nodes.length⟩]) f' ∧
      queueCost freq f' (r ++ [⟨x.weight + y.weight, nodes.length⟩]) =
        queueCost freq f (x :: y :: r) + (x.weight.toNat + y.weight.toNat) := by
  obtain ⟨⟨hx, hxw⟩, ⟨hy, hyw⟩, hr⟩ : (Spans nodes x.seq (f x.seq) ∧ x.weight.toNat = (f x.seq).weight freq) ∧
      (Spans nodes y.seq (f y.seq) ∧ y.weight.toNat = (f y.seq).weight freq) ∧ Grown freq nodes r f :=
    ⟨hg x (by simp), hg y (by simp), fun e he => hg e (by simp [he])⟩
  have hold {e : QEntry} (he : e ∈ r) : e.seq ≠ nodes.length := (hm.entry_lt (e := e) (by simp [he])).ne
  refine ⟨Function.update f nodes.length (.node (f x.seq) (f y.seq)), fun e he => ?_, ?_⟩
  · rcases List.mem_append.mp he with he | he
    · obtain ⟨hspan, hw⟩ := hr e he
      rw [Function.update_of_ne (hold he)]
      exact ⟨hspan.append, hw⟩
    · obtain rfl := List.mem_singleton.mp he
      simp only [Function.update_self]
      refine ⟨.node List.getElem?_concat_length hx.append hy.append, ?_⟩
      rw [hm.toNat_add, hxw, hyw, BinTree.weight, BinTree.weight, BinTree.weight, BinTree.syms, List.map_append,
        List.sum_append]
  · have hsame : queueCost freq (Function.update f nodes.length (.node (f x.seq) (f y.seq))) r = queueCost freq f r :=
      congrArg List.sum (List.map_congr_left fun e he => by rw [Function.update_of_ne (hold he)])
    rw [queueCost] at hsame
    simp only [queueCost, List.map_append, List.sum_append, List.map_cons, List.map_nil, List.sum_cons, List.sum_nil,
      Function.update_self, BinTree.cost_node, hsame, hxw, hyw]
    omega

/-- R173: an entry that precedes another weighs no more. -/
theorem QEntry.weight_le_of_precedes (h : x.precedes y = true) : x.weight.toNat ≤ y.weight.toNat := by
  rw [QEntry.precedes_iff] at h
  omega

/-- R180: the root spans a tree that costs at most C more than any binary tree over the weights `ws`. -/
def LeastCost (freq : Table 32) (nodes : List Node) (C : Nat) (ws : List Nat) : Prop :=
  ∃ b, Spans nodes (2 * (present freq).length - 2) b ∧
    ∀ P, Kraft (P.map Prod.snd) → (P.map Prod.fst).Perm ws → b.cost freq 0 ≤ C + pathCost P

variable {C : Nat} {vs : List Nat}

theorem LeastCost.perm (h : LeastCost freq nodes C ws) (hp : ws.Perm vs) : LeastCost freq nodes C vs := by
  obtain ⟨b, hb, hleast⟩ := h
  exact ⟨b, hb, fun P hk hP => hleast P hk (hP.trans hp.symm)⟩

/-- R180: a tree over `a`, `c` and `ws`, with `a` and `c` the least, costs at least a + c more than one with the two
merged. -/
theorem LeastCost.of_merged (h : LeastCost freq nodes (C + (a + c)) ((a + c) :: ws)) (ha : ∀ w ∈ c :: ws, a ≤ w)
    (hc : ∀ w ∈ ws, c ≤ w) : LeastCost freq nodes C (a :: c :: ws) := by
  obtain ⟨b, hb, hleast⟩ := h
  refine ⟨b, hb, fun P hk hP => ?_⟩
  obtain ⟨P', hk', hP', hle⟩ := exists_merged hk hP ha hc
  have := hleast P' hk' hP'
  omega

/-- The last entry of the queue spans its tree. -/
theorem Merging.leastCost_singleton {e : QEntry} (h : Merging freq nodes [e]) (hg : Grown freq nodes [e] f)
    (ws : List Nat) : LeastCost freq nodes (queueCost freq f [e]) ws := by
  obtain ⟨hspan, -⟩ := hg e (List.mem_singleton_self e)
  exact ⟨f e.seq, by rwa [← h.root_seq], fun P _ _ => by simp [queueCost]⟩

/-- R180: the loop costs, beyond what the queue's trees cost already, no more than any binary tree over the weights of the
queue. -/
theorem Merging.leastCost_mergeLoop {fuel : Nat} (h : Merging freq nodes q) (hg : Grown freq nodes q f) (hq : q ≠ [])
    (hf : q.length ≤ fuel + 1) :
    LeastCost freq (mergeLoop fuel nodes q) (queueCost freq f q) (q.map fun e => e.weight.toNat) := by
  have hpos : 0 < q.length := List.length_pos_iff.mpr hq
  induction fuel generalizing nodes q f with
  | zero =>
    obtain ⟨e, rfl⟩ := List.length_eq_one_iff.mp (by omega : q.length = 1)
    exact h.leastCost_singleton hg _
  | succ fuel ih =>
    by_cases h2 : 2 ≤ q.length
    · obtain ⟨x, y, r, hp, hx, hy, hloop⟩ := mergeLoop_succ h.distinct h2 fuel nodes
      have hlen : q.length = r.length + 2 := hp.length_eq
      have hm := h.perm hp
      obtain ⟨f', hg', hcost⟩ := Grown.merge hm fun e he => hg e (hp.mem_iff.mpr he)
      have hleast := ih (hm.merge hx hy) hg' (by simp) (by simp; omega) (by simp)
      have hqueue : queueCost freq f q = queueCost freq f (x :: y :: r) := (hp.map _).sum_eq
      have hweights : (q.map fun e => e.weight.toNat).Perm ((x :: y :: r).map fun e => e.weight.toNat) := hp.map _
      have hjoin := List.perm_append_singleton ⟨x.weight + y.weight, nodes.length⟩ r
      have hle {z : QEntry} {q : List QEntry} (hz : ∀ e ∈ q, z.precedes e = true) :
          ∀ w ∈ q.map fun e => e.weight.toNat, z.weight.toNat ≤ w := by
        intro w hw
        obtain ⟨e, he, rfl⟩ := List.mem_map.mp hw
        exact QEntry.weight_le_of_precedes (hz e he)
      rw [hcost, ← hqueue] at hleast
      replace hleast := hleast.perm (hjoin.map _)
      rw [List.map_cons, hm.toNat_add] at hleast
      rw [hloop]
      exact (hleast.of_merged (hle hx) (hle hy)).perm hweights.symm
    · obtain ⟨e, rfl⟩ := List.length_eq_one_iff.mp (by omega : q.length = 1)
      rw [mergeLoop_singleton]
      exact h.leastCost_singleton hg _

/-- Each leaf record is a tree of one leaf. -/
theorem grown_leaves (freq : Table 32) :
    Grown freq (leaves freq) (leafQueue (leaves freq)) fun k => .leaf ((present freq).getD k 0#8) := by
  intro e he
  have hk : e.seq < (present freq).length := by simpa using (merging_leaves freq).entry_lt he
  have hleaf := leaves_getElem? hk
  have hget : (present freq).getD e.seq 0#8 = (present freq)[e.seq] := by simp [hk]
  dsimp only
  rw [hget]
  refine ⟨.leaf hleaf, ?_⟩
  rw [(merging_leaves freq).weight e he, weightAt, hleaf]
  exact (BitVec.toNat_setWidth_of_le (by decide)).trans (Nat.add_zero _).symm

theorem queueCost_leaf (freq : Table 32) (g : Nat → Sym) (q : List QEntry) :
    queueCost freq (fun k => .leaf (g k)) q = 0 := by
  simp [queueCost, BinTree.cost]

/-- R180: no binary tree over the present symbols costs less than the one that BUILD_TREE's root spans. -/
theorem exists_spans_least_cost (h : present freq ≠ []) :
    ∃ b, Spans (buildNodes freq) (2 * (present freq).length - 2) b ∧
      ∀ b' : BinTree, b'.syms.Perm (present freq) → b.cost freq 0 ≤ b'.cost freq 0 := by
  have hq : (leafQueue (leaves freq)).length = (leaves freq).length := by simp [leafQueue]
  have hpos : 0 < (present freq).length := List.length_pos_iff.mpr h
  have hne : leafQueue (leaves freq) ≠ [] := by
    rw [← List.length_pos_iff, hq, leaves_length]
    exact hpos
  have hleast : LeastCost freq (buildNodes freq) _ _ :=
    (merging_leaves freq).leastCost_mergeLoop (grown_leaves freq) hne (by omega)
  rw [queueCost_leaf, map_weight_leafQueue, map_weight_leaves] at hleast
  obtain ⟨b, hb, hleast⟩ := hleast
  refine ⟨b, hb, fun b' hb' => ?_⟩
  rw [← b'.pathCost_profile, ← Nat.zero_add (pathCost _)]
  refine hleast _ b'.kraft_profile ?_
  rw [b'.map_fst_profile]
  exact hb'.map _

/-! ### The statement -/

/-- R202: the one bit of a single leaf. -/
theorem Merging.weightedLength_single {e : QEntry} (h : Merging freq nodes [e]) (h1 : (present freq).length = 1) :
    weightedLength freq (lenTable (treeCodes nodes 1)) = sumOver fun x => (freq.get x).toNat := by
  have hok : TreeOk 1 nodes := h1 ▸ h.treeOk
  have hcode := treeCodes_prefixCode hok
  have hone {e : Sym × Bits} (he : e ∈ treeCodes nodes 1) : e.2.length = 1 := by
    obtain ⟨hpos, -⟩ := hcode.length he
    exact le_antisymm (treeCodes_length_le_one hok (by decide) he) hpos
  refine (hcode.weightedLength_eq freq).trans (hcode.sumOver_eq (fun x hx => ?_) fun e he _ => ?_).symm
  · have hx : ¬ freq.get x ≠ 0#32 := by
      rw [← h.exists_leaf_iff, ← exists_mem_treeCodes_iff hok, ← hcode.lenTable_get_ne_zero, hx]
      simp
    rw [not_not.mp hx]
    rfl
  · rw [hone he, Nat.mul_one]

/-- Settles O46: the cost of the tree that the root spans is Σ FREQ · CODE_LEN, and the merges of BUILD_TREE make it least. -/
theorem treeMinimisesWeightedPathLength : Obligations.TreeMinimisesWeightedPathLength := by
  intro s h
  have hne := State.hasLeaf_iff.mp h
  obtain ⟨e, hm⟩ := merging_buildNodes hne
  obtain ⟨b, hb, hleast⟩ := exists_spans_least_cost hne
  refine ⟨_, _, exec_buildTree_of_hasLeaf h, exec_genCodes_of_treeValid rfl, rfl, ?_⟩
  simp only [State.complete_nsym, State.complete_codeLen, State.complete_tree, State.withCodes_nsym,
    State.withCodes_codeLen, State.withTree_nsym, State.withTree_tree, toNat_ofNat_present_length]
  refine ⟨fun h2 b' hb' => ?_, fun h1 => ?_⟩
  · rw [(treeCodes_prefixCode hm.treeOk).weightedLength_eq, hb.treeCodes_eq hm.treeOk h2]
    exact (b.cost_eq_sum_codes s.freq []).symm.trans_le (hleast b' hb')
  · rw [h1]
    exact hm.weightedLength_single h1

end Sys2Proof.Machine
end

section
/-! PROOFS. Which words are commands (30_encoding.md R120, R121), and the step that runs one (60_exceptions.md R319). -/

namespace Sys2Proof.Machine

variable {v : Word} {i : Instr}

/-- R121: OPC 1 to 6 are the commands' opcodes. -/
theorem mem_opcodes_iff {o : BitVec 8} :
    o ∈ [0x01#8, 0x02#8, 0x03#8, 0x04#8, 0x05#8, 0x06#8] ↔ ∃ i, o = opcode i := by
  constructor
  · intro ho
    simp only [List.mem_cons, List.not_mem_nil, or_false] at ho
    rcases ho with h | h | h | h | h | h
    exacts [⟨.count, h⟩, ⟨.buildTree, h⟩, ⟨.genCodes, h⟩, ⟨.buildCodec, h⟩, ⟨.encode, h⟩, ⟨.decode, h⟩]
  · rintro ⟨i, rfl⟩
    cases i <;> decide

/-- R319: the engine's step of a legal word is its command. -/
theorem engineStep_of_decode_ok {s : State} (h : decode s.curCmd = .ok i) : engineStep s = exec i s := by
  rw [engineStep, h]

/-- Settles O3: a command's word is its encoding and nothing else. -/
theorem decodeAnswersExactlyTheEncodedCommand : Obligations.DecodeAnswersExactlyTheEncodedCommand :=
  decode_eq_ok_iff

/-- Settles O2: a word encodes a command exactly when its two fields are that command's. -/
theorem exactlyLegalWordsDecode : Obligations.ExactlyLegalWordsDecode := by
  intro v
  calc (∃ i, Sys2Proof.decode v = .ok i)
    _ ↔ ∃ i, mbzField v = 0#24 ∧ opcField v = opcode i := exists_congr fun i => by rw [decode_eq_ok_iff, eq_encode_iff]
    _ ↔ mbzField v = 0#24 ∧ ∃ i, opcField v = opcode i := exists_and_left
    _ ↔ _ := and_congr_right fun _ => mem_opcodes_iff.symm

/-- Settles O21: the engine's turn while BUSY = 1, with no move pending or with its own taken. -/
theorem stepRunsTheDecodedCommand : Obligations.StepRunsTheDecodedCommand := by
  intro s i hb hd
  refine ⟨fun hm => ?_, fun ms hm => ?_⟩
  · rw [step_of_moves_nil hm, engineTurn, if_pos hb, engineStep_of_decode_ok hd]
  · rw [step_of_engine hb (.inr hm), engineStep_of_decode_ok (s := { s with moves := ms }) hd]

end Sys2Proof.Machine
end

section
/-! PROOFS. How steps and commands end: the one stop of a step (20_memory.md R81), the codes of each command (60_exceptions.md
R310 to R316), the bytes that the engine reads (20_memory.md R93, R94) and what a success of DECODE has matched
(60_exceptions.md R324). -/

namespace Sys2Proof.Machine

variable {s : State}

/-! ### Steps -/

/-- R319, R335: the engine's turn always answers a next state. -/
theorem exists_engineTurn_eq (s : State) : ∃ t, engineTurn s = .next t := by
  cases hb : s.busy with
  | false => exact ⟨s, if_neg (by simp [hb])⟩
  | true =>
    obtain ⟨u, e, hu, -⟩ := exists_engineStep_eq s
    exact ⟨_, (if_pos hb).trans hu⟩

/-- Settles O25: of the four kinds of move only a transaction outside the window does not answer. -/
theorem onlyForeignAddressesStop : Obligations.OnlyForeignAddressesStop := by
  intro s
  rcases step_eq s with ⟨-, hstep⟩ | ⟨m, ms, hm, hstep⟩
  · exact .inl (hstep ▸ exists_engineTurn_eq s)
  · cases m with
    | engine => exact .inl (hstep ▸ exists_engineTurn_eq _)
    | reset => exact .inl ⟨_, hstep⟩
    | read addr =>
      rcases windowOffset_cases s.cfg addr with hout | ⟨off, hoff, rfl⟩
      · refine .inr ⟨addr, ms, ?_, (windowOffset_eq_none _ _).mp hout, .inl hm⟩
        simp [hstep, takeMove, hout]
      · exact .inl ⟨_, step_read hm hoff⟩
    | write addr v =>
      rcases windowOffset_cases s.cfg addr with hout | ⟨off, hoff, rfl⟩
      · refine .inr ⟨addr, ms, ?_, (windowOffset_eq_none _ _).mp hout, .inr ⟨v, hm⟩⟩
        simp [hstep, takeMove, hout]
      · exact .inl ⟨_, step_write hm hoff⟩

/-! ### Commands -/

/-- How each command can end (R314 to R316). -/
def outcomesOf : Instr → List (Option Err)
  | .count => [none, some .lengthRange]
  | .buildTree => [none, some .emptyInput]
  | .genCodes => [none, some .noTree]
  | .buildCodec => [none, some .emptyInput, some .lengthRange]
  | .encode => [none, some .unknownSymbol, some .outputOverflow, some .lengthRange]
  | .decode => [none, some .malformedStream, some .outputOverflow, some .lengthRange]

theorem countBody_error_mem (s : State) : (countBody s).error ∈ outcomesOf .count := by
  rcases countBody_cases s with ⟨-, hbody⟩ | ⟨-, hbody⟩ <;> rw [hbody] <;> simp [outcomesOf]

theorem buildTreeBody_error_mem (s : State) : (buildTreeBody s).error ∈ outcomesOf .buildTree := by
  rcases buildTreeBody_cases s with ⟨-, hbody⟩ | ⟨-, hbody⟩ <;> rw [hbody] <;> simp [outcomesOf]

theorem genCodesBody_error_mem (s : State) : (genCodesBody s).error ∈ outcomesOf .genCodes := by
  rcases genCodesBody_cases s with ⟨-, hbody⟩ | ⟨-, hbody⟩ <;> rw [hbody] <;> simp [outcomesOf]

/-- 45_build_codec.md R291: BUILD_CODEC finds a tree whenever it generates codes. -/
theorem buildCodecBody_error_mem (s : State) : (buildCodecBody s).error ∈ outcomesOf .buildCodec := by
  by_cases h : s.lengthOk
  · by_cases hleaf : s.counted.hasLeaf
    · rw [buildCodecBody, countBody_of_lengthOk h, andThen_finished, buildTreeBody_of_hasLeaf hleaf, andThen_finished,
        genCodesBody_of_treeValid (s := s.counted.treeBuilt) rfl]
      simp [outcomesOf]
    · rw [buildCodecBody, countBody_of_lengthOk h, andThen_finished, buildTreeBody_of_not_hasLeaf hleaf, andThen_raiseErr]
      simp [outcomesOf]
  · rw [buildCodecBody, countBody_of_not_lengthOk h, andThen_raiseErr, andThen_raiseErr]
    simp [outcomesOf]

theorem encodeBody_error_mem (s : State) : (encodeBody s).error ∈ outcomesOf .encode := by
  by_cases h : s.lengthOk
  · by_cases hx : ∀ x, x ∈ s.input → s.coded x
    · rw [encodeBody_of_coded h hx]
      split <;> simp [outcomesOf]
    · rw [encodeBody_of_unknown h (by simpa using hx)]
      simp [outcomesOf]
  · rw [encodeBody_of_not_lengthOk h]
    simp [outcomesOf]

theorem decodeBody_error_mem (s : State) : (decodeBody s).error ∈ outcomesOf .decode := by
  by_cases h : s.lengthOk
  · by_cases hin : s.input = []
    · rw [decodeBody_of_input_nil h hin]
      simp [outcomesOf]
    · cases hu : unpackStream s.input with
      | none =>
        rw [decodeBody_of_input_ne_nil h hin, decodeStream, hu]
        simp [outcomesOf]
      | some r =>
        rw [decodeBody_of_unpackStream h hu rfl]
        split_ifs <;> simp [outcomesOf]
  · rw [decodeBody_of_not_lengthOk h]
    simp [outcomesOf]

theorem bodyOf_error_mem (i : Instr) (s : State) : (bodyOf i s).error ∈ outcomesOf i := by
  cases i with
  | count => exact countBody_error_mem s
  | buildTree => exact buildTreeBody_error_mem s
  | genCodes => exact genCodesBody_error_mem s
  | buildCodec => exact buildCodecBody_error_mem s
  | encode => exact encodeBody_error_mem s
  | decode => exact decodeBody_error_mem s

/-- Settles O28: each body keeps the host's side and ends in one of its command's ways, whose codes are R310's. -/
theorem everyCommandCompletesWithItsCodes : Obligations.EveryCommandCompletesWithItsCodes := by
  intro i s
  refine ⟨_, exec_eq i s, rfl, rfl, bodyOf_sameHostSide i s, ?_⟩
  have hmem := bodyOf_error_mem i s
  rw [Ended.complete_eq, State.complete_errCode]
  generalize (bodyOf i s).error = e at hmem ⊢
  revert e
  cases i <;> decide

/-! ### The engine's input -/

/-- Settles O30: the reads start at IN[0] and at the counter's value when the command runs. -/
theorem engineReadsTheInputBytes : Obligations.EngineReadsTheInputBytes := by
  intro s
  refine ⟨s.input_length, fun a ha => ⟨fun b hb => ?_, fun hnone => ?_⟩⟩
  · exact Memory.readList_get_written ha (by rw [Nat.zero_add, hb])
  · refine (Memory.readList_get_unwritten ha (by rw [Nat.zero_add, hnone])).trans ?_
    simp only [Nat.zero_add]

/-! ### DECODE -/

/-- An error's code is not that of success. -/
theorem codecFailed.errCode_ne_zero {t : State} {code : BitVec 8} (h : codecFailed code s t) (hc : code ≠ 0#8) :
    t.errCode ≠ 0#8 := by
  obtain ⟨⟨-, -, hcode⟩, -⟩ := h
  exact hcode ▸ hc

/-- R324: a DECODE whose stream does not unpack into codewords fails. -/
theorem exists_unpackStream_of_errCode_zero {t : State} (hexec : exec .decode s = .next t) (h0 : t.errCode = 0#8) :
    ∃ (n : Nat) (payload : Bits) (out : List Sym), unpackStream s.input = some (n, payload) ∧
      (∀ x ∈ out, s.coded x) ∧ payload = out.flatMap s.code := by
  have never {code : BitVec 8} (hc : code ≠ 0#8) : ¬ ∃ u, exec .decode s = .next u ∧ codecFailed code s u := by
    rintro ⟨u, hu, hfail⟩
    cases hexec.symm.trans hu
    exact hfail.errCode_ne_zero hc h0
  have hlen : s.lengthOk := by_contra fun h => never (by decide) (exec_decode_of_not_lengthOk h)
  cases hu : unpackStream s.input with
  | none => exact absurd (exec_decode_of_unpackStream_none hlen hu) (never (by decide))
  | some r =>
    obtain ⟨n, payload⟩ := r
    by_contra hno
    refine never (by decide) (exec_decode_of_unmatched hlen hu fun ⟨out, hout, hpay⟩ => hno ?_)
    exact ⟨n, payload, out, rfl, hout, hpay⟩

/-- Settles O56: a stream that unpacks is a header and a body, whose first bits are the payload. -/
theorem decodeNeverLeavesAnUnmatchedCandidate : Obligations.DecodeNeverLeavesAnUnmatchedCandidate := by
  intro s
  refine ⟨_, exec_eq .decode s, fun h0 => ?_⟩
  obtain ⟨n, payload, out, hu, hout, hpay⟩ := exists_unpackStream_of_errCode_zero (exec_eq .decode s) h0
  obtain ⟨p, body, hin, -, -, rfl⟩ := eq_cons_of_unpackStream hu
  exact ⟨p, body, out, hin, hout, hpay⟩

end Sys2Proof.Machine
end

section
/-! PROOFS. The lanes of a buffer window (20_memory.md R86, R87, R94, R97): what a read returns in each and what a write sets. -/

namespace Sys2Proof.Machine

variable {m : Memory} {cap k free a l : Nat}

/-! ### Bus words -/

/-- R97: each lane of a word made from lanes. -/
theorem extractLsb'_wordOfLanes (b : Nat → Byte) (hl : l < 4) :
    (wordOfLanes (b 0) (b 1) (b 2) (b 3)).extractLsb' (8 * l) 8 = b l := by
  have above {w start : Nat} (u : BitVec w) (v : Byte) (h : 8 ≤ start) :
      (u ++ v).extractLsb' start 8 = u.extractLsb' (start - 8) 8 := BitVec.extractLsb'_append_eq_of_le h
  have lowest {w : Nat} (u : BitVec w) (v : Byte) : (u ++ v).extractLsb' 0 8 = v := BitVec.extractLsb'_append_eq_right
  match l, hl with
  | 0, _ => exact lowest _ _
  | 1, _ => exact (above _ _ (by decide)).trans (lowest _ _)
  | 2, _ => exact ((above _ _ (by decide)).trans (above _ _ (by decide))).trans (lowest _ _)
  | 3, _ =>
    exact (((above _ _ (by decide)).trans (above _ _ (by decide))).trans (above _ _ (by decide))).trans
      BitVec.extractLsb'_eq_self

/-! ### Reads -/

/-- How many free values a read of word k draws before lane l (R94, log 2). -/
def Memory.drawnBefore (m : Memory) (cap k l : Nat) : Nat :=
  (List.range l).countP fun i => decide (4 * k + i < cap) && (m.read? (4 * k + i)).isNone

/-- R94: a lane within the capacity that nothing has written draws one free value. -/
theorem Memory.readLane_snd (m : Memory) (cap k l free : Nat) :
    (m.readLane cap (4 * k + l) (free + m.drawnBefore cap k l)).2 = free + m.drawnBefore cap k (l + 1) := by
  rw [drawnBefore, drawnBefore, List.range_succ, List.countP_append, List.countP_singleton, readLane]
  split
  · next ha =>
    cases hr : m.read? (4 * k + l) with
    | none => simp [readByte_none hr, ha, Nat.add_assoc]
    | some b => simp [readByte_some hr]
  · next ha => simp [ha]

/-- R86, R87: the value of lane l in a read of word k. -/
def Memory.laneValue (m : Memory) (cap k free l : Nat) : Byte :=
  (m.readLane cap (4 * k + l) (free + m.drawnBefore cap k l)).1

theorem Memory.readWord_eq (m : Memory) (cap k free : Nat) : m.readWord cap k free =
    (wordOfLanes (m.laneValue cap k free 0) (m.laneValue cap k free 1) (m.laneValue cap k free 2)
      (m.laneValue cap k free 3), free + m.drawnBefore cap k 4) := by
  have h (l : Nat) := readLane_snd m cap k l free
  have h0 : m.readLane cap (4 * k) free = m.readLane cap (4 * k + 0) (free + m.drawnBefore cap k 0) := rfl
  simp only [readWord, h0, h, laneValue]

/-- What a read of word k of a window returns: in each lane the byte last written, 0 at or past the capacity, and the free
value drawn in its turn where nothing has been written. -/
def ReadsLanes (m : Memory) (cap k free : Nat) (r : Word) : Prop :=
  ∀ l, l < 4 →
    (cap ≤ 4 * k + l → r.extractLsb' (8 * l) 8 = 0#8) ∧
    (4 * k + l < cap → ∀ b, m.read? (4 * k + l) = some b → r.extractLsb' (8 * l) 8 = b) ∧
    (4 * k + l < cap → m.read? (4 * k + l) = none →
      r.extractLsb' (8 * l) 8 = Config.freeByte (free + m.drawnBefore cap k l))

theorem Memory.readsLanes_readWord (m : Memory) (cap k free : Nat) :
    ReadsLanes m cap k free (m.readWord cap k free).1 := by
  intro l hl
  rw [readWord_eq, extractLsb'_wordOfLanes (m.laneValue cap k free) hl, laneValue, readLane]
  refine ⟨fun hcap => ?_, fun hcap b hb => ?_, fun hcap hnone => ?_⟩
  · rw [if_neg (Nat.not_lt.mpr hcap)]
  · rw [if_pos hcap, readByte_some hb]
  · rw [if_pos hcap, readByte_none hnone]

/-! ### Writes -/

/-- R86: a write of word k sets its lanes below the capacity and no other byte. -/
theorem Memory.read?_writeWord (m : Memory) (cap k : Nat) (v : Word) (a : Nat) :
    (m.writeWord cap k v).read? a =
      if 4 * k ≤ a ∧ a < 4 * k + 4 ∧ a < cap then some (lane v (a - 4 * k)) else m.read? a := by
  simp only [writeWord, read?_writeLane]
  by_cases ha : 4 * k ≤ a ∧ a < 4 * k + 4
  · obtain ⟨l, hl, rfl⟩ : ∃ l < 4, a = 4 * k + l := ⟨a - 4 * k, by omega, by omega⟩
    match l, hl with
    | 0, _ | 1, _ | 2, _ | 3, _ => simp
  · simp only [show a ≠ 4 * k by omega, show a ≠ 4 * k + 1 by omega, show a ≠ 4 * k + 2 by omega,
      show a ≠ 4 * k + 3 by omega, ← and_assoc, ha, false_and, if_false]

end Sys2Proof.Machine
end

section
/-! PROOFS. The host bus (20_memory.md R84 to R99): what lies at each stretch of offsets, what reads answer while BUSY = 0 and
while a command runs (R89), and which writes have an effect. -/

namespace Sys2Proof.Machine

variable {s : State} {off : Nat} {v : Word} {i : Instr} {ms : List Move}

/-! ### Where the window's offsets lie -/

/-- R82: FREQ. -/
theorem exists_locate_freq (h : 0x400 ≤ off ∧ off < 0x800) : ∃ x, locate off = .freq x := by
  refine ⟨BitVec.ofNat 8 ((off - 0x400) / 4), ?_⟩
  have hx : (BitVec.ofNat 8 ((off - 0x400) / 4)).toNat = (off - 0x400) / 4 := by
    rw [BitVec.toNat_ofNat, Nat.mod_eq_of_lt (by omega)]
  rw [← locate_freq _ (off % 4) (by omega)]
  exact congrArg locate (by omega)

/-- R82: CODE_LEN. -/
theorem exists_locate_codeLen (h : 0x800 ≤ off ∧ off < 0xC00) : ∃ x, locate off = .codeLen x := by
  refine ⟨BitVec.ofNat 8 ((off - 0x800) / 4), ?_⟩
  have hx : (BitVec.ofNat 8 ((off - 0x800) / 4)).toNat = (off - 0x800) / 4 := by
    rw [BitVec.toNat_ofNat, Nat.mod_eq_of_lt (by omega)]
  rw [← locate_codeLen _ (off % 4) (by omega)]
  exact congrArg locate (by omega)

/-- R82: CODE_BITS. -/
theorem exists_locate_codeBits (h : 0x2000 ≤ off ∧ off < 0x4000) : ∃ x w, locate off = .codeBits x w := by
  have hx : (BitVec.ofNat 8 ((off - 0x2000) / 32)).toNat = (off - 0x2000) / 32 := by
    rw [BitVec.toNat_ofNat, Nat.mod_eq_of_lt (by omega)]
  obtain ⟨x, w, j, hw, hj, rfl⟩ : ∃ (x : Sym) (w j : Nat), w < 8 ∧ j < 4 ∧ off = 0x2000 + 32 * x.toNat + 4 * w + j :=
    ⟨_, (off - 0x2000) / 4 % 8, off % 4, by omega, by omega, by rw [hx]; omega⟩
  exact ⟨x, w, locate_codeBits x w j hw hj⟩

/-- R82: word k of the OUT window. -/
theorem locate_outWord_of_range (h : 0x02000000 ≤ off ∧ off < 0x03000000) :
    locate off = .outWord ((off - 0x02000000) / 4) := by
  rw [← locate_outWord _ (off % 4) (by omega) (by omega)]
  exact congrArg locate (by omega)

/-- R82, read backwards: FREQ lies in its range only. -/
theorem range_of_locate_freq {x : Sym} (h : locate off = .freq x) : 0x400 ≤ off ∧ off < 0x800 := by
  simp only [locate] at h
  split_ifs at h
  · split at h <;> cases h
  · omega

/-- R82, read backwards: so does the IN window. -/
theorem range_of_locate_inWord {k : Nat} (h : locate off = .inWord k) : 0x01000000 ≤ off ∧ off < 0x02000000 := by
  simp only [locate] at h
  split_ifs at h
  · split at h <;> cases h
  · omega

/-- R85: the offsets of the locations that a host write can change. -/
theorem range_of_hostWritable (h : hostWritable (locate off) = true) :
    off / 4 = 1 ∨ off / 4 = 2 ∨ off / 4 = 3 ∨ off / 4 = 5 ∨ (0x400 ≤ off ∧ off < 0x800) ∨
      (0x01000000 ≤ off ∧ off < 0x02000000) := by
  cases hl : locate off with
  | reg r =>
    have hr := eq_ctorIdx_of_regAt (regAt_of_locate hl)
    rw [hl] at h
    cases r <;> simp [hostWritable] at h <;> simp [hr, Reg.ctorIdx]
  | freq x =>
    have := range_of_locate_freq hl
    omega
  | inWord k =>
    have := range_of_locate_inWord hl
    omega
  | codeLen x => simp [hl, hostWritable] at h
  | codeBits x j => simp [hl, hostWritable] at h
  | outWord k => simp [hl, hostWritable] at h
  | reserved => simp [hl, hostWritable] at h

/-! ### Who writes what -/

/-- R89's table by location: the commands that write it. -/
def writersOf (outCap : Nat) : Loc → List Instr
  | .freq _ => [.count, .buildCodec]
  | .codeLen _ | .codeBits _ _ | .reg .maxLen => [.buildTree, .genCodes, .buildCodec]
  | .reg .nsym => [.buildTree, .buildCodec]
  | .reg .outLen | .reg .payloadBits | .reg .pad => [.encode, .decode]
  | .outWord k => if 4 * k < outCap then [.encode, .decode] else []
  | _ => []

theorem instrWrites_eq_true_iff {outCap : Nat} {l : Loc} : instrWrites outCap i l = true ↔ i ∈ writersOf outCap l := by
  cases l with
  | reg r => cases r <;> cases i <;> simp [instrWrites, writersOf, countWrites, treeWrites, codesWrites, codecWrites]
  | outWord k =>
    by_cases hk : 4 * k < outCap
    · cases i <;> simp [instrWrites, writersOf, countWrites, treeWrites, codesWrites, codecWrites, hk]
    · cases i <;> simp [instrWrites, writersOf, countWrites, treeWrites, codesWrites, codecWrites, hk]
  | _ => cases i <;> simp [instrWrites, writersOf, countWrites, treeWrites, codesWrites, codecWrites]

theorem writesTreeValid_eq_true_iff : writesTreeValid i = true ↔ i ∈ [.buildTree, .buildCodec] := by
  cases i <;> simp [writesTreeValid]

theorem writesCodesValid_eq_true_iff : writesCodesValid i = true ↔ i ∈ [.buildTree, .genCodes, .buildCodec] := by
  cases i <;> simp [writesCodesValid]

/-- 30_encoding.md R121: a word whose number is one of some commands' is the word of one of them. -/
theorem exists_decode_of_mem {is : List Instr} (h : v.toNat ∈ is.map fun i => (encode i).toNat) :
    ∃ i ∈ is, decode v = .ok i := by
  obtain ⟨i, hi, hv⟩ := List.mem_map.mp h
  exact ⟨i, hi, (decode_eq_ok_iff v i).mpr (BitVec.eq_of_toNat_eq hv.symm)⟩

/-- And a word whose number is not is the word of none of them. -/
theorem not_mem_of_decode {is : List Instr} (h : v.toNat ∉ is.map fun i => (encode i).toNat) (hd : decode v = .ok i) :
    i ∉ is := by
  rintro hi
  rw [(decode_eq_ok_iff v i).mp hd] at h
  exact h (List.mem_map_of_mem hi)

/-! ### Reads -/

/-- A host read in the window, from what the bus answers. -/
theorem step_read_of_busRead {r : Word} {n : Nat} (hm : s.moves = .read (s.cfg.base + off) :: ms)
    (hoff : off < 0x03000000) (hr : busRead { s with moves := ms } off = (r, n)) :
    step s = .next { s with moves := ms, lastRead := some r, free := n } := by
  rw [step_read hm hoff, hostRead_of_busRead hr]

/-- R89: a read of a location, STATUS apart, is exact while the word in CUR_CMD is that of no command which writes it. -/
theorem busRead_of_not_writer {l : Loc} (hl : locate off = l) (hs : l ≠ .reg .status)
    (hv : s.curCmd.toNat ∉ (writersOf s.cfg.outCap l).map fun i => (encode i).toNat) : busRead s off = locValue s l := by
  subst hl
  refine busRead_of_not_written hs fun i hi => Bool.eq_false_iff.mpr fun hw => ?_
  exact not_mem_of_decode hv hi (instrWrites_eq_true_iff.mp hw)

/-- R89: while a command that writes a location runs, a read of it draws the next free value. -/
theorem busRead_of_writer {l : Loc} (hb : s.busy = true) (hl : locate off = l) (hs : l ≠ .reg .status)
    (hv : s.curCmd.toNat ∈ (writersOf s.cfg.outCap l).map fun i => (encode i).toNat) :
    busRead s off = (Config.freeWord s.free, s.free + 1) := by
  subst hl
  obtain ⟨i, hi, hd⟩ := exists_decode_of_mem hv
  exact busRead_of_written hb hd hs (instrWrites_eq_true_iff.mpr hi)

/-- R89: STATUS while command `i` runs; TREE_VALID and CODES_VALID are exact unless `i` writes them. -/
theorem busyValue_status (s : State) (i : Instr) : ∃ tv cv,
    (busyValue s i (.reg .status)).1 = statusWord s.busy s.done s.err tv cv ∧
    (writesTreeValid i = false → tv = s.treeValid) ∧ (writesCodesValid i = false → cv = s.codesValid) := by
  have hno : instrWrites s.cfg.outCap i (.reg .status) = false := by cases i <;> rfl
  unfold busyValue
  split_ifs with hw
  · exact ⟨_, _, rfl, fun h => if_neg (by simp [h]), fun h => if_neg (by simp [h])⟩
  · next h => simp [hno] at h
  · exact ⟨_, _, rfl, fun _ => rfl, fun _ => rfl⟩

/-- R89: STATUS whatever runs. -/
theorem busRead_status (h : locate off = .reg .status) : ∃ tv cv,
    (busRead s off).1 = statusWord s.busy s.done s.err tv cv ∧
    ((∀ i, decode s.curCmd = .ok i → writesTreeValid i = false) → tv = s.treeValid) ∧
    ((∀ i, decode s.curCmd = .ok i → writesCodesValid i = false) → cv = s.codesValid) := by
  unfold busRead
  rw [h]
  split
  · split
    · next i hi =>
      obtain ⟨tv, cv, hr, htv, hcv⟩ := busyValue_status s i
      exact ⟨tv, cv, hr, fun hw => htv (hw i hi), fun hw => hcv (hw i hi)⟩
    · exact ⟨_, _, rfl, fun _ => rfl, fun _ => rfl⟩
  · exact ⟨_, _, rfl, fun _ => rfl, fun _ => rfl⟩

/-- R89: STATUS while a command that writes CODES_VALID runs. -/
theorem busRead_status_of_written (hb : s.busy = true) (hd : decode s.curCmd = .ok i) (h : locate off = .reg .status)
    (hw : writesCodesValid i = true) :
    busRead s off = (busyStatus s i (Config.freeWord s.free), s.free + 1) := by
  simp [busRead, hb, hd, h, busyValue, hw]

/-! ### The draw counter -/

/-- R94: a read of a buffer word draws at most forward. -/
theorem free_le_locValue (s : State) (l : Loc) : s.free ≤ (locValue s l).2 := by
  cases l with
  | inWord k =>
    rw [locValue, Memory.readWord_eq]
    exact Nat.le_add_right _ _
  | outWord k =>
    rw [locValue, Memory.readWord_eq]
    exact Nat.le_add_right _ _
  | _ => exact le_rfl

/-- R89: so does a read while a command runs. -/
theorem free_le_busRead (s : State) (off : Nat) : s.free ≤ (busRead s off).2 := by
  unfold busRead
  split
  · split
    · unfold busyValue
      split_ifs
      · exact Nat.le_succ _
      · exact Nat.le_succ _
      · exact free_le_locValue s _
    · exact free_le_locValue s _
  · exact free_le_locValue s _

/-! ### Writes -/

/-- 10_state.md R46: while BUSY = 0 a write of IN_LEN stores any value. -/
theorem busWrite_of_inLen (hb : s.busy = false) (h : locate off = .reg .inLen) (v : Word) :
    busWrite s off v = { s with inLen := v } := by
  simp [busWrite, hb, h, idleWrite]

/-- R86: while BUSY = 0 a write of word k of the IN window. -/
theorem busWrite_of_inWord {k : Nat} (hb : s.busy = false) (h : locate off = .inWord k) (v : Word) :
    busWrite s off v = { s with inBuf := s.inBuf.writeWord s.cfg.inCap k v } := by
  simp [busWrite, hb, h, idleWrite]

/-! ### The statements while BUSY = 0 -/

/-- Settles O9: CTRL, STATUS and IN_LEN are words 1, 3 and 5. -/
theorem registerWritesWhileIdle : Obligations.RegisterWritesWhileIdle := by
  intro s ms v j hj hb
  have hctrl : locate (0x004 + j) = .reg .ctrl := locate_reg (n := 1) (by omega) rfl
  have hstatus : locate (0x00C + j) = .reg .status := locate_reg (n := 3) (by omega) rfl
  have hinLen : locate (0x014 + j) = .reg .inLen := locate_reg (n := 5) (by omega) rfl
  refine ⟨fun hm => ?_, fun hm => ?_, fun hm => ?_⟩ <;> rw [step_write hm (by omega)]
  · rw [busWrite_of_ctrl hctrl, State.writeCtrl]
  · rw [busWrite_of_status hstatus, State.writeStatus_eq]
  · rw [busWrite_of_inLen (s := { s with moves := ms }) hb hinLen]

/-- Settles O15: the offsets of the statement are those of no location that a host write can change. -/
theorem otherWritesAreIgnored : Obligations.OtherWritesAreIgnored := by
  intro s ms off v hoff hm h1 h2 h3 h5 hfreq hin
  have hno : hostWritable (locate off) = false := Bool.eq_false_iff.mpr fun h => by
    have := range_of_hostWritable h
    omega
  rw [step_write hm hoff, busWrite_of_not_hostWritable hno]

/-- 10_state.md R44: STATUS as a number. -/
theorem status_eq_ofNat (hb : s.busy = false) : s.status = BitVec.ofNat 32 (2 * s.done.toNat +
    4 * (if s.errCode = 0#8 then 0 else 1) + 8 * s.treeValid.toNat + 16 * s.codesValid.toNat) := by
  rw [State.status, State.err, hb]
  by_cases herr : s.errCode = 0#8
  · simp only [herr, bne_self_eq_false, if_true]
    cases s.done <;> cases s.treeValid <;> cases s.codesValid <;> rfl
  · simp only [herr, bne_iff_ne.mpr herr, if_false]
    cases s.done <;> cases s.treeValid <;> cases s.codesValid <;> rfl

/-- 10_state.md R42: CTRL as a number. -/
theorem ctrl_eq_ite (s : State) : s.ctrl = if s.irqEn then 1#32 else 0#32 := by
  rw [State.ctrl]
  cases s.irqEn <;> rfl

/-- Settles O16: each register's value is its field, zero-extended. -/
theorem registerReads : Obligations.RegisterReads := by
  intro s ms off j v hj hb hm hmem
  have answer {n : Nat} {r : Reg} (hn : off = 4 * n) (hr : regAt n = some r)
      (hv : regValue { s with moves := ms } r = v) : step s = .next { s with moves := ms, lastRead := some v } := by
    have hlt : n < 13 := Nat.lt_of_not_le fun h => by simp [regAt_eq_none h] at hr
    refine step_read_of_idle hm (by omega) hb ?_
    rw [locate_reg (by omega) hr, locValue, hv]
  simp only [List.mem_cons, Prod.mk.injEq, List.not_mem_nil, or_false] at hmem
  rcases hmem with ⟨h, rfl⟩ | ⟨h, rfl⟩ | ⟨h, rfl⟩ | ⟨h, rfl⟩ | ⟨h, rfl⟩ | ⟨h, rfl⟩ | ⟨h, rfl⟩ | ⟨h, rfl⟩ | ⟨h, rfl⟩ |
    ⟨h, rfl⟩ | ⟨h, rfl⟩ | ⟨h, rfl⟩ | ⟨h, rfl⟩
  · exact answer (n := 0) h rfl rfl
  · exact answer (n := 1) h rfl (ctrl_eq_ite _)
  · exact answer (n := 2) h rfl rfl
  · exact answer (n := 3) h rfl (status_eq_ofNat hb)
  · exact answer (n := 4) h rfl rfl
  · exact answer (n := 5) h rfl rfl
  · exact answer (n := 6) h rfl rfl
  · exact answer (n := 7) h rfl rfl
  · exact answer (n := 8) h rfl rfl
  · exact answer (n := 9) h rfl rfl
  · exact answer (n := 10) h rfl rfl
  · exact answer (n := 11) h rfl rfl
  · exact answer (n := 12) h rfl rfl

/-- Settles O17: a read moves the draw counter forward, if at all. -/
theorem hostReadsChangeNothing : Obligations.HostReadsChangeNothing := by
  intro s ms off hoff hm
  exact ⟨_, _, step_read hm hoff, rfl, free_le_busRead { s with moves := ms } off⟩

/-! ### The windows -/

/-- Settles O12: no command writes the IN window, and an idle write sets its lanes. -/
theorem inWindowReadsAndWrites : Obligations.InWindowReadsAndWrites := by
  intro s ms v k j hj hk
  have hl := locate_inWord k j hk hj
  have hoff : 0x01000000 + 4 * k + j < 0x03000000 := by omega
  refine ⟨fun hb hm => ?_, fun hm => ?_⟩
  · refine ⟨_, step_write hm hoff, ?_⟩
    rw [busWrite_of_inWord (s := { s with moves := ms }) hb hl]
    refine ⟨rfl, fun l hl4 hcap => ?_, fun a ha => ?_⟩
    · rw [Memory.read?_writeWord, if_pos ⟨by omega, by omega, hcap⟩, Nat.add_sub_cancel_left, lane]
    · exact (Memory.read?_writeWord ..).trans (if_neg (by dsimp only; omega))
  · refine ⟨_, _, step_read hm hoff, rfl, ?_⟩
    rw [busRead_of_not_writer hl (by simp) (by simp [writersOf])]
    exact Memory.readsLanes_readWord s.inBuf s.cfg.inCap k s.free

/-- Settles O13: ENCODE and DECODE alone write an OUT word, one with a byte below OUT_CAP. -/
theorem outWindowReadsAndIgnoresWrites : Obligations.OutWindowReadsAndIgnoresWrites := by
  intro s ms v k j hj hk
  have hl := locate_outWord k j hk hj
  have hoff : 0x02000000 + 4 * k + j < 0x03000000 := by omega
  refine ⟨fun hm => ?_, fun hquiet hm => ?_⟩
  · rw [step_write hm hoff, busWrite_of_not_hostWritable (by rw [hl]; rfl)]
  · refine ⟨_, _, step_read hm hoff, rfl, ?_⟩
    have hread : busRead { s with moves := ms } (0x02000000 + 4 * k + j) = locValue { s with moves := ms } (.outWord k) := by
      rcases hquiet with hb | hcmd | hcap
      · rw [busRead_of_idle (s := { s with moves := ms }) hb, hl]
      · refine busRead_of_not_writer hl (by simp) ?_
        rw [writersOf]
        split
        · exact hcmd
        · exact List.not_mem_nil
      · exact busRead_of_not_writer hl (by simp) (by simp [writersOf, Nat.not_lt.mpr hcap])
    rw [hread]
    exact Memory.readsLanes_readWord s.outBuf s.cfg.outCap k s.free

/-! ### The statements while BUSY = 1 -/

/-- Settles O19: each range is that of a location which each of the commands named writes. -/
theorem busyReadsOfWrittenStateAreFree : Obligations.BusyReadsOfWrittenStateAreFree := by
  intro s ms off hb hm
  have free {l : Loc} (hl : locate off = l) (hs : l ≠ .reg .status) (hoff : off < 0x03000000)
      (hv : s.curCmd.toNat ∈ (writersOf s.cfg.outCap l).map fun i => (encode i).toNat) :
      step s = .next { s with moves := ms, lastRead := some (Config.freeWord s.free), free := s.free + 1 } :=
    step_read_of_busRead hm hoff (busRead_of_writer (s := { s with moves := ms }) hb hl hs hv)
  refine ⟨?_, fun hv h3 => ?_⟩
  · rintro (⟨hv, hoff⟩ | ⟨hv, hoff | hoff | hoff⟩ | ⟨hv, hoff⟩ | ⟨hv, hoff | ⟨hlo, hhi, hcap⟩⟩)
    · obtain ⟨x, hl⟩ := exists_locate_freq hoff
      exact free hl (by simp) (by omega) hv
    · obtain ⟨x, hl⟩ := exists_locate_codeLen hoff
      exact free hl (by simp) (by omega) hv
    · obtain ⟨x, w, hl⟩ := exists_locate_codeBits hoff
      exact free hl (by simp) (by omega) hv
    · exact free (locate_reg (r := .maxLen) hoff rfl) (by simp) (by omega) hv
    · exact free (locate_reg (r := .nsym) hoff rfl) (by simp) (by omega) hv
    · simp only [List.mem_cons, List.not_mem_nil, or_false] at hoff
      rcases hoff with h6 | h9 | h10
      · exact free (locate_reg (r := .outLen) h6 rfl) (by simp) (by omega) hv
      · exact free (locate_reg (r := .payloadBits) h9 rfl) (by simp) (by omega) hv
      · exact free (locate_reg (r := .pad) h10 rfl) (by simp) (by omega) hv
    · refine free (locate_outWord_of_range ⟨hlo, hhi⟩) (by simp) hhi ?_
      rw [writersOf, if_pos hcap]
      exact hv
  · obtain ⟨i, hi, hd⟩ := exists_decode_of_mem (is := [.buildTree, .genCodes, .buildCodec]) hv
    have hcodes := writesCodesValid_eq_true_iff.mpr hi
    have hread := busRead_status_of_written (s := { s with moves := ms }) hb hd (locate_reg h3 rfl) hcodes
    obtain ⟨-, -, -, htree3, hcodes4, -⟩ := statusWord_bits s.busy s.done s.err
      (if writesTreeValid i then (Config.freeWord s.free).getLsbD 3 else s.treeValid)
      (if writesCodesValid i then (Config.freeWord s.free).getLsbD 4 else s.codesValid)
    refine ⟨_, step_read_of_busRead hm (by omega) hread, hcodes4.trans (if_pos hcodes), fun hv => htree3.trans ?_⟩
    obtain ⟨i', hi', hd'⟩ := exists_decode_of_mem (is := [.buildTree, .buildCodec]) hv
    cases hd.symm.trans hd'
    exact if_pos (writesTreeValid_eq_true_iff.mpr hi')

/-- Settles O18: each value is that of a location which none of the commands but those named writes; and in a state of the
invariant DONE = 0 and ERR_CODE = 0 while BUSY = 1. -/
theorem busyReadsOfUnwrittenRegisters : Obligations.BusyReadsOfUnwrittenRegisters := by
  intro s ms j hb hj
  have answer {off : Nat} {l : Loc} {v : Word} (hm : s.moves = .read (s.cfg.base + (off + j)) :: ms)
      (hl : locate (off + j) = l) (hs : l ≠ .reg .status) (hoff : off + j < 0x03000000)
      (hv : s.curCmd.toNat ∉ (writersOf s.cfg.outCap l).map fun i => (encode i).toNat)
      (hval : locValue { s with moves := ms } l = (v, s.free)) :
      step s = .next { s with moves := ms, lastRead := some v } :=
    step_read_of_busRead hm hoff ((busRead_of_not_writer (s := { s with moves := ms }) hl hs hv).trans hval)
  have register {off n : Nat} {r : Reg} {v : Word} (hm : s.moves = .read (s.cfg.base + (off + j)) :: ms)
      (hn : off = 4 * n ∧ n < 13) (hr : regAt n = some r) (hs : r ≠ .status)
      (hv : s.curCmd.toNat ∉ (writersOf s.cfg.outCap (.reg r)).map fun i => (encode i).toNat)
      (hval : regValue { s with moves := ms } r = v) : step s = .next { s with moves := ms, lastRead := some v } :=
    answer hm (locate_reg (n := n) (by omega) hr) (by simpa using hs) (by omega) hv (by rw [locValue, hval])
  refine ⟨fun off v hm h => ?_, fun hinv => ⟨fun hm => ?_, fun hm => ?_⟩⟩
  · rcases h with h | ⟨hv, h⟩ | ⟨hv, h⟩ | ⟨hv, h⟩ | ⟨hv, x, h⟩ | ⟨hv, x, h | ⟨w, hw, h⟩⟩
    · simp only [List.mem_cons, Prod.mk.injEq, List.not_mem_nil, or_false] at h
      rcases h with ⟨rfl, rfl⟩ | ⟨rfl, rfl⟩ | ⟨rfl, rfl⟩ | ⟨rfl, rfl⟩ | ⟨rfl, rfl⟩ | ⟨rfl, rfl⟩
      · exact register (n := 0) (r := .id) hm (by decide) rfl (by decide) List.not_mem_nil rfl
      · exact register (n := 1) (r := .ctrl) hm (by decide) rfl (by decide) List.not_mem_nil (ctrl_eq_ite _)
      · exact register (n := 2) (r := .cmd) hm (by decide) rfl (by decide) List.not_mem_nil rfl
      · exact register (n := 5) (r := .inLen) hm (by decide) rfl (by decide) List.not_mem_nil rfl
      · exact register (n := 11) (r := .inCap) hm (by decide) rfl (by decide) List.not_mem_nil rfl
      · exact register (n := 12) (r := .outCap) hm (by decide) rfl (by decide) List.not_mem_nil rfl
    · cases h
      exact register (n := 7) (r := .nsym) hm (by decide) rfl (by decide) hv rfl
    · cases h
      exact register (n := 8) (r := .maxLen) hm (by decide) rfl (by decide) hv rfl
    · simp only [List.mem_cons, Prod.mk.injEq, List.not_mem_nil, or_false] at h
      rcases h with ⟨rfl, rfl⟩ | ⟨rfl, rfl⟩ | ⟨rfl, rfl⟩
      · exact register (n := 6) (r := .outLen) hm (by decide) rfl (by decide) hv rfl
      · exact register (n := 9) (r := .payloadBits) hm (by decide) rfl (by decide) hv rfl
      · exact register (n := 10) (r := .pad) hm (by decide) rfl (by decide) hv rfl
    · cases h
      exact answer hm (locate_freq x j hj) (by simp) (by omega) hv rfl
    · cases h
      exact answer hm (locate_codeLen x j hj) (by simp) (by omega) hv rfl
    · cases h
      exact answer hm (locate_codeBits x w j hw hj) (by simp) (by omega) hv rfl
  · obtain ⟨hbusy, -⟩ := hinv.lifecycle
    obtain ⟨-, herr⟩ := hbusy hb
    exact register (n := 4) (r := .errCode) hm (by decide) rfl (by decide) List.not_mem_nil (by rw [regValue, herr]; rfl)
  · obtain ⟨hbusy, -⟩ := hinv.lifecycle
    obtain ⟨hdone, herr⟩ := hbusy hb
    obtain ⟨tv, cv, hr, htv, hcv⟩ :=
      busRead_status (s := { s with moves := ms }) (off := 0x00C + j) (locate_reg (n := 3) (by omega) rfl)
    obtain ⟨hb0, hb1, hb2, hb3, hb4, hhigh⟩ := statusWord_bits s.busy s.done s.err tv cv
    refine ⟨_, _, step_read hm (by omega), congrArg some hr, hb0.trans hb, hb1.trans hdone, hb2.trans ?_, hhigh,
      fun hv => ?_, fun hv => ?_⟩
    · rw [State.err, herr]
      rfl
    · refine hb3.trans (htv fun i hd => Bool.eq_false_iff.mpr fun hw => ?_)
      exact not_mem_of_decode (is := [.buildTree, .buildCodec]) hv hd (writesTreeValid_eq_true_iff.mp hw)
    · refine hb4.trans (hcv fun i hd => Bool.eq_false_iff.mpr fun hw => ?_)
      exact not_mem_of_decode (is := [.buildTree, .genCodes, .buildCodec]) hv hd (writesCodesValid_eq_true_iff.mp hw)

end Sys2Proof.Machine
end
